-- ==== Sys2Proof/Word.lean ====
section
/-! DEFINITION. The register word and the port number, the two bit-vector types of the block. -/

namespace Sys2Proof

/-- A register word, `u32` (00_scope.md R7, R11): bit `i` has weight `2^i`. -/
abbrev Word := BitVec 32

/-- The port field of a command word, 8 bits (30_encoding.md R94). -/
abbrev Port := BitVec 8

/-- The word with exactly bit `j` set, `1 << j`. -/
abbrev oneHot (j : Nat) : Word := BitVec.twoPow 32 j

end Sys2Proof
end

