-- ==== Sys2Proof/Syntax.lean ====
section
/-! DEFINITION. The commands of the block (30_encoding.md R93 to R100): one constructor of `Instr` per row of
spec/opcode_table.json. -/

namespace Sys2Proof

/-- The seven register banks (10_state.md R23). -/
inductive Bank where
  | fsel | set | clr | lev | eds | ren | fen
deriving DecidableEq, Repr, Inhabited

/-- A pin handle's mode (30_encoding.md R98). -/
inductive Mode where
  | input | output
deriving DecidableEq, Repr, Inhabited

/-- The edge kind of a watch (30_encoding.md R99). -/
inductive EdgeKind where
  | rising | falling | both
deriving DecidableEq, Repr, Inhabited

/-- A raw command: the 32-bit command word and the 32-bit data word (30_encoding.md R93). -/
structure Command where
  word : Word
  data : Word
deriving DecidableEq, Repr, Inhabited

/-- A decoded command (30_encoding.md R96). Operands keep the width of their field; `data` is an operand of WR32
and BEGINWATCH alone (R94). -/
inductive Instr where
  /-- RD32 off (40_window.md R138). -/
  | rd32 (off : BitVec 12)
  /-- WR32 off, data (40_window.md R139). -/
  | wr32 (off : BitVec 12) (data : Word)
  /-- WINCLOSE (40_window.md R140). -/
  | winclose
  /-- LOCATE bank, port (41_codec.md R151). -/
  | locate (bank : Bank) (port : Port)
  /-- SETBIT bank, port (41_codec.md R153). -/
  | setbit (bank : Bank) (port : Port)
  /-- CLRBIT bank, port (41_codec.md R154). -/
  | clrbit (bank : Bank) (port : Port)
  /-- RDBIT bank, port (41_codec.md R155). -/
  | rdbit (bank : Bank) (port : Port)
  /-- PULSE bank, port (41_codec.md R156). -/
  | pulse (bank : Bank) (port : Port)
  /-- SETFN fn, port (41_codec.md R157). -/
  | setfn (fn : BitVec 3) (port : Port)
  /-- GETFN port (41_codec.md R158). -/
  | getfn (port : Port)
  /-- OPEN port, mode (42_pin_handle.md R182). -/
  | openPin (mode : Mode) (port : Port)
  /-- SET port (42_pin_handle.md R183). -/
  | setPin (port : Port)
  /-- CLR port (42_pin_handle.md R184). -/
  | clrPin (port : Port)
  /-- READ port (42_pin_handle.md R185). -/
  | readPin (port : Port)
  /-- CLOSE port (42_pin_handle.md R186). -/
  | closePin (port : Port)
  /-- BEGINWATCH port, kind, cb (43_edge_watch.md R221); `cb` is the data word. -/
  | beginWatch (kind : EdgeKind) (port : Port) (cb : Word)
  /-- ENDWATCH port (43_edge_watch.md R223). -/
  | endWatch (port : Port)
deriving DecidableEq, Repr, Inhabited

end Sys2Proof
end

