-- ==== Sys2Proof/Config.lean ====
section
/-! DEFINITION. What an implementation fixes (the Register Map, 00_scope.md R8 and R9), the vocabulary of the
outside world's choices (10_state.md R20, 60_exceptions.md R270), and the free values. -/

namespace Sys2Proof

/-- The Register Map and the function codes: the named parameters of 00_scope.md R8. They are carried in
`State.params`, so that a statement over all states speaks of every parameter set (log 1). -/
structure Params where
  nports : Nat
  windowSize : Nat
  physBase : Nat
  baseFsel : Nat
  baseSet : Nat
  baseClr : Nat
  baseLev : Nat
  baseEds : Nat
  baseRen : Nat
  baseFen : Nat
  fselInput : BitVec 3
  fselOutput : BitVec 3
deriving DecidableEq, Repr

/-- PRESUMED: the RPi4 default instance of 00_scope.md R8, which the spec itself takes from general knowledge
(93_implementation_defined.md G2, G3; log 1). -/
def Params.rpi4 : Params where
  nports := 58
  windowSize := 4096
  physBase := 0xFE200000
  baseFsel := 0x00
  baseSet := 0x1C
  baseClr := 0x28
  baseLev := 0x34
  baseEds := 0x40
  baseRen := 0x4C
  baseFen := 0x58
  fselInput := 0b000
  fselOutput := 0b001

/-- `NW`, the words of a single-bit bank: `ceil(NPORTS / 32)` (00_scope.md R8). -/
def Params.nw (P : Params) : Nat := (P.nports + 31) / 32

/-- `NF`, the words of FunctionSelect: `ceil(NPORTS / 10)` (00_scope.md R8). -/
def Params.nf (P : Params) : Nat := (P.nports + 9) / 10

/-- `BASE_b` (00_scope.md R8). -/
def Params.base (P : Params) : Bank → Nat
  | .fsel => P.baseFsel
  | .set => P.baseSet
  | .clr => P.baseClr
  | .lev => P.baseLev
  | .eds => P.baseEds
  | .ren => P.baseRen
  | .fen => P.baseFen

/-- `n_b`: `NF` for FSEL, `NW` otherwise (00_scope.md R8). -/
def Params.words (P : Params) : Bank → Nat
  | .fsel => P.nf
  | .set | .clr | .lev | .eds | .ren | .fen => P.nw

/-- Every bank, in the order of the bank codes (30_encoding.md R97). -/
def Bank.all : List Bank := [.fsel, .set, .clr, .lev, .eds, .ren, .fen]

/-- The byte ranges of two banks do not overlap (00_scope.md R8). -/
abbrev Params.disjoint (P : Params) (a b : Bank) : Prop :=
  P.base a + 4 * P.words a ≤ P.base b ∨ P.base b + 4 * P.words b ≤ P.base a

/-- The constraints 00_scope.md R8 puts on a parameter set. A set that breaks them is refused (60_exceptions.md
R258). -/
abbrev Params.legal (P : Params) : Prop :=
  1 ≤ P.nports ∧ P.nports ≤ 256 ∧ P.windowSize % 4 = 0 ∧ P.windowSize ≤ 4096 ∧
  P.fselInput ≠ P.fselOutput ∧
  (∀ b ∈ Bank.all, P.base b % 4 = 0 ∧ P.base b + 4 * P.words b ≤ P.windowSize) ∧
  (∀ a ∈ Bank.all, ∀ b ∈ Bank.all, a ≠ b → P.disjoint a b)

/-- Who issues commands (10_state.md R20): `Main`, or the callback body `CB(p)` of port `p`. -/
inductive CallerId where
  | main
  | cb (p : Nat)
deriving DecidableEq, Repr, Inhabited

/-- `e ∈ {PermissionDenied, UnsupportedPlatform}` of a failed window (10_state.md R36). -/
inductive WindowError where
  | permissionDenied | unsupportedPlatform
deriving DecidableEq, Repr, Inhabited

/-- The host's answer to the mapping request (40_window.md R134): Ok, or a failure. -/
inductive MapAnswer where
  | ok
  | failed (e : WindowError)
deriving DecidableEq, Repr, Inhabited

/-- One choice of the outside: which agent takes the next micro-step, and with what (20_memory.md R70,
60_exceptions.md R270). The steps of 30_encoding.md R106 are `watcher`, `pad`, `ret` and `unmap`. -/
inductive Input where
  /-- Caller `c`, Idle, issues a command: its first micro-step (10_state.md R40). -/
  | issue (c : CallerId) (cmd : Command)
  /-- Caller `c` takes the next micro-step of the command it is carrying out. -/
  | resume (c : CallerId)
  /-- `@watch p`: one micro-step of `Watcher(p)`. -/
  | watcher (p : Nat)
  /-- `@pad p, v`: the outside level of line `p` becomes `v` (43_edge_watch.md R210). -/
  | pad (p : Nat) (v : Bool)
  /-- `@ret p`: the host returns from the callback of `p` (43_edge_watch.md R232). -/
  | ret (p : Nat)
  /-- `@unmap`: the host unmaps the window unexpectedly (40_window.md R136). -/
  | unmap
deriving DecidableEq, Repr, Inhabited

/-- FREE VALUE: `draw v : u32` (00_scope.md R12), applied to the draw counter of the state: reserved bits, reads of
SET and CLR, reads of Unbanked offsets (40_window.md R131; log 7). -/
opaque Config.freeWord : Nat → Word

/-- FREE VALUE: the host's answer to the mapping request where `State.mapAnswers` gives none (40_window.md R134;
log 8). -/
opaque Config.freeMapAnswer : Nat → MapAnswer

/-- FREE VALUE: which agent moves where `State.inputs` gives no choice: every interleaving is allowed
(20_memory.md R70; log 5). -/
opaque Config.freeInput : Nat → Input

end Sys2Proof
end

