-- ==== Sys2Proof/WellFormed.lean ====
section
/-! DEFINITION. Which commands are legal: the banks each codec command accepts (41_codec.md R152). Every other
operand is legal at every value of its type (30_encoding.md R95, R98 to R100). -/

namespace Sys2Proof

/-- The banks SETBIT and CLRBIT accept: the read/write single-bit banks (41_codec.md R152). -/
def Bank.acceptsBitWrite : Bank → Bool
  | .ren | .fen => true
  | .fsel | .set | .clr | .lev | .eds => false

/-- The banks RDBIT accepts (41_codec.md R152). -/
def Bank.acceptsBitRead : Bank → Bool
  | .lev | .eds | .ren | .fen => true
  | .fsel | .set | .clr => false

/-- The banks PULSE accepts: the write-1 banks (41_codec.md R152). -/
def Bank.acceptsPulse : Bank → Bool
  | .set | .clr | .eds => true
  | .fsel | .lev | .ren | .fen => false

/-- A command whose bank is one its row of 41_codec.md R152 accepts. -/
def Instr.wellFormed : Instr → Bool
  | .setbit b _ => b.acceptsBitWrite
  | .clrbit b _ => b.acceptsBitWrite
  | .rdbit b _ => b.acceptsBitRead
  | .pulse b _ => b.acceptsPulse
  | .rd32 _ => true
  | .wr32 _ _ => true
  | .winclose => true
  | .locate _ _ => true
  | .setfn _ _ => true
  | .getfn _ => true
  | .openPin _ _ => true
  | .setPin _ => true
  | .clrPin _ => true
  | .readPin _ => true
  | .closePin _ => true
  | .beginWatch _ _ _ => true
  | .endWatch _ => true

end Sys2Proof
end

