-- ==== Sys2Proof/Decode.lean ====
section
/-! DEFINITION. The command decoder (30_encoding.md R93 to R105), total on every 64-bit command and rejecting by
name, and the encoder written from the same opcode map. -/

namespace Sys2Proof

/-- The mnemonics of the opcode map (30_encoding.md R96). -/
inductive Opcode where
  | rd32 | wr32 | winclose | locate | setbit | clrbit | rdbit | pulse | setfn | getfn
  | openPin | setPin | clrPin | readPin | closePin | beginWatch | endWatch
deriving DecidableEq, Repr

/-- One row of the opcode map: the command word is legal in its fixed fields when `cmd & mask = value`. -/
structure OpcodeRow where
  op : Opcode
  value : Word
  mask : Word
deriving DecidableEq, Repr

/-- The opcode map (30_encoding.md R96), its match and mask columns. -/
def opcodeMap : List OpcodeRow :=
  [ ⟨.rd32, 0x04000000, 0xFFF000FF⟩,
    ⟨.wr32, 0x08000000, 0xFFF000FF⟩,
    ⟨.winclose, 0x0C000000, 0xFFFFFFFF⟩,
    ⟨.locate, 0x20000000, 0xFC7FFF00⟩,
    ⟨.setbit, 0x24000000, 0xFC7FFF00⟩,
    ⟨.clrbit, 0x28000000, 0xFC7FFF00⟩,
    ⟨.rdbit, 0x2C000000, 0xFC7FFF00⟩,
    ⟨.pulse, 0x30000000, 0xFC7FFF00⟩,
    ⟨.setfn, 0x34000000, 0xFC7FFF00⟩,
    ⟨.getfn, 0x38000000, 0xFFFFFF00⟩,
    ⟨.openPin, 0x40000000, 0xFC7FFF00⟩,
    ⟨.setPin, 0x44000000, 0xFFFFFF00⟩,
    ⟨.clrPin, 0x48000000, 0xFFFFFF00⟩,
    ⟨.readPin, 0x4C000000, 0xFFFFFF00⟩,
    ⟨.closePin, 0x50000000, 0xFFFFFF00⟩,
    ⟨.beginWatch, 0x60000000, 0xFC7FFF00⟩,
    ⟨.endWatch, 0x64000000, 0xFFFFFF00⟩ ]

/-- Why a command is illegal (30_encoding.md R103, in the order of R105; 41_codec.md R152). -/
inductive DecodeError where
  /-- An `op` that the opcode map does not list (R103, R104). -/
  | unknownOpcode
  /-- A nonzero bit in a must-be-zero field (R103). -/
  | mustBeZero
  /-- A reserved bank, mode or edge-kind code (R97 to R99). -/
  | reservedArgument
  /-- A bank the command does not accept (41_codec.md R152). -/
  | bankNotAccepted
deriving DecidableEq, Repr

/-- `cmd[31:26]` (30_encoding.md R94). -/
def opField (w : Word) : BitVec 6 := w.extractLsb' 26 6

/-- `cmd[25:23]` (30_encoding.md R94). -/
def argField (w : Word) : BitVec 3 := w.extractLsb' 23 3

/-- `cmd[19:8]` (30_encoding.md R94). -/
def offField (w : Word) : BitVec 12 := w.extractLsb' 8 12

/-- `cmd[7:0]` (30_encoding.md R94). -/
def portField (w : Word) : Port := w.extractLsb' 0 8

/-- Bank codes (30_encoding.md R97). Code 7 is reserved. -/
def bankOfCode (a : BitVec 3) : Option Bank :=
  if a = 0 then some .fsel else if a = 1 then some .set else if a = 2 then some .clr
  else if a = 3 then some .lev else if a = 4 then some .eds else if a = 5 then some .ren
  else if a = 6 then some .fen else none

/-- Mode codes (30_encoding.md R98). Codes 2 to 7 are reserved. -/
def modeOfCode (a : BitVec 3) : Option Mode :=
  if a = 0 then some .input else if a = 1 then some .output else none

/-- Edge-kind codes (30_encoding.md R99). Codes 0 and 4 to 7 are reserved. -/
def kindOfCode (a : BitVec 3) : Option EdgeKind :=
  if a = 1 then some .rising else if a = 2 then some .falling else if a = 3 then some .both else none

/-- A codec command's bank: a code that names a bank the command accepts. -/
def decodeBank (accepts : Bank → Bool) (a : BitVec 3) (mk : Bank → Instr) : Except DecodeError Instr :=
  match bankOfCode a with
  | none => .error .reservedArgument
  | some b => if accepts b then .ok (mk b) else .error .bankNotAccepted

/-- The third step of 30_encoding.md R105: the argument codes, and the operands of R95. -/
def decodeOperands (op : Opcode) (c : Command) : Except DecodeError Instr :=
  let a := argField c.word
  let p := portField c.word
  match op with
  | .rd32 => .ok (.rd32 (offField c.word))
  | .wr32 => .ok (.wr32 (offField c.word) c.data)
  | .winclose => .ok .winclose
  | .locate => decodeBank (fun _ => true) a (.locate · p)
  | .setbit => decodeBank Bank.acceptsBitWrite a (.setbit · p)
  | .clrbit => decodeBank Bank.acceptsBitWrite a (.clrbit · p)
  | .rdbit => decodeBank Bank.acceptsBitRead a (.rdbit · p)
  | .pulse => decodeBank Bank.acceptsPulse a (.pulse · p)
  | .setfn => .ok (.setfn a p)
  | .getfn => .ok (.getfn p)
  | .openPin =>
    match modeOfCode a with
    | none => .error .reservedArgument
    | some m => .ok (.openPin m p)
  | .setPin => .ok (.setPin p)
  | .clrPin => .ok (.clrPin p)
  | .readPin => .ok (.readPin p)
  | .closePin => .ok (.closePin p)
  | .beginWatch =>
    match kindOfCode a with
    | none => .error .reservedArgument
    | some k => .ok (.beginWatch k p c.data)
  | .endWatch => .ok (.endWatch p)

/-- The row of the opcode map whose opcode a command word carries: step 1 of 30_encoding.md R105. -/
def rowOf (w : Word) : Option OpcodeRow := opcodeMap.find? fun r => opField r.value == opField w

/-- The decoder, in the order of 30_encoding.md R105: the opcode, the must-be-zero fields, the argument code. -/
def decode (c : Command) : Except DecodeError Instr :=
  match rowOf c.word with
  | none => .error .unknownOpcode
  | some r => if c.word &&& r.mask = r.value then decodeOperands r.op c else .error .mustBeZero

/-- The instruction of a decoded command, none for an illegal one. -/
def decode? (c : Command) : Option Instr :=
  match decode c with
  | .ok i => some i
  | .error _ => none

/-- The command word of the fields of 30_encoding.md R94, `rsv` zero. -/
def commandWord (op : BitVec 6) (a : BitVec 3) (off : BitVec 12) (port : Port) : Word :=
  (op ++ a ++ (0 : BitVec 3) ++ off ++ port : BitVec (6 + 3 + 3 + 12 + 8))

/-- The code of a bank (30_encoding.md R97). -/
def Bank.code : Bank → BitVec 3
  | .fsel => 0 | .set => 1 | .clr => 2 | .lev => 3 | .eds => 4 | .ren => 5 | .fen => 6

/-- The code of a mode (30_encoding.md R98). -/
def Mode.argCode : Mode → BitVec 3
  | .input => 0 | .output => 1

/-- The code of an edge kind (30_encoding.md R99). -/
def EdgeKind.argCode : EdgeKind → BitVec 3
  | .rising => 1 | .falling => 2 | .both => 3

/-- The command word of a command (30_encoding.md R94, R96). It is also what a `Resp` event records
(10_state.md R41, 60_exceptions.md R251). -/
def encodeWord : Instr → Word
  | .rd32 off => commandWord 0x01 0 off 0
  | .wr32 off _ => commandWord 0x02 0 off 0
  | .winclose => commandWord 0x03 0 0 0
  | .locate b p => commandWord 0x08 b.code 0 p
  | .setbit b p => commandWord 0x09 b.code 0 p
  | .clrbit b p => commandWord 0x0A b.code 0 p
  | .rdbit b p => commandWord 0x0B b.code 0 p
  | .pulse b p => commandWord 0x0C b.code 0 p
  | .setfn fn p => commandWord 0x0D fn 0 p
  | .getfn p => commandWord 0x0E 0 0 p
  | .openPin m p => commandWord 0x10 m.argCode 0 p
  | .setPin p => commandWord 0x11 0 0 p
  | .clrPin p => commandWord 0x12 0 0 p
  | .readPin p => commandWord 0x13 0 0 p
  | .closePin p => commandWord 0x14 0 0 p
  | .beginWatch k p _ => commandWord 0x18 k.argCode 0 p
  | .endWatch p => commandWord 0x19 0 0 p

/-- The data word of a command: the operand of WR32 and BEGINWATCH, 0 for every other, which ignores it
(30_encoding.md R93, R94). -/
def encodeData : Instr → Word
  | .wr32 _ data => data
  | .beginWatch _ _ cb => cb
  | .rd32 _ | .winclose | .locate _ _ | .setbit _ _ | .clrbit _ _ | .rdbit _ _ | .pulse _ _ | .setfn _ _
  | .getfn _ | .openPin _ _ | .setPin _ | .clrPin _ | .readPin _ | .closePin _ | .endWatch _ => 0

/-- The 64-bit command of a command. -/
def encode (i : Instr) : Command := ⟨encodeWord i, encodeData i⟩

/-- The command whose bits are `w` (bit 0 of the command word first, the data word above it), cut to `nbits`. -/
def tableCommand (nbits w : Nat) : Command :=
  let v := w % 2 ^ nbits
  ⟨BitVec.ofNat 32 v, BitVec.ofNat 32 (v / 2 ^ 32)⟩

/-- What the decoder reads from an opcode-table word (the host's numbering: bit 0 is bit 0 of the command word). -/
def decodeTableWord (nbits w : Nat) : Option Instr := decode? (tableCommand nbits w)

end Sys2Proof
end

