-- ==== Sys2Proof/Machine/Table.lean ====
section
/-! DEFINITION. Sparse tables: lists of (key, entry) pairs in ONE canonical form, keys strictly rising. They hold the
block's stored words (by word index), its per-port tables and its callback callers (by port). -/

namespace Sys2Proof.Machine

/-- A table: a list of (key, entry) pairs. A key that is not listed has no entry. -/
abbrev Table (α : Type) := List (Nat × α)

variable {α : Type}

/-- The entry of key `k`. -/
def Table.lookup : Table α → Nat → Option α
  | [], _ => none
  | (k', v) :: t, k => if k' = k then some v else Table.lookup t k

/-- The table without key `k`. -/
def Table.erase : Table α → Nat → Table α
  | [], _ => []
  | (k', v) :: t, k => if k' = k then Table.erase t k else (k', v) :: Table.erase t k

/-- The table with `v` at `k` in its place by key. -/
def Table.insert : Table α → Nat → α → Table α
  | [], k, v => [(k, v)]
  | (k', v') :: t, k, v => if k < k' then (k, v) :: (k', v') :: t else (k', v') :: Table.insert t k v

/-- The table with the entry of `k` replaced by `o`: written, or removed by `none`. -/
def Table.put (t : Table α) (k : Nat) (o : Option α) : Table α :=
  match o with
  | none => Table.erase t k
  | some v => Table.insert (Table.erase t k) k v

/-- The table with the entry of `k`, where there is one, changed by `f`. -/
def Table.modify (t : Table α) (k : Nat) (f : α → α) : Table α := t.put k ((t.lookup k).map f)

/-- Every key of the table is above `k`. -/
def Table.above (k : Nat) : Table α → Bool
  | [] => true
  | (k', _) :: t => decide (k < k') && Table.above k t

/-- The canonical form: keys strictly rising. -/
def Table.rising : Table α → Bool
  | [] => true
  | (k, _) :: t => Table.above k t && Table.rising t

/-- Every key of the table is below `n`. -/
def Table.below (n : Nat) : Table α → Bool
  | [] => true
  | (k, _) :: t => decide (k < n) && Table.below n t

/-- Word `i` of a bank's storage. An unlisted word is 0. -/
def Table.word (t : Table Word) (i : Nat) : Word := (t.lookup i).getD 0

/-- The storage with word `i` replaced. Writing 0 removes the entry, so that equal storage is equal data. -/
def Table.putWord (t : Table Word) (i : Nat) (w : Word) : Table Word :=
  t.put i (if w = 0 then none else some w)

/-- No entry is the word an unlisted index reads as. -/
def Table.noZero : Table Word → Bool
  | [] => true
  | (_, w) :: t => decide (w ≠ 0) && Table.noZero t

/-- The canonical form of a bank's storage of `n` words. -/
def Table.wordsWf (n : Nat) (t : Table Word) : Bool := t.rising && t.below n && t.noZero

/-- A set of ports, as the table of its members. -/
abbrev PortSet := Table Unit

/-- Membership. -/
def Table.has (t : PortSet) (p : Nat) : Bool := (t.lookup p).isSome

/-- The set with the membership of `p` set to `b`. -/
def Table.mark (t : PortSet) (p : Nat) (b : Bool) : PortSet := t.put p (if b then some () else none)

end Sys2Proof.Machine
end

