-- ==== Sys2Proof/Machine/State.lean ====
section
/-! DEFINITION. The state of the block as plain data (10_state.md), why a step can stop, and the state after reset
(10_state.md R43, 70_reset_and_hazards.md R280). -/

namespace Sys2Proof.Machine

/-- The window (10_state.md R36). -/
inductive WindowState where
  | unmapped
  | mapped
  | failed (e : WindowError)
deriving DecidableEq, Repr

/-- The status of a response (30_encoding.md R101). Its 3-bit code is `Status.code`. -/
inductive Status where
  | ok | permissionDenied | unsupportedPlatform | alreadyOpen | alreadyWatching | invalidOperation | outOfRange
deriving DecidableEq, Repr

/-- The phase of a watch (10_state.md R38). -/
inductive Phase where
  | starting
  | poll
  | inCallback (n : Nat)
  | clearing
  | stopped
deriving DecidableEq, Repr

/-- An entry of the watch table (10_state.md R38). -/
structure WatchState where
  kind : EdgeKind
  cb : Word
  phase : Phase
  stop : Bool
  seq : Nat
deriving DecidableEq, Repr

/-- The micro-steps after a command's first one, named as the rules name them: OPEN's O2 (42_pin_handle.md R182),
CLOSE's K5 and K6 (R186), BEGINWATCH's B2 to B5 (43_edge_watch.md R221), StopWatch and RemoveWatch (R224), and D1 to D3
of DisableDetect (R225). -/
inductive MicroStep where
  | o2
  | b2 | b3 | b4 | b5
  | stop
  | d1 | d2 | d3
  | remove
  | k5 | k6
deriving DecidableEq, Repr

/-- `locals` (10_state.md R40): `hadWatch` of CLOSE (42_pin_handle.md R186), `err` of CLOSE and ENDWATCH. -/
structure Locals where
  hadWatch : Bool
  err : Status
deriving DecidableEq, Repr

/-- `cur[c]` (10_state.md R40): Idle, or carrying out `cmd` with its next micro-step `k`. -/
inductive CallerState where
  | idle
  | busy (cmd : Instr) (k : MicroStep) (loc : Locals)
deriving DecidableEq, Repr

/-- The events of the log (10_state.md R41). `cmd` is the 32-bit command word (log 16). -/
inductive Event where
  | callback (p : Nat) (cb : Word) (n : Nat)
  | watchFailed (p : Nat)
  | resp (c : CallerId) (cmd : Word) (status : Status) (value : Word)
deriving DecidableEq, Repr

/-- The stored words of the banks and the output latch: the `RegisterState` of 10_state.md R43. SET, CLR and LEV have
no storage (R26 to R28). -/
structure RegisterState where
  fsel : Table Word
  lat : Table Word
  eds : Table Word
  ren : Table Word
  fen : Table Word
deriving DecidableEq, Repr

/-- The whole state of the block, and below it the model's own fields. -/
structure State where
  /-- The Register Map (00_scope.md R9). No step changes it. -/
  params : Params
  /-- The banks and the output latch (10_state.md R24, R29 to R32). -/
  regs : RegisterState
  /-- `EXT` (10_state.md R34): the ports whose outside level is 1. -/
  ext : PortSet
  /-- `win` (10_state.md R36). -/
  win : WindowState
  /-- `handle` (10_state.md R37). -/
  handle : Table Mode
  /-- `busy` (10_state.md R37): the ports whose OPEN or CLOSE is in progress. -/
  busy : PortSet
  /-- `watch` (10_state.md R38). -/
  watch : Table WatchState
  /-- `cur[Main]` (10_state.md R40). -/
  main : CallerState
  /-- `cur[CB(p)]` for every `CB(p)` that exists (10_state.md R40, 43_edge_watch.md R233). -/
  callbacks : Table CallerState
  /-- `log`, oldest first (10_state.md R41). -/
  log : List Event
  /-- The model's own: the outside's coming choices, next first (log 5). -/
  inputs : List Input
  /-- The model's own: the host's coming answers to the mapping request, next first (log 8). -/
  mapAnswers : List MapAnswer
  /-- The model's own: the caller whose micro-step `exec` carries out (log 10). -/
  active : CallerId
  /-- The model's own: the counter the free values are applied to (log 7). -/
  draws : Nat
deriving DecidableEq, Repr

/-- The faults of the model. The block has none (60_exceptions.md R250, R261). -/
inductive Fault where
  /-- Raised by a meaning whose caller is at a micro-step its command does not have: a state that no run reaches
  (log 10). Safe: the model says nothing there. -/
  | badMicroStep
deriving DecidableEq, Repr

/-- Why an instruction gets no meaning. -/
inductive Refusal where
  /-- Raised by an arm of `exec` that has no meaning yet. Safe. No arm is left so. -/
  | notModelled (mnemonic : String)
  /-- Raised by a write to an Unbanked offset (20_memory.md R62, 60_exceptions.md R258): WR32, and under an illegal
  parameter set any register write. Safe: the spec gives the write no meaning. -/
  | unbankedWrite
  /-- Raised by `step` when the parameter set breaks 00_scope.md R8 (60_exceptions.md R258). Safe: such a set has no
  runs. -/
  | illegalParameters
  /-- Raised by a meaning when the acting caller does not exist or is carrying out another command: it may not issue
  this one (10_state.md R40). `step` never asks for it (log 10). Safe. -/
  | callerNotReady
deriving DecidableEq, Repr

/-- The reset state for a parameter set, any register contents and any outside levels (10_state.md R43,
70_reset_and_hazards.md R280, R281). -/
def State.resetWith (P : Params) (init : RegisterState) (initExt : PortSet) : State where
  params := P
  regs := init
  ext := initExt
  win := .unmapped
  handle := []
  busy := []
  watch := []
  main := .idle
  callbacks := []
  log := []
  inputs := []
  mapAnswers := []
  active := .main
  draws := 0

/-- Register contents with every word 0. -/
def RegisterState.zero : RegisterState where
  fsel := []
  lat := []
  eds := []
  ren := []
  fen := []

/-- The machine right after reset. DESIGN CHOICE: every register word 0 and every outside level 0, where the spec
gives none (log 3, 4); PRESUMED: the RPi4 default parameters (log 1). -/
def State.reset : State := State.resetWith Params.rpi4 RegisterState.zero []

end Sys2Proof.Machine
end

