-- ==== Sys2Proof/Machine/Operands.lean ====
section
/-! DEFINITION. Operands: the register encoding of 30_encoding.md R90 to R92, the decoding of window offsets
(20_memory.md R61), the masks of valid bits (10_state.md R35), and the values a response carries. -/

namespace Sys2Proof.Machine

/-- The word whose bits below `n` are given by `f`. -/
def wordOfBits (f : Nat → Bool) : Nat → Word
  | 0 => 0
  | n + 1 => if f n then wordOfBits f n ||| oneHot n else wordOfBits f n

/-- The word whose bit `j` is `f j`. -/
def wordOf (f : Nat → Bool) : Word := wordOfBits f 32

/-- `zext_32(bit)`. -/
def bitValue (b : Bool) : Word := (BitVec.ofBool b).setWidth 32

/-! ### Ports -/

/-- The word a port's bit or field stands in: `port / 10` for FSEL, `port / 32` otherwise (30_encoding.md R91, R92). -/
def wordIdx : Bank → Nat → Nat
  | .fsel, p => p / 10
  | .set, p | .clr, p | .lev, p | .eds, p | .ren, p | .fen, p => p / 32

/-- `fselShift(p)` (30_encoding.md R92). -/
def fselShift (p : Nat) : Nat := 3 * (p % 10)

/-- `fselMask(p)` (30_encoding.md R92). -/
def fselMask (p : Nat) : Word := (0b111 : Word) <<< fselShift p

/-- `bitIdx(b, p)` (30_encoding.md R91, R92). -/
def bitIdx : Bank → Nat → Nat
  | .fsel, p => fselShift p
  | .set, p | .clr, p | .lev, p | .eds, p | .ren, p | .fen, p => p % 32

/-- `wordOff(b, p)` (30_encoding.md R91, R92). -/
def wordOff (P : Params) (b : Bank) (p : Nat) : Nat := P.base b + 4 * wordIdx b p

/-- The one-hot word of a port in a single-bit bank: `1 << (port % 32)`. -/
def portBit (p : Nat) : Word := oneHot (p % 32)

/-- An FSEL word with the field of port `p` replaced by `code` and every other bit kept (41_codec.md R157). -/
def insertField (p : Nat) (code : BitVec 3) (w : Word) : Word :=
  (w &&& ~~~(fselMask p)) ||| (code.setWidth 32 <<< fselShift p)

/-- The field of port `p` in an FSEL word (10_state.md R24). -/
def extractField (p : Nat) (w : Word) : BitVec 3 := w.extractLsb' (fselShift p) 3

/-- `code(m)` (10_state.md R25). -/
def functionCode (P : Params) : Mode → BitVec 3
  | .input => P.fselInput
  | .output => P.fselOutput

/-- The kind selects rising detection: bit 0 of its code (30_encoding.md R99). -/
def watchesRising (k : EdgeKind) : Bool := k.argCode.getLsbD 0

/-- The kind selects falling detection: bit 1 of its code (30_encoding.md R99). -/
def watchesFalling (k : EdgeKind) : Bool := k.argCode.getLsbD 1

/-! ### Valid bits -/

/-- `VALID[i]` (10_state.md R35). -/
def validMask (P : Params) (i : Nat) : Word := wordOf fun j => decide (32 * i + j < P.nports)

/-- `VALIDF[i]` (10_state.md R35). -/
def validFieldMask (P : Params) (i : Nat) : Word :=
  wordOf fun j => decide (j < 30) && decide (10 * i + j / 3 < P.nports)

/-- The valid-bit mask of a bank's word `i`. -/
def bankMask (P : Params) : Bank → Nat → Word
  | .fsel, i => validFieldMask P i
  | .set, i | .clr, i | .lev, i | .eds, i | .ren, i | .fen, i => validMask P i

/-- A word read with its reserved bits drawn: `(w & mask) | (draw & ~mask)` (40_window.md R131). -/
def fillReserved (mask w draw : Word) : Word := (w &&& mask) ||| (draw &&& ~~~mask)

/-- A stored word written through its mask: `(old & ~mask) | (v & mask)` (40_window.md R132). -/
def mergeValid (mask old v : Word) : Word := (old &&& ~~~mask) ||| (v &&& mask)

/-! ### Window offsets -/

/-- The index of the word of bank `b` at offset `off`, where there is one. -/
def bankWordAt (P : Params) (off : Nat) (b : Bank) : Option (Bank × Nat) :=
  if P.base b ≤ off ∧ (off - P.base b) % 4 = 0 ∧ (off - P.base b) / 4 < P.words b
  then some (b, (off - P.base b) / 4) else none

/-- `decode(off)` (20_memory.md R61): the bank word at an offset, none for Unbanked. -/
def decodeOffset (P : Params) (off : Nat) : Option (Bank × Nat) := Bank.all.findSome? (bankWordAt P off)

/-- An offset that RD32 and WR32 may access: aligned and inside the window (20_memory.md R64, R65). -/
def offsetOk (P : Params) (off : Nat) : Bool := decide (off % 4 = 0) && decide (off + 4 ≤ P.windowSize)

/-! ### Responses -/

/-- The 3-bit code of a status (30_encoding.md R101, 60_exceptions.md R251). -/
def Status.code : Status → BitVec 3
  | .ok => 0
  | .permissionDenied => 1
  | .unsupportedPlatform => 2
  | .alreadyOpen => 3
  | .alreadyWatching => 4
  | .invalidOperation => 5
  | .outOfRange => 6

/-- The status a code stands for (30_encoding.md R101); code 7 is not used. -/
def Status.ofCode (c : BitVec 3) : Option Status :=
  [Status.ok, .permissionDenied, .unsupportedPlatform, .alreadyOpen, .alreadyWatching, .invalidOperation,
    .outOfRange][c.toNat]?

/-- The value of a LOCATE response: `{zext_11(bitIndex), 0b0000, zext_12(wordOffset)}` (30_encoding.md R102). -/
def locateValue (off bi : Nat) : Word :=
  (BitVec.ofNat 11 bi ++ (0 : BitVec 4) ++ BitVec.ofNat 12 off : BitVec (11 + 4 + 12)).setWidth 32

end Sys2Proof.Machine
end

