-- ==== Sys2Proof/Machine/Flags.lean ====
section
/-! DEFINITION. The block has no condition codes (10_state.md R42). Its only status bits are the EventStatus bits, set
by the edge latch (43_edge_watch.md R211) from the pad levels (10_state.md R33). -/

namespace Sys2Proof.Machine

/-- The function field of port `p` (10_state.md R24). -/
def field (s : State) (p : Nat) : BitVec 3 := extractField p (s.regs.fsel.word (p / 10))

/-- The output latch bit of port `p` (10_state.md R32). -/
def latBit (s : State) (p : Nat) : Bool := (s.regs.lat.word (p / 32)).getLsbD (p % 32)

/-- The EventStatus bit of port `p` (10_state.md R29). -/
def edsBit (s : State) (p : Nat) : Bool := (s.regs.eds.word (p / 32)).getLsbD (p % 32)

/-- The rising-edge enable of port `p` (10_state.md R30). -/
def renBit (s : State) (p : Nat) : Bool := (s.regs.ren.word (p / 32)).getLsbD (p % 32)

/-- The falling-edge enable of port `p` (10_state.md R31). -/
def fenBit (s : State) (p : Nat) : Bool := (s.regs.fen.word (p / 32)).getLsbD (p % 32)

/-- `pad(p)` (10_state.md R33): an output's level is its latch bit, any other port's is `EXT[p]`. -/
def pad (s : State) (p : Nat) : Bool :=
  if field s p = s.params.fselOutput then latBit s p else s.ext.has p

/-- An enabled edge of port `p` between `s0` and `s`, the enables read in `s0` (43_edge_watch.md R211, R212). -/
def enabledEdge (s0 s : State) (p : Nat) : Bool :=
  (!pad s0 p && pad s p && renBit s0 p) || (pad s0 p && !pad s p && fenBit s0 p)

/-- The EDS bits that the edge latch sets in word `i`. -/
def edgeWord (s0 s : State) (i : Nat) : Word :=
  wordOf fun j => decide (32 * i + j < s.params.nports) && enabledEdge s0 s (32 * i + j)

/-- The EDS storage with the edges of its first `n` words latched. -/
def latchWords (s0 s : State) : Nat → Table Word
  | 0 => s.regs.eds
  | n + 1 => (latchWords s0 s n).putWord n ((latchWords s0 s n).word n ||| edgeWord s0 s n)

/-- `EdgeLatch(s0)` (43_edge_watch.md R211), run at the end of every micro-step that can change a pad level. -/
def edgeLatch (s0 s : State) : State :=
  { s with regs := { s.regs with eds := latchWords s0 s s.params.nw } }

end Sys2Proof.Machine
end

