-- ==== Sys2Proof/Machine/Ops.lean ====
section
/-! DEFINITION. The named operations over the state: one update per field, MemRead and MemWrite (40_window.md R131,
R132), the checks of 60_exceptions.md R259, the response that stands in place of an exception (60_exceptions.md R250),
the callback dispatch and return that stand in place of trap entry and return (R262, R263), and the micro-steps that
commands share (43_edge_watch.md R224, R225). -/

namespace Sys2Proof.Machine

/-- What `exec` and `step` answer. -/
abbrev Result := Host.Outcome State Fault Refusal

/-! ### Updates of one field -/

def State.setRegs (s : State) (r : RegisterState) : State := { s with regs := r }
def State.setExt (s : State) (e : PortSet) : State := { s with ext := e }
def State.setWin (s : State) (w : WindowState) : State := { s with win := w }
def State.setHandle (s : State) (p : Nat) (m : Option Mode) : State := { s with handle := s.handle.put p m }
def State.setBusy (s : State) (p : Nat) (b : Bool) : State := { s with busy := s.busy.mark p b }
def State.setWatch (s : State) (p : Nat) (w : Option WatchState) : State := { s with watch := s.watch.put p w }
def State.modifyWatch (s : State) (p : Nat) (f : WatchState → WatchState) : State :=
  { s with watch := s.watch.modify p f }
def State.setMain (s : State) (x : CallerState) : State := { s with main := x }
def State.setCallback (s : State) (p : Nat) (x : Option CallerState) : State :=
  { s with callbacks := s.callbacks.put p x }
/-- `emit ev` (00_scope.md R12). -/
def State.emit (s : State) (ev : Event) : State := { s with log := s.log ++ [ev] }
def State.setInputs (s : State) (l : List Input) : State := { s with inputs := l }
def State.setMapAnswers (s : State) (l : List MapAnswer) : State := { s with mapAnswers := l }
def State.setActive (s : State) (c : CallerId) : State := { s with active := c }
/-- The counter moves on, so that the next draw is a fresh one. -/
def State.nextDraw (s : State) : State := { s with draws := s.draws + 1 }

/-! ### Callers (10_state.md R40) -/

/-- `cur[c]`, none where the caller does not exist. -/
def State.caller (s : State) : CallerId → Option CallerState
  | .main => some s.main
  | .cb p => s.callbacks.lookup p

/-- `cur[c] <- x`. -/
def State.setCaller (s : State) (c : CallerId) (x : CallerState) : State :=
  match c with
  | .main => s.setMain x
  | .cb p => s.setCallback p (some x)

/-- The acting caller's next micro-step of `i` is `k`. -/
def State.goto (s : State) (i : Instr) (k : MicroStep) (loc : Locals) : State :=
  s.setCaller s.active (.busy i k loc)

/-- The locals of a command that has none. -/
def Locals.none : Locals := ⟨false, .ok⟩

/-- Where the acting caller stands in command `i`. -/
inductive Position where
  /-- Idle: the command's first micro-step. -/
  | start
  /-- Carrying out this command, at micro-step `k`. -/
  | running (k : MicroStep) (loc : Locals)
  /-- No such caller, or one that is carrying out another command: it may not issue `i` (10_state.md R40). -/
  | unable
deriving DecidableEq, Repr

/-- Where the acting caller stands in command `i` (10_state.md R40). -/
def State.position (s : State) (i : Instr) : Position :=
  match s.caller s.active with
  | some .idle => .start
  | some (.busy j k loc) => if j = i then .running k loc else .unable
  | none => .unable

/-! ### Responses (30_encoding.md R101, 60_exceptions.md R250) -/

/-- The response that ends a command: the event is logged and the caller becomes Idle. An error response carries
value 0. -/
def State.respond (s : State) (cmd : Word) (status : Status) (value : Word) : State :=
  (s.emit (.resp s.active cmd status value)).setCaller s.active .idle

/-- `return (OK, v)` of command `i` (00_scope.md R12). -/
def finish (i : Instr) (v : Word) (s : State) : State := s.respond (encodeWord i) .ok v

/-- `raise e` in command `i` (00_scope.md R12, 60_exceptions.md R250): the whole of what an error does. -/
def raise (i : Instr) (e : Status) (s : State) : State := s.respond (encodeWord i) e 0

/-- An illegal command (30_encoding.md R103): one micro-step, InvalidOperation, no other change. -/
def illegalCommand (cmd : Command) (s : State) : State := s.respond cmd.word .invalidOperation 0

/-! ### Checks, in the order of 60_exceptions.md R259 -/

/-- The status of a window failure (10_state.md R36). -/
def windowStatus : WindowError → Status
  | .permissionDenied => .permissionDenied
  | .unsupportedPlatform => .unsupportedPlatform

/-- `errOf(win)` (42_pin_handle.md R182), and the window gate without its mapping (40_window.md R133): none when the
window is mapped. -/
def windowError : WindowState → Option Status
  | .mapped => none
  | .failed e => some (windowStatus e)
  | .unmapped => some .invalidOperation

/-- The first error of a list of checks. -/
def firstError : List (Option Status) → Option Status
  | [] => none
  | none :: l => firstError l
  | some e :: _ => some e

/-- `unless ok: raise e`. -/
def check (ok : Bool) (e : Status) : Option Status := if ok then none else some e

/-- 60_exceptions.md R259 step 3: `port >= NPORTS` raises OutOfRange. -/
def rangeCheck (s : State) (p : Port) : Option Status := check (decide (p.toNat < s.params.nports)) .outOfRange

/-- The port has a handle and no OPEN or CLOSE of it is in progress (10_state.md R37). -/
def isOpen (s : State) (p : Nat) : Bool := (s.handle.lookup p).isSome && !s.busy.has p

/-- 60_exceptions.md R259 step 4 for SET, CLR, READ, CLOSE, BEGINWATCH and ENDWATCH. -/
def openCheck (s : State) (p : Port) : Option Status := check (isOpen s p.toNat) .invalidOperation

/-- 60_exceptions.md R259 step 5: the handle is in the mode the command wants. -/
def modeCheck (s : State) (p : Port) (m : Mode) : Option Status :=
  check (decide (s.handle.lookup p.toNat = some m)) .invalidOperation

/-- The window check of CLOSE and ENDWATCH, which go on with a failed window (60_exceptions.md R259). -/
def unmappedCheck (s : State) : Option Status := check (decide (s.win ≠ .unmapped)) .invalidOperation

/-! ### MemRead and MemWrite -/

/-- The word MemRead finds at `off` (40_window.md R131), with `d` the draw. -/
def readWord (s : State) (off : Nat) (d : Word) : Word :=
  match decodeOffset s.params off with
  | some (.fsel, i) => fillReserved (validFieldMask s.params i) (s.regs.fsel.word i) d
  | some (.set, _) => d
  | some (.clr, _) => d
  | some (.lev, i) =>
    (wordOf fun j => decide (32 * i + j < s.params.nports) && pad s (32 * i + j)) ||| (d &&& ~~~(validMask s.params i))
  | some (.eds, i) => fillReserved (validMask s.params i) (s.regs.eds.word i) d
  | some (.ren, i) => fillReserved (validMask s.params i) (s.regs.ren.word i) d
  | some (.fen, i) => fillReserved (validMask s.params i) (s.regs.fen.word i) d
  | none => d

/-- `MemRead(off, 4)`: the word, with every drawn bit a free value (log 7). -/
def memRead (s : State) (off : Nat) : Word := readWord s off (Config.freeWord s.draws)

/-- The bank effect of a write of `v` to word `i` of bank `b`, before the edge latch (40_window.md R132). -/
def storeWord (s : State) (b : Bank) (i : Nat) (v : Word) : State :=
  let r := s.regs
  match b with
  | .fsel => s.setRegs { r with fsel := r.fsel.putWord i (mergeValid (validFieldMask s.params i) (r.fsel.word i) v) }
  | .set => s.setRegs { r with lat := r.lat.putWord i (r.lat.word i ||| (v &&& validMask s.params i)) }
  | .clr => s.setRegs { r with lat := r.lat.putWord i (r.lat.word i &&& ~~~(v &&& validMask s.params i)) }
  | .lev => s
  | .eds => s.setRegs { r with eds := r.eds.putWord i (r.eds.word i &&& ~~~(v &&& validMask s.params i)) }
  | .ren => s.setRegs { r with ren := r.ren.putWord i (mergeValid (validMask s.params i) (r.ren.word i) v) }
  | .fen => s.setRegs { r with fen := r.fen.putWord i (mergeValid (validMask s.params i) (r.fen.word i) v) }

/-- A write to a bank word, edge latch included. -/
def writeWord (s : State) (b : Bank) (i : Nat) (v : Word) : State := edgeLatch s (storeWord s b i v)

/-- `MemWrite(off, 4, v)` (40_window.md R132). None stands for the refusal of an Unbanked write (20_memory.md R62). -/
def memWrite (s : State) (off : Nat) (v : Word) : Option State :=
  match decodeOffset s.params off with
  | some (b, i) => some (writeWord s b i v)
  | none => none

/-- `atomic { w <- MemRead(off, 4); MemWrite(off, 4, f(w)) }` (20_memory.md R71). -/
def readModifyWrite (s : State) (off : Nat) (f : Word → Word) : Option State :=
  memWrite s.nextDraw off (f (memRead s off))

/-- The outcome of a micro-step that writes a register: it goes on with `k`, or the write is refused
(60_exceptions.md R258). -/
def afterWrite (o : Option State) (k : State → State) : Result :=
  match o with
  | some s => .next (k s)
  | none => .refused .unbankedWrite

/-- The read-modify-write that sets a port's bit in an enable bank (41_codec.md R153, 43_edge_watch.md R221 B3, B4). -/
def setPortBit (b : Bank) (p : Nat) (s : State) : Option State :=
  readModifyWrite s (wordOff s.params b p) fun w => w ||| portBit p

/-- The read-modify-write that clears a port's bit in an enable bank (41_codec.md R154, 43_edge_watch.md R225). -/
def clearPortBit (b : Bank) (p : Nat) (s : State) : Option State :=
  readModifyWrite s (wordOff s.params b p) fun w => w &&& ~~~(portBit p)

/-- The one-hot write of a port's bit to a write-1 bank, with no read (41_codec.md R156, R160). -/
def pulsePortBit (b : Bank) (p : Nat) (s : State) : Option State :=
  memWrite s (wordOff s.params b p) (portBit p)

/-- The read-modify-write of a port's function field (41_codec.md R157, 42_pin_handle.md R182, R186). -/
def writeField (code : BitVec 3) (p : Nat) (s : State) : Option State :=
  readModifyWrite s (wordOff s.params .fsel p) (insertField p code)

/-! ### The window -/

/-- The host's answer to the mapping request (40_window.md R134): the next one given, else a free value (log 8). -/
def State.mapAnswer (s : State) : MapAnswer :=
  match s.mapAnswers with
  | r :: _ => r
  | [] => Config.freeMapAnswer s.draws

/-- The state once the host's answer has been taken. -/
def State.takeMapAnswer (s : State) : State := (s.setMapAnswers s.mapAnswers.tail).nextDraw

/-- `MapStep()` (40_window.md R134): the mapping, run only from Unmapped. -/
def mapStep (s : State) : State :=
  match s.mapAnswer with
  | .ok => s.takeMapAnswer.setWin .mapped
  | .failed e => s.takeMapAnswer.setWin (.failed e)

/-- `Gate(true)` of OPEN: an unmapped window is mapped first (40_window.md R133). -/
def mapIfUnmapped (s : State) : State := if s.win = .unmapped then mapStep s else s

/-- What O1 of OPEN leaves when one of its checks raises: the state as it was, but for a mapping that failed
(60_exceptions.md R252, R256). A mapping that was made is undone (log 11). -/
def undoMapping (s : State) : State :=
  if (mapIfUnmapped s).win = .mapped then (mapIfUnmapped s).setWin s.win else mapIfUnmapped s

/-- The unexpected unmap, `@unmap`, enabled when the window is mapped (40_window.md R136). -/
def unmapStep (s : State) : State := if s.win = .mapped then s.setWin (.failed .unsupportedPlatform) else s

/-! ### One-step commands -/

/-- A command of one micro-step: its meaning from Idle. -/
def oneStep (i : Instr) (s : State) (body : State → Result) : Result :=
  match s.position i with
  | .start => body s
  | .running _ _ => .fault .badMicroStep
  | .unable => .refused .callerNotReady

/-- A command's checks, then its effect (60_exceptions.md R256: every check comes before the access). -/
def checked (i : Instr) (e : Option Status) (s : State) (k : State → Result) : Result :=
  match e with
  | some e => .next (raise i e s)
  | none => k s

/-! ### Micro-steps that commands share -/

/-- The guard of StopWatch: no watch, or a stopped one (43_edge_watch.md R224). -/
def watchStopped (s : State) (p : Nat) : Bool :=
  match s.watch.lookup p with
  | none => true
  | some w => decide (w.phase = .stopped)

/-- `StopWatch(p)` (43_edge_watch.md R224): the command goes on when the guard holds, and is held until then. -/
def stopWatch (p : Nat) (s : State) (k : State → State) : Result :=
  .next (if watchStopped s p then k s else s)

/-- `RemoveWatch(p)` (43_edge_watch.md R224). -/
def removeWatch (p : Nat) (s : State) : State :=
  match s.watch.lookup p with
  | some w => if w.phase = .stopped then s.setWatch p none else s
  | none => s

/-- The cooperative stop signal: `watch[p].stop <- true` (42_pin_handle.md R186, 43_edge_watch.md R223). -/
def signalStop (p : Nat) (s : State) : State := s.modifyWatch p fun w => { w with stop := true }

/-- A register access of CLOSE or ENDWATCH (43_edge_watch.md R225): made when the window is mapped; else the first
error is kept and the command goes on. `k` takes the error so far. -/
def tryAccess (access : State → Option State) (err : Status) (s : State) (k : Status → State → State) : Result :=
  match windowError s.win with
  | none => afterWrite (access s) (k err)
  | some e => .next (k (if err = .ok then e else err) s)

/-- D1 of `DisableDetect(p, err)` (43_edge_watch.md R225): REN. -/
def disableRising (i : Instr) (p : Nat) (loc : Locals) (s : State) : Result :=
  tryAccess (clearPortBit .ren p) loc.err s fun err s => s.goto i .d2 { loc with err := err }

/-- D2 of `DisableDetect(p, err)` (43_edge_watch.md R225): FEN. -/
def disableFalling (i : Instr) (p : Nat) (loc : Locals) (s : State) : Result :=
  tryAccess (clearPortBit .fen p) loc.err s fun err s => s.goto i .d3 { loc with err := err }

/-- D3 of `DisableDetect(p, err)` (43_edge_watch.md R225): a late event is discarded. -/
def discardEvent (i : Instr) (p : Nat) (loc : Locals) (next : MicroStep) (s : State) : Result :=
  tryAccess (pulsePortBit .eds p) loc.err s fun err s => s.goto i next { loc with err := err }

/-- A register access of BEGINWATCH (43_edge_watch.md R221, B2 to B4): on a window error the watch is removed and the
error raised. -/
def watchAccess (i : Instr) (p : Nat) (access : State → Option State) (s : State) (k : State → State) : Result :=
  match windowError s.win with
  | none => afterWrite (access s) k
  | some e => .next (raise i e (s.setWatch p none))

/-! ### In place of trap entry and return -/

/-- The callback dispatch (43_edge_watch.md R228, 60_exceptions.md R262): the count and the phase are saved in the
watch, the event is logged, and the caller CB(p) is created Idle. -/
def dispatchCallback (p : Nat) (w : WatchState) (s : State) : State :=
  ((s.setWatch p (some { w with seq := w.seq + 1, phase := .inCallback (w.seq + 1) })).emit
    (.callback p w.cb (w.seq + 1))).setCallback p (some .idle)

/-- The callback return `@ret p` (43_edge_watch.md R232, 60_exceptions.md R263), enabled in phase InCallback while
CB(p) is Idle. Not enabled, it changes nothing (log 6). -/
def callbackReturn (p : Nat) (s : State) : State :=
  match s.watch.lookup p with
  | some w =>
    match w.phase with
    | .inCallback _ =>
      if s.callbacks.lookup p = some .idle
      then (s.setCallback p none).setWatch p (some { w with phase := .clearing }) else s
    | .starting | .poll | .clearing | .stopped => s
  | none => s

/-- `Fail(p)` (43_edge_watch.md R231). -/
def failWatch (p : Nat) (s : State) : State := (s.emit (.watchFailed p)).setWatch p none

end Sys2Proof.Machine
end

