-- ==== Sys2Proof/Machine/Codec.lean ====
section
/-! DEFINITION. The Register Codec commands (41_codec.md). They check neither the handle table nor the watch table
(R150). A bank the command does not accept makes it illegal before the window gate (R152). -/

namespace Sys2Proof.Machine

/-- The error of a codec command: the bank it accepts, the window gate, the port (60_exceptions.md R259). -/
def codecError (s : State) (accepted : Bool) (p : Port) : Option Status :=
  firstError [check accepted .invalidOperation, windowError s.win, rangeCheck s p]

/-- LOCATE (41_codec.md R151): pure, with no window gate. -/
def execLocate (b : Bank) (p : Port) (s : State) : Result :=
  oneStep (.locate b p) s fun s =>
    let off := wordOff s.params b p.toNat
    checked (.locate b p)
      (firstError [rangeCheck s p, check (decide (off + 4 ≤ s.params.windowSize)) .outOfRange]) s fun s =>
      .next (finish (.locate b p) (locateValue off (bitIdx b p.toNat)) s)

/-- SETBIT (41_codec.md R153). -/
def execSetbit (b : Bank) (p : Port) (s : State) : Result :=
  oneStep (.setbit b p) s fun s =>
    checked (.setbit b p) (codecError s b.acceptsBitWrite p) s fun s =>
      afterWrite (setPortBit b p.toNat s) (finish (.setbit b p) 0)

/-- CLRBIT (41_codec.md R154). -/
def execClrbit (b : Bank) (p : Port) (s : State) : Result :=
  oneStep (.clrbit b p) s fun s =>
    checked (.clrbit b p) (codecError s b.acceptsBitWrite p) s fun s =>
      afterWrite (clearPortBit b p.toNat s) (finish (.clrbit b p) 0)

/-- RDBIT (41_codec.md R155). -/
def execRdbit (b : Bank) (p : Port) (s : State) : Result :=
  oneStep (.rdbit b p) s fun s =>
    checked (.rdbit b p) (codecError s b.acceptsBitRead p) s fun s =>
      .next (finish (.rdbit b p)
        (bitValue ((memRead s (wordOff s.params b p.toNat)).getLsbD (bitIdx b p.toNat))) s.nextDraw)

/-- PULSE (41_codec.md R156). -/
def execPulse (b : Bank) (p : Port) (s : State) : Result :=
  oneStep (.pulse b p) s fun s =>
    checked (.pulse b p) (codecError s b.acceptsPulse p) s fun s =>
      afterWrite (pulsePortBit b p.toNat s) (finish (.pulse b p) 0)

/-- SETFN (41_codec.md R157): every function code is legal (30_encoding.md R100). -/
def execSetfn (fn : BitVec 3) (p : Port) (s : State) : Result :=
  oneStep (.setfn fn p) s fun s =>
    checked (.setfn fn p) (codecError s true p) s fun s =>
      afterWrite (writeField fn p.toNat s) (finish (.setfn fn p) 0)

/-- GETFN (41_codec.md R158). -/
def execGetfn (p : Port) (s : State) : Result :=
  oneStep (.getfn p) s fun s =>
    checked (.getfn p) (codecError s true p) s fun s =>
      .next (finish (.getfn p)
        ((extractField p.toNat (memRead s (wordOff s.params .fsel p.toNat))).setWidth 32) s.nextDraw)

end Sys2Proof.Machine
end

