-- ==== Sys2Proof/Machine/EdgeWatch.lean ====
section
/-! DEFINITION. The watch commands (43_edge_watch.md R220 to R225). -/

namespace Sys2Proof.Machine

/-- The error of BEGINWATCH's B1, in the order of 43_edge_watch.md R221. -/
def beginWatchError (s : State) (p : Port) : Option Status :=
  firstError [windowError s.win, rangeCheck s p, openCheck s p, modeCheck s p .input,
    check (s.watch.lookup p.toNat).isNone .alreadyWatching]

/-- B1 of BEGINWATCH (43_edge_watch.md R221): the entry is made, in phase Starting. -/
def watchCreate (k : EdgeKind) (p : Port) (cb : Word) (s : State) : State :=
  match beginWatchError s p with
  | some e => raise (.beginWatch k p cb) e s
  | none =>
    (s.setWatch p.toNat (some ⟨k, cb, .starting, false, 0⟩)).goto (.beginWatch k p cb) .b2 Locals.none

/-- The micro-step after B3, and after B2 for a kind that does not watch rising edges. -/
def afterRising (k : EdgeKind) : MicroStep := if watchesFalling k then .b4 else .b5

/-- The micro-step after B2. -/
def afterDiscard (k : EdgeKind) : MicroStep := if watchesRising k then .b3 else afterRising k

/-- B5 of BEGINWATCH (43_edge_watch.md R221, R222): the watcher starts. -/
def watchStart (k : EdgeKind) (p : Port) (cb : Word) (s : State) : State :=
  finish (.beginWatch k p cb) 0 (s.modifyWatch p.toNat fun w => { w with phase := .poll })

/-- BEGINWATCH (43_edge_watch.md R221): B1, B2 (a stale event is discarded), B3 and B4 (the enables of the kind), B5. -/
def execBeginWatch (k : EdgeKind) (p : Port) (cb : Word) (s : State) : Result :=
  match s.position (.beginWatch k p cb) with
  | .start => .next (watchCreate k p cb s)
  | .running .b2 loc =>
    watchAccess (.beginWatch k p cb) p.toNat (pulsePortBit .eds p.toNat) s fun t =>
      t.goto (.beginWatch k p cb) (afterDiscard k) loc
  | .running .b3 loc =>
    watchAccess (.beginWatch k p cb) p.toNat (setPortBit .ren p.toNat) s fun t =>
      t.goto (.beginWatch k p cb) (afterRising k) loc
  | .running .b4 loc =>
    watchAccess (.beginWatch k p cb) p.toNat (setPortBit .fen p.toNat) s fun t =>
      t.goto (.beginWatch k p cb) .b5 loc
  | .running .b5 _ => .next (watchStart k p cb s)
  | .running _ _ => .fault .badMicroStep
  | .unable => .refused .callerNotReady

/-- The error of ENDWATCH's E1 (43_edge_watch.md R223). -/
def endWatchError (s : State) (p : Port) : Option Status :=
  firstError [unmappedCheck s, rangeCheck s p, openCheck s p,
    check (s.watch.lookup p.toNat).isSome .invalidOperation]

/-- E1 of ENDWATCH (43_edge_watch.md R223): the watcher is told to stop. -/
def watchEnd (p : Port) (s : State) : State :=
  match endWatchError s p with
  | some e => raise (.endWatch p) e s
  | none => (signalStop p.toNat s).goto (.endWatch p) .stop ⟨true, .ok⟩

/-- ENDWATCH (43_edge_watch.md R223): E1, StopWatch, D1, D2, D3, and RemoveWatch, which delivers the response. -/
def execEndWatch (p : Port) (s : State) : Result :=
  match s.position (.endWatch p) with
  | .start => .next (watchEnd p s)
  | .running .stop loc => stopWatch p.toNat s fun t => t.goto (.endWatch p) .d1 loc
  | .running .d1 loc => disableRising (.endWatch p) p.toNat loc s
  | .running .d2 loc => disableFalling (.endWatch p) p.toNat loc s
  | .running .d3 loc => discardEvent (.endWatch p) p.toNat loc .remove s
  | .running .remove loc => .next ((removeWatch p.toNat s).respond (encodeWord (.endWatch p)) loc.err 0)
  | .running _ _ => .fault .badMicroStep
  | .unable => .refused .callerNotReady

end Sys2Proof.Machine
end

