-- ==== Sys2Proof/Machine/PinHandle.lean ====
section
/-! DEFINITION. The Pin Handle commands (42_pin_handle.md). -/

namespace Sys2Proof.Machine

/-- The error of SET, CLR and READ: the window gate, the port, the handle, its mode (60_exceptions.md R259). -/
def handleError (s : State) (p : Port) (m : Mode) : Option Status :=
  firstError [windowError s.win, rangeCheck s p, openCheck s p, modeCheck s p m]

/-- The error of OPEN's O1 once the window has been mapped or its mapping has failed (42_pin_handle.md R182). -/
def openError (s : State) (p : Port) : Option Status :=
  firstError [windowError s.win, rangeCheck s p, check (s.handle.lookup p.toNat).isNone .alreadyOpen]

/-- O1 of OPEN (42_pin_handle.md R182): the gate, which may map the window, and the reservation (R181). A check that
raises leaves the state as it was, but for a failed mapping (60_exceptions.md R256). -/
def openReserve (m : Mode) (p : Port) (s : State) : State :=
  match openError (mapIfUnmapped s) p with
  | some e => raise (.openPin m p) e (undoMapping s)
  | none =>
    (((mapIfUnmapped s).setHandle p.toNat (some m)).setBusy p.toNat true).goto (.openPin m p) .o2 Locals.none

/-- O2 of OPEN (42_pin_handle.md R182): the function field is programmed, or the reservation undone. -/
def openProgram (m : Mode) (p : Port) (s : State) : Result :=
  match windowError s.win with
  | none =>
    afterWrite (writeField (functionCode s.params m) p.toNat s) fun t =>
      finish (.openPin m p) 0 (t.setBusy p.toNat false)
  | some e => .next (raise (.openPin m p) e ((s.setHandle p.toNat none).setBusy p.toNat false))

/-- OPEN (42_pin_handle.md R182): two micro-steps. -/
def execOpen (m : Mode) (p : Port) (s : State) : Result :=
  match s.position (.openPin m p) with
  | .start => .next (openReserve m p s)
  | .running .o2 _ => openProgram m p s
  | .running _ _ => .fault .badMicroStep
  | .unable => .refused .callerNotReady

/-- SET (42_pin_handle.md R183). -/
def execSet (p : Port) (s : State) : Result :=
  oneStep (.setPin p) s fun s =>
    checked (.setPin p) (handleError s p .output) s fun s =>
      afterWrite (pulsePortBit .set p.toNat s) (finish (.setPin p) 0)

/-- CLR (42_pin_handle.md R184). -/
def execClr (p : Port) (s : State) : Result :=
  oneStep (.clrPin p) s fun s =>
    checked (.clrPin p) (handleError s p .output) s fun s =>
      afterWrite (pulsePortBit .clr p.toNat s) (finish (.clrPin p) 0)

/-- READ (42_pin_handle.md R185). -/
def execRead (p : Port) (s : State) : Result :=
  oneStep (.readPin p) s fun s =>
    checked (.readPin p) (handleError s p .input) s fun s =>
      .next (finish (.readPin p)
        (bitValue ((memRead s (wordOff s.params .lev p.toNat)).getLsbD (bitIdx .lev p.toNat))) s.nextDraw)

/-- K1 of CLOSE (42_pin_handle.md R186): the port is closing, and its watcher is told to stop. -/
def closeBegin (p : Port) (s : State) : State :=
  match firstError [unmappedCheck s, rangeCheck s p, openCheck s p] with
  | some e => raise (.closePin p) e s
  | none =>
    if (s.watch.lookup p.toNat).isSome
    then (signalStop p.toNat (s.setBusy p.toNat true)).goto (.closePin p) .stop ⟨true, .ok⟩
    else (s.setBusy p.toNat true).goto (.closePin p) .d1 ⟨false, .ok⟩

/-- K5 of CLOSE (42_pin_handle.md R186): the pin goes to Input mode. -/
def closeToInput (p : Port) (loc : Locals) (s : State) : Result :=
  tryAccess (writeField s.params.fselInput p.toNat) loc.err s fun err t =>
    t.goto (.closePin p) .k6 { loc with err := err }

/-- K6 of CLOSE (42_pin_handle.md R186): the reservation is released and the response delivered. -/
def closeRelease (p : Port) (loc : Locals) (s : State) : State :=
  ((s.setHandle p.toNat none).setBusy p.toNat false).respond (encodeWord (.closePin p)) loc.err 0

/-- CLOSE (42_pin_handle.md R186): K1, StopWatch, D1, D2, D3, RemoveWatch, K5, K6; the second and sixth only where K1
found a watch. -/
def execClose (p : Port) (s : State) : Result :=
  match s.position (.closePin p) with
  | .start => .next (closeBegin p s)
  | .running .stop loc => stopWatch p.toNat s fun t => t.goto (.closePin p) .d1 loc
  | .running .d1 loc => disableRising (.closePin p) p.toNat loc s
  | .running .d2 loc => disableFalling (.closePin p) p.toNat loc s
  | .running .d3 loc => discardEvent (.closePin p) p.toNat loc (if loc.hadWatch then .remove else .k5) s
  | .running .remove loc => .next ((removeWatch p.toNat s).goto (.closePin p) .k5 loc)
  | .running .k5 loc => closeToInput p loc s
  | .running .k6 loc => .next (closeRelease p loc s)
  | .running _ _ => .fault .badMicroStep
  | .unable => .refused .callerNotReady

end Sys2Proof.Machine
end

