-- ==== Sys2Proof/Machine/Window.lean ====
section
/-! DEFINITION. The Memory Window commands (40_window.md). -/

namespace Sys2Proof.Machine

/-- The error of a raw access: the window gate, then the offset (40_window.md R138, R139). -/
def accessError (s : State) (off : BitVec 12) : Option Status :=
  firstError [windowError s.win, check (offsetOk s.params off.toNat) .outOfRange]

/-- RD32 (40_window.md R138). -/
def execRd32 (off : BitVec 12) (s : State) : Result :=
  oneStep (.rd32 off) s fun s =>
    checked (.rd32 off) (accessError s off) s fun s =>
      .next (finish (.rd32 off) (memRead s off.toNat) s.nextDraw)

/-- WR32 (40_window.md R139). A write to an Unbanked offset is refused (20_memory.md R62). -/
def execWr32 (off : BitVec 12) (data : Word) (s : State) : Result :=
  oneStep (.wr32 off data) s fun s =>
    checked (.wr32 off data) (accessError s off) s fun s =>
      afterWrite (memWrite s off.toNat data) (finish (.wr32 off data) 0)

/-- WINCLOSE (40_window.md R140): refused with InvalidOperation while any handle is open. -/
def execWinclose (s : State) : Result :=
  oneStep .winclose s fun s =>
    checked .winclose (firstError [windowError s.win, check s.handle.isEmpty .invalidOperation]) s fun s =>
      .next (finish .winclose 0 (s.setWin .unmapped))

end Sys2Proof.Machine
end

