-- ==== Sys2Proof/Machine/Dispatch.lean ====
section
/-! DEFINITION. One arm per command: the micro-step of command `i` that the acting caller is at (log 10). -/

namespace Sys2Proof.Machine

def exec (i : Instr) (s : State) : Host.Outcome State Fault Refusal :=
  match i with
  | .rd32 off => Sys2Proof.Machine.execRd32 off s
  | .wr32 off data => Sys2Proof.Machine.execWr32 off data s
  | .winclose => Sys2Proof.Machine.execWinclose s
  | .locate bank port => Sys2Proof.Machine.execLocate bank port s
  | .setbit bank port => Sys2Proof.Machine.execSetbit bank port s
  | .clrbit bank port => Sys2Proof.Machine.execClrbit bank port s
  | .rdbit bank port => Sys2Proof.Machine.execRdbit bank port s
  | .pulse bank port => Sys2Proof.Machine.execPulse bank port s
  | .setfn fn port => Sys2Proof.Machine.execSetfn fn port s
  | .getfn port => Sys2Proof.Machine.execGetfn port s
  | .openPin mode port => Sys2Proof.Machine.execOpen mode port s
  | .setPin port => Sys2Proof.Machine.execSet port s
  | .clrPin port => Sys2Proof.Machine.execClr port s
  | .readPin port => Sys2Proof.Machine.execRead port s
  | .closePin port => Sys2Proof.Machine.execClose port s
  | .beginWatch kind port cb => Sys2Proof.Machine.execBeginWatch kind port cb s
  | .endWatch port => Sys2Proof.Machine.execEndWatch port s

end Sys2Proof.Machine
end

