-- ==== Sys2Proof/Machine/Watcher.lean ====
section
/-! DEFINITION. The steps of the agents that issue no commands: `Watcher(p)` (43_edge_watch.md R226 to R231) and `Pad`
(R210). The host's `@unmap` and `@ret p` stand in Machine/Ops.lean. A step that is not enabled changes nothing
(log 6). -/

namespace Sys2Proof.Machine

/-- The agent `Watcher(p)` exists (10_state.md R39, R44.3). -/
def hasWatcher (s : State) (p : Nat) : Bool :=
  match s.watch.lookup p with
  | none => false
  | some w =>
    match w.phase with
    | .poll | .inCallback _ | .clearing => true
    | .starting | .stopped => false

/-- The stop step (43_edge_watch.md R227). -/
def watcherStop (p : Nat) (s : State) : State := s.modifyWatch p fun w => { w with phase := .stopped }

/-- The poll step (43_edge_watch.md R228): the status-bit sampler, and the dispatch when the bit is 1. -/
def watcherPoll (p : Nat) (w : WatchState) (s : State) : State :=
  match windowError s.win with
  | some _ => failWatch p s
  | none =>
    if (memRead s (wordOff s.params .eds p)).getLsbD (bitIdx .eds p)
    then dispatchCallback p w s.nextDraw else s.nextDraw

/-- The clear step (43_edge_watch.md R229). -/
def watcherClear (p : Nat) (s : State) : Result :=
  match windowError s.win with
  | some _ => .next (failWatch p s)
  | none => afterWrite (pulsePortBit .eds p s) fun t => t.modifyWatch p fun w => { w with phase := .poll }

/-- `@watch p`: one micro-step of `Watcher(p)` by its phase (43_edge_watch.md R226). -/
def watcherStep (p : Nat) (s : State) : Result :=
  match s.watch.lookup p with
  | none => .next s
  | some w =>
    match w.phase with
    | .poll => .next (if w.stop then watcherStop p s else watcherPoll p w s)
    | .clearing => watcherClear p s
    | .starting | .inCallback _ | .stopped => .next s

/-- `@pad p, v` (43_edge_watch.md R210), enabled for `p < NPORTS`. -/
def padStep (p : Nat) (v : Bool) (s : State) : State :=
  if p < s.params.nports then edgeLatch s (s.setExt (s.ext.mark p v)) else s

end Sys2Proof.Machine
end

