-- ==== Sys2Proof/Machine/Agents.lean ====
section
/-! DEFINITION. Which agent moves (10_state.md R20, 20_memory.md R70): the outside's next choice, and the micro-step it
asks for. A choice whose step is not enabled changes nothing but the list of choices (log 6). -/

namespace Sys2Proof.Machine

/-- The outside's next choice: the first of the list, else a free value (log 5). -/
def State.nextInput (s : State) : Input :=
  match s.inputs with
  | a :: _ => a
  | [] => Config.freeInput s.draws

/-- The state once the choice has been taken. -/
def State.takeInput (s : State) : State :=
  match s.inputs with
  | _ :: rest => s.setInputs rest
  | [] => s.nextDraw

/-- Caller `c` issues a raw command, which it may do only when it exists and is Idle (10_state.md R40). A legal command
takes its first micro-step, an illegal one ends at once (30_encoding.md R103, R105). -/
def issueCommand (c : CallerId) (cmd : Command) (s : State) : Result :=
  if s.caller c = some .idle then
    match decode cmd with
    | .ok i => exec i (s.setActive c)
    | .error _ => .next (illegalCommand cmd (s.setActive c))
  else .next s

/-- Caller `c` takes the next micro-step of its command. -/
def resumeCaller (c : CallerId) (s : State) : Result :=
  match s.caller c with
  | some (.busy i _ _) => exec i (s.setActive c)
  | some .idle => .next s
  | none => .next s

/-- The micro-step that a choice asks for. -/
def runInput (a : Input) (s : State) : Result :=
  match a with
  | .issue c cmd => issueCommand c cmd s
  | .resume c => resumeCaller c s
  | .watcher p => watcherStep p s
  | .pad p v => .next (padStep p v s)
  | .ret p => .next (callbackReturn p s)
  | .unmap => .next (unmapStep s)

end Sys2Proof.Machine
end

