-- ==== Sys2Proof/Machine/Step.lean ====
section
/-! DEFINITION. One step of the block: one micro-step of the agent the outside chooses (20_memory.md R70). A parameter
set that breaks 00_scope.md R8 is refused (60_exceptions.md R258). -/

namespace Sys2Proof.Machine

/-- One micro-step. -/
def step (s : State) : Host.Outcome State Fault Refusal :=
  if s.params.legal then runInput s.nextInput s.takeInput else .refused .illegalParameters

/-- The state whose next step is `Main` issuing the command whose bits are `w` (log 9). -/
def State.withFetchWord (s : State) (nbits w : Nat) : State :=
  { s with main := .idle, inputs := .issue .main (tableCommand nbits w) :: s.inputs }

end Sys2Proof.Machine
end

