-- ==== Sys2Proof/Safety.lean ====
section
/-! DEFINITION. The terms claims use: what a response leaves, frames, the state invariants (10_state.md R44), the launch
premises (70_reset_and_hazards.md R283), the end points of a run (R304) and weak fairness (R292). -/

namespace Sys2Proof.Machine

/-! ### Effects and frames -/

/-- The stored words a bank's writes act on: SET and CLR act on the output latch, LEV on nothing (10_state.md R23). -/
def regWord (s : State) : Bank → Nat → Word
  | .fsel, i => s.regs.fsel.word i
  | .set, i => s.regs.lat.word i
  | .clr, i => s.regs.lat.word i
  | .lev, _ => 0
  | .eds, i => s.regs.eds.word i
  | .ren, i => s.regs.ren.word i
  | .fen, i => s.regs.fen.word i

/-- The acting caller of `s` gets one response and becomes Idle; no other event, no other caller (10_state.md R40,
30_encoding.md R101). -/
def Responds (i : Instr) (status : Status) (value : Word) (s t : State) : Prop :=
  t.log = s.log ++ [.resp s.active (encodeWord i) status value] ∧
  t.caller s.active = some .idle ∧
  (∀ c, c ≠ s.active → t.caller c = s.caller c)

/-- The acting caller of `s` goes on with command `i` at micro-step `k`; no event, no other caller. -/
def GoesOn (i : Instr) (k : MicroStep) (loc : Locals) (s t : State) : Prop :=
  t.log = s.log ∧
  t.caller s.active = some (.busy i k loc) ∧
  (∀ c, c ≠ s.active → t.caller c = s.caller c)

/-- What no command changes: the parameters, the outside levels, the outside's choices, the acting caller. -/
def SameOutside (s t : State) : Prop :=
  t.params = s.params ∧ t.ext = s.ext ∧ t.inputs = s.inputs ∧ t.active = s.active

/-- The window, the handle table, the transitions, the watches and the host's answers are unchanged. -/
def SameTables (s t : State) : Prop :=
  t.win = s.win ∧ t.handle = s.handle ∧ t.busy = s.busy ∧ t.watch = s.watch ∧ t.mapAnswers = s.mapAnswers

/-- Every stored word of every bank but those of `except` is unchanged. -/
def SameWordsBut (except : List Bank) (s t : State) : Prop :=
  ∀ b, b ∉ except → ∀ i, regWord t b i = regWord s b i

/-- A step that leaves the block as it was: only the list of choices or the draw counter moves on (log 6). -/
def Stutters (s t : State) : Prop :=
  t.params = s.params ∧ t.regs = s.regs ∧ t.ext = s.ext ∧ SameTables s t ∧ t.log = s.log ∧
    ∀ c, t.caller c = s.caller c

/-- Nothing the spec gives the block is changed but the log and the acting caller. -/
def Unchanged (s t : State) : Prop := t.regs = s.regs ∧ SameTables s t ∧ SameOutside s t

/-- Two banks that share their storage: SET and CLR both act on the latch. -/
def sameStorage (a b : Bank) : Bool := decide (a = b) || (decide (a ∈ [.set, .clr]) && decide (b ∈ [.set, .clr]))

/-- After the micro-step from `s` to `t` every valid port's EDS bit is what `e` says, or 1 where the edge latch saw an
enabled edge (43_edge_watch.md R211); every other bit of the EDS words is unchanged. -/
def EdgesLatched (e : Nat → Bool) (s t : State) : Prop :=
  (∀ q < s.params.nports, edsBit t q = (e q || enabledEdge s t q)) ∧
  ∀ i j, s.params.nports ≤ 32 * i + j → (regWord t .eds i).getLsbD j = (regWord s .eds i).getLsbD j

/-- Word `i` of a single-bit bank with port `p`'s bit set, where the port's bit stands in it. -/
def bitSetAt (p i : Nat) (w : Word) : Word := if i = p / 32 then w ||| (1#32 <<< (p % 32)) else w

/-- Word `i` of a single-bit bank with port `p`'s bit cleared, where the port's bit stands in it. -/
def bitClearedAt (p i : Nat) (w : Word) : Word := if i = p / 32 then w &&& ~~~(1#32 <<< (p % 32)) else w

/-- FSEL word `i` with port `p`'s three bits replaced by `code`, where the port's field stands in it. -/
def fieldAt (code : BitVec 3) (p i : Nat) (w : Word) : Word :=
  if i = p / 10 then (w &&& ~~~(7#32 <<< (3 * (p % 10)))) ||| (code.setWidth 32 <<< (3 * (p % 10))) else w

/-- Nothing of port `q` that a register holds is changed, and its pad level is not (41_codec.md R159). -/
def PortUntouched (q : Nat) (s t : State) : Prop :=
  field t q = field s q ∧ latBit t q = latBit s q ∧ edsBit t q = edsBit s q ∧ renBit t q = renBit s q ∧
    fenBit t q = fenBit s q ∧ pad t q = pad s q

/-- Every handle and watch table entry but port `p`'s is unchanged. -/
def SameOtherPorts (p : Nat) (s t : State) : Prop :=
  ∀ q, q ≠ p → t.handle.lookup q = s.handle.lookup q ∧ t.busy.has q = s.busy.has q ∧
    t.watch.lookup q = s.watch.lookup q

/-- The acting caller may issue `i` now: the parameters are legal and the caller is Idle (10_state.md R40). -/
def MayIssue (i : Instr) (s : State) : Prop := s.params.legal ∧ s.position i = .start

/-- The acting caller is at micro-step `k` of `i`. -/
def IsAt (i : Instr) (k : MicroStep) (loc : Locals) (s : State) : Prop :=
  s.params.legal ∧ s.position i = .running k loc

/-- `n` micro-steps of command `i` by the acting caller, one after the other. -/
def runs (i : Instr) : Nat → State → State → Prop
  | 0, s, t => s = t
  | n + 1, s, t => ∃ m, exec i s = .next m ∧ runs i n m t

/-- `n` micro-steps of `Watcher(p)`, one after the other. -/
def watcherRuns (p : Nat) : Nat → State → State → Prop
  | 0, s, t => s = t
  | n + 1, s, t => ∃ m, watcherStep p s = .next m ∧ watcherRuns p n m t

/-- How many steps the watcher takes, once its stop signal is set, until its watch is Stopped: none when it is
already; the stop step from Poll; the clear step and the stop step from Clearing (43_edge_watch.md R227, R229). None
where the watch does not stop by its watcher's steps alone. -/
def stepsToStop : Phase → Option Nat
  | .stopped => some 0
  | .poll => some 1
  | .clearing => some 2
  | .starting | .inCallback _ => none

/-! ### The canonical form of the data -/

/-- Every bank's storage is in canonical form and inside the bank (10_state.md R23). -/
def RegisterState.wf (P : Params) (r : RegisterState) : Bool :=
  r.fsel.wordsWf P.nf && r.lat.wordsWf P.nw && r.eds.wordsWf P.nw && r.ren.wordsWf P.nw && r.fen.wordsWf P.nw

/-- Every table of the state is in canonical form, and the stored words, outside levels and handles are those of
ports that exist. -/
def Canonical (s : State) : Prop :=
  s.regs.wf s.params = true ∧ s.ext.rising = true ∧ s.ext.below s.params.nports = true ∧
  s.handle.rising = true ∧ s.handle.below s.params.nports = true ∧ s.busy.rising = true ∧
  s.watch.rising = true ∧ s.callbacks.rising = true

/-! ### The state invariants -/

/-- The port whose OPEN or CLOSE a caller is carrying out. -/
def transitionOf : CallerState → Option Nat
  | .busy (.openPin _ p) _ _ => some p.toNat
  | .busy (.closePin p) _ _ => some p.toNat
  | _ => none

/-- The port whose BEGINWATCH a caller is carrying out. -/
def beginningOf : CallerState → Option Nat
  | .busy (.beginWatch _ p _) _ _ => some p.toNat
  | _ => none

/-- What holds while a CLOSE of port `p` stands at micro-step `k` (42_pin_handle.md R186). -/
def closeOk (s : State) (p : Nat) (loc : Locals) : MicroStep → Prop
  | .stop => loc.hadWatch = true
  | .d1 | .d2 | .d3 =>
    watchStopped s p = true ∧ (loc.hadWatch = false → s.watch.lookup p = none)
  | .remove => loc.hadWatch = true ∧ watchStopped s p = true
  | .k5 | .k6 => s.watch.lookup p = none
  | .o2 | .b2 | .b3 | .b4 | .b5 => False

/-- What holds while a caller carries out a command: it stands at a micro-step of that command, and the tables are as
the micro-steps before it left them. -/
def callerOk (s : State) : CallerState → Prop
  | .idle => True
  | .busy (.openPin m p) .o2 _ =>
    s.handle.lookup p.toNat = some m ∧ s.busy.has p.toNat = true ∧ s.watch.lookup p.toNat = none
  | .busy (.closePin p) k loc => s.busy.has p.toNat = true ∧ closeOk s p.toNat loc k
  | .busy (.beginWatch kind p cb) k _ =>
    (∃ w, s.watch.lookup p.toNat = some w ∧ w.kind = kind ∧ w.cb = cb ∧ w.phase = .starting) ∧
    (k = .b2 ∨ k = .b3 ∨ k = .b4 ∨ k = .b5)
  | .busy (.endWatch p) k _ =>
    p.toNat < s.params.nports ∧ (k = .stop ∨ k = .d1 ∨ k = .d2 ∨ k = .d3 ∨ k = .remove)
  | .busy _ _ _ => False

/-- The invariants of 10_state.md R44 items 1, 2, 4 and 6, the callback callers of R39 and R40, and where every busy
caller stands. -/
structure Lifecycle (s : State) : Prop where
  legal : s.params.legal
  handle_window : ∀ p, s.handle.lookup p ≠ none → s.win ≠ .unmapped
  watch_handle : ∀ p, s.watch.lookup p ≠ none → s.handle.lookup p = some .input
  handle_range : ∀ p, s.params.nports ≤ p → s.handle.lookup p = none
  busy_handle : ∀ p, s.busy.has p = true → s.handle.lookup p ≠ none
  callback_watch : ∀ p, s.callbacks.lookup p ≠ none ↔ ∃ w, s.watch.lookup p = some w ∧ w.phase = .inCallback w.seq
  callback_count : ∀ p w n, s.watch.lookup p = some w → w.phase = .inCallback n → n = w.seq
  callers : ∀ c x, s.caller c = some x → callerOk s x
  one_transition : ∀ c d x y p, s.caller c = some x → s.caller d = some y →
    transitionOf x = some p → transitionOf y = some p → c = d
  one_beginning : ∀ c d x y p, s.caller c = some x → s.caller d = some y →
    beginningOf x = some p → beginningOf y = some p → c = d

/-! ### Runs, launch premises and end points -/

/-- A run: an infinite sequence of states, each one step after the one before. -/
def IsRun (r : Nat → State) : Prop := ∀ n, step (r n) = .next (r (n + 1))

/-- `CleanEntry` (70_reset_and_hazards.md R283): the reset state of some parameters, registers and pads, with any
choices of the outside before it. -/
def CleanEntry (s : State) : Prop :=
  { s with inputs := [], mapAnswers := [], active := .main, draws := 0 } = State.resetWith s.params s.regs s.ext

/-- `KnownRegs` (70_reset_and_hazards.md R283). -/
def KnownRegs (s : State) (r : RegisterState) : Prop := s.regs = r

/-- `KnownPads` (70_reset_and_hazards.md R283). -/
def KnownPads (s : State) (x : PortSet) : Prop := s.ext = x

/-- `MapOk` (70_reset_and_hazards.md R283): the host's next answer to the mapping request is Ok. -/
def MapOk (s : State) : Prop := s.mapAnswers.head? = some .ok

/-- `NoUnmap` (70_reset_and_hazards.md R283): the host never takes `@unmap` in the run. -/
def NoUnmap (r : Nat → State) : Prop := ∀ n, (r n).nextInput ≠ .unmap

/-- `HostReturns` (70_reset_and_hazards.md R283): the host takes `@ret p` for every callback, once CB(p) is Idle. A
callback starts with CB(p) Idle (43_edge_watch.md R228), so none is left out, whatever its body does. -/
def HostReturns (r : Nat → State) : Prop :=
  ∀ p n, (r n).callbacks.lookup p = some .idle →
    ∃ m, n ≤ m ∧ (r m).nextInput = .ret p ∧ (r m).callbacks.lookup p = some .idle

/-! A program is a list of commands for Main (10_state.md R22, 70_reset_and_hazards.md R304). -/

/-- The command words to which Main has been delivered the response, oldest first (10_state.md R41). -/
def answeredWords (s : State) : List Word :=
  s.log.filterMap fun ev =>
    match ev with
    | .resp .main w _ _ => some w
    | .resp (.cb _) _ _ _ | .callback _ _ _ | .watchFailed _ => none

/-- The command at Main's program position, which counts the responses delivered to Main (10_state.md R22); none at
the end of the list. -/
def nextCommand (prog : List Command) (s : State) : Option Command := prog[(answeredWords s).length]?

/-- The program allows the choice: Main issues nothing but the command at its program position, and only when Idle. -/
def Admits (prog : List Command) (s : State) : Input → Prop
  | .issue .main cmd => s.main = .idle ∧ nextCommand prog s = some cmd
  | .issue (.cb _) _ | .resume _ | .watcher _ | .pad _ _ | .ret _ | .unmap => True

/-- A run in which Main carries out the program. -/
def IsRunOf (prog : List Command) (r : Nat → State) : Prop := IsRun r ∧ ∀ n, Admits prog (r n) (r n).nextInput

/-- `MainDone` (70_reset_and_hazards.md R304): Main is Idle, and its responses delivered are those to the commands of
its list, to the last. -/
def MainDone (prog : List Command) (s : State) : Prop :=
  s.main = .idle ∧ answeredWords s = prog.map (·.word)

/-- `Quiescent` (70_reset_and_hazards.md R304). With no CB(p) the one caller is Main, which is Idle. -/
def Quiescent (prog : List Command) (s : State) : Prop :=
  MainDone prog s ∧ (∀ p, s.callbacks.lookup p = none) ∧ (∀ p, s.watch.lookup p = none)

/-- The agents whose steps are fair: callers and watchers (70_reset_and_hazards.md R292). -/
inductive FairAgent where
  | caller (c : CallerId)
  | watcher (p : Nat)
deriving DecidableEq, Repr

/-- The choice by which the agent takes its next step, none where it has no enabled step: a caller in a command goes on,
held only at a StopWatch whose guard is false; Main, Idle, issues the next command of its list; what an Idle CB(p) issues
is the host's liberty (60_exceptions.md R270); a watcher steps in phases Poll and Clearing. -/
def stepOf (prog : List Command) (s : State) : FairAgent → Option Input
  | .caller c =>
    match s.caller c with
    | some (.busy (.endWatch p) .stop _) => if watchStopped s p.toNat then some (.resume c) else none
    | some (.busy (.closePin p) .stop _) => if watchStopped s p.toNat then some (.resume c) else none
    | some (.busy _ _ _) => some (.resume c)
    | some .idle => if c = .main then (nextCommand prog s).map (.issue .main) else none
    | none => none
  | .watcher p =>
    match s.watch.lookup p with
    | some w => if w.phase = .poll ∨ w.phase = .clearing then some (.watcher p) else none
    | none => none

/-- Weak fairness (70_reset_and_hazards.md R292): an agent whose step stays enabled from some point on takes it. -/
def WeaklyFair (prog : List Command) (r : Nat → State) : Prop :=
  ∀ a n, (∀ m, n ≤ m → (stepOf prog (r m) a).isSome = true) →
    ∃ m, n ≤ m ∧ stepOf prog (r m) a = some (r m).nextInput

end Sys2Proof.Machine
end

