-- ==== Sys2Proof/Certificates/Slice0/Obligations.lean ====
section
/-! DEFINITION. The statements for the provers, from the numbered rules of spec/. `MayIssue i s` says that the parameters
are legal and the acting caller is Idle; `IsAt i k loc s` that it carries out `i` and stands at micro-step `k`. -/

open Sys2Proof Sys2Proof.Machine

/-! ### Encoding and decoding -/

/-- Command words of 95_test_vectors.md §2.1 decode as listed there. -/
def Obligations.SpecWordsDecode : Prop :=
  decode ⟨0x40800016, 0⟩ = .ok (.openPin .output 22) ∧
  decode ⟨0x04003400, 0⟩ = .ok (.rd32 0x034) ∧
  decode ⟨0x61000005, 1⟩ = .ok (.beginWatch .falling 5 1) ∧
  decode ⟨0x2680001F, 0⟩ = .ok (.setbit .ren 31) ∧
  decode ⟨0x37800016, 0⟩ = .ok (.setfn 7 22) ∧
  decode ⟨0x00000000, 0⟩ = .error .unknownOpcode ∧
  decode ⟨0x04103400, 0⟩ = .error .mustBeZero ∧
  decode ⟨0x23800005, 0⟩ = .error .reservedArgument ∧
  decode ⟨0x32800005, 0⟩ = .error .bankNotAccepted

/-- Every well-formed command is what the decoder reads from its encoding (30_encoding.md R94 to R100). -/
def Obligations.DecodeOfEncode : Prop :=
  ∀ i : Instr, i.wellFormed = true → decode (encode i) = .ok i

/-- What the decoder accepts is well formed, and its command word is the one the encoder gives: each legal command word
has one meaning (30_encoding.md R96, R105). -/
def Obligations.EncodeOfDecode : Prop :=
  ∀ (c : Command) (i : Instr), decode c = .ok i → encodeWord i = c.word ∧ i.wellFormed = true

/-- No command word matches two rows of the opcode map (30_encoding.md R96). -/
def Obligations.OpcodeRowsDisjoint : Prop :=
  ∀ r ∈ opcodeMap, ∀ r' ∈ opcodeMap, ∀ w : Word, w &&& r.mask = r.value → w &&& r'.mask = r'.value → r = r'

/-- The reserved opcodes are the ones the decoder does not know, the all-zero command word among them
(30_encoding.md R104). -/
def Obligations.ReservedOpcodesRejected : Prop :=
  (∀ c : Command, decode c = .error .unknownOpcode ↔
    (c.word.toNat / 2 ^ 26 = 0x00 ∨ (0x04 ≤ c.word.toNat / 2 ^ 26 ∧ c.word.toNat / 2 ^ 26 ≤ 0x07) ∨
      c.word.toNat / 2 ^ 26 = 0x0F ∨ (0x15 ≤ c.word.toNat / 2 ^ 26 ∧ c.word.toNat / 2 ^ 26 ≤ 0x17) ∨
      (0x1A ≤ c.word.toNat / 2 ^ 26 ∧ c.word.toNat / 2 ^ 26 ≤ 0x3F))) ∧
  ∀ d : Word, decode ⟨0, d⟩ = .error .unknownOpcode

/-- An illegal command ends at once with InvalidOperation and changes nothing else (30_encoding.md R103). -/
def Obligations.IllegalCommandResponds : Prop :=
  ∀ (s : State) (c : CallerId) (cmd : Command) (e : DecodeError), s.params.legal → s.nextInput = .issue c cmd →
    s.caller c = some .idle → decode cmd = .error e →
    ∃ t, step s = .next t ∧ t.log = s.log ++ [.resp c cmd.word .invalidOperation 0] ∧
      (∀ d, t.caller d = s.caller d) ∧ t.regs = s.regs ∧ SameTables s t ∧ t.params = s.params ∧ t.ext = s.ext

/-! ### Steps -/

/-- When the next choice is that an Idle caller issues a command that decodes to `i`, the step is `exec i` for that
caller, the choice taken (log 9, log 10). -/
def Obligations.StepRunsDecodedInstruction : Prop :=
  ∀ (s : State) (c : CallerId) (cmd : Command) (i : Instr), s.params.legal → s.nextInput = .issue c cmd →
    s.caller c = some .idle → decode cmd = .ok i → step s = exec i (s.takeInput.setActive c)

/-- When the next choice is that a busy caller goes on, the step is `exec` of the command it carries out (10_state.md
R40; log 10). -/
def Obligations.StepResumesCommand : Prop :=
  ∀ (s : State) (c : CallerId) (i : Instr) (k : MicroStep) (loc : Locals), s.params.legal →
    s.nextInput = .resume c → s.caller c = some (.busy i k loc) → step s = exec i (s.takeInput.setActive c)

/-- A command word placed for Main is what the very next step runs (log 9). -/
def Obligations.PlacedWordRunsNext : Prop :=
  ∀ (s : State) (nbits w : Nat) (i : Instr), s.params.legal → decodeTableWord nbits w = some i →
    step (s.withFetchWord nbits w) = exec i { s with main := .idle, active := .main }

/-! ### Reset -/

/-- The reset values of 10_state.md R43, for every parameter set, register contents and outside levels. -/
def Obligations.ResetValues : Prop :=
  ∀ (P : Params) (init : RegisterState) (initExt : PortSet),
    (State.resetWith P init initExt).win = .unmapped ∧
    (∀ p, (State.resetWith P init initExt).handle.lookup p = none) ∧
    (∀ p, (State.resetWith P init initExt).busy.has p = false) ∧
    (∀ p, (State.resetWith P init initExt).watch.lookup p = none ∧
      hasWatcher (State.resetWith P init initExt) p = false) ∧
    (State.resetWith P init initExt).caller .main = some .idle ∧
    (∀ p, (State.resetWith P init initExt).caller (.cb p) = none) ∧
    (State.resetWith P init initExt).log = [] ∧
    (State.resetWith P init initExt).regs = init ∧ (State.resetWith P init initExt).ext = initExt

/-- The model's reset state meets the invariants below. Its register words, outside levels and parameters are the
model's choice (log 1, log 3, log 4). -/
def Obligations.ResetMeetsInvariants : Prop :=
  Canonical State.reset ∧ Lifecycle State.reset

/-! ### Memory Window -/

/-- RD32 returns the valid bits of the word at the offset and changes nothing (40_window.md R131, R138). -/
def Obligations.Rd32ReturnsWord : Prop :=
  ∀ (off : BitVec 12) (s : State), MayIssue (.rd32 off) s → s.win = .mapped →
    off.toNat % 4 = 0 → off.toNat + 4 ≤ s.params.windowSize →
    ∃ v t, exec (.rd32 off) s = .next t ∧ Responds (.rd32 off) .ok v s t ∧ Unchanged s t ∧
      (∀ i j, decodeOffset s.params off.toNat = some (.fsel, i) → j < 30 → 10 * i + j / 3 < s.params.nports →
        v.getLsbD j = (s.regs.fsel.word i).getLsbD j) ∧
      (∀ i j, decodeOffset s.params off.toNat = some (.lev, i) → j < 32 → 32 * i + j < s.params.nports →
        v.getLsbD j = pad s (32 * i + j)) ∧
      (∀ b i j, b ∈ [Bank.eds, Bank.ren, Bank.fen] → decodeOffset s.params off.toNat = some (b, i) → j < 32 →
        32 * i + j < s.params.nports → v.getLsbD j = (regWord s b i).getLsbD j)

/-- WR32 to a bank word has the bank's effect, and the edge latch runs (40_window.md R132, R139). An FSEL word takes the
data's fields whatever their codes (log 28). -/
def Obligations.Wr32WritesWord : Prop :=
  ∀ (off : BitVec 12) (data : Word) (s : State) (b : Bank) (i : Nat), MayIssue (.wr32 off data) s →
    s.win = .mapped → decodeOffset s.params off.toNat = some (b, i) →
    ∃ t, exec (.wr32 off data) s = .next t ∧ Responds (.wr32 off data) .ok 0 s t ∧ SameTables s t ∧ SameOutside s t ∧
      (∀ b' j, b' ≠ .eds → ¬ (sameStorage b' b = true ∧ j = i) → regWord t b' j = regWord s b' j) ∧
      (b = .fsel → regWord t .fsel i =
        (regWord s .fsel i &&& ~~~(validFieldMask s.params i)) ||| (data &&& validFieldMask s.params i)) ∧
      (b = .set → regWord t .set i = regWord s .set i ||| (data &&& validMask s.params i)) ∧
      (b = .clr → regWord t .clr i = regWord s .clr i &&& ~~~(data &&& validMask s.params i)) ∧
      (b = .ren → regWord t .ren i =
        (regWord s .ren i &&& ~~~(validMask s.params i)) ||| (data &&& validMask s.params i)) ∧
      (b = .fen → regWord t .fen i =
        (regWord s .fen i &&& ~~~(validMask s.params i)) ||| (data &&& validMask s.params i)) ∧
      EdgesLatched (fun q => edsBit s q && !(decide (b = .eds ∧ q / 32 = i) && data.getLsbD (q % 32))) s t

/-- A WR32 to an in-window offset that is no bank word is refused (20_memory.md R62, 60_exceptions.md R258). -/
def Obligations.UnbankedWriteRefused : Prop :=
  ∀ (off : BitVec 12) (data : Word) (s : State), MayIssue (.wr32 off data) s → s.win = .mapped →
    off.toNat % 4 = 0 → off.toNat + 4 ≤ s.params.windowSize → decodeOffset s.params off.toNat = none →
    exec (.wr32 off data) s = .refused .unbankedWrite

/-- A misaligned offset, or one outside the window, raises OutOfRange and no access is made (20_memory.md R64, R65). -/
def Obligations.BadOffsetsRaiseOutOfRange : Prop :=
  ∀ (off : BitVec 12) (data : Word) (s : State), s.win = .mapped →
    (off.toNat % 4 ≠ 0 ∨ s.params.windowSize < off.toNat + 4) →
    (MayIssue (.rd32 off) s →
      ∃ t, exec (.rd32 off) s = .next t ∧ Responds (.rd32 off) .outOfRange 0 s t ∧ Unchanged s t) ∧
    (MayIssue (.wr32 off data) s →
      ∃ t, exec (.wr32 off data) s = .next t ∧ Responds (.wr32 off data) .outOfRange 0 s t ∧ Unchanged s t)

/-- WINCLOSE unmaps a mapped window when no handle is open, and changes nothing else (40_window.md R140). -/
def Obligations.WincloseUnmaps : Prop :=
  ∀ s : State, MayIssue .winclose s → s.win = .mapped → (∀ p, s.handle.lookup p = none) →
    ∃ t, exec .winclose s = .next t ∧ Responds .winclose .ok 0 s t ∧ t.win = .unmapped ∧ t.regs = s.regs ∧
      t.handle = s.handle ∧ t.busy = s.busy ∧ t.watch = s.watch ∧ t.mapAnswers = s.mapAnswers ∧ SameOutside s t

/-- WINCLOSE with a handle open, with the window unmapped, or with a failed window raises and changes nothing
(40_window.md R140). -/
def Obligations.WincloseRaises : Prop :=
  ∀ (s : State) (e : Status), MayIssue .winclose s →
    ((s.win = .mapped ∧ (∃ p, s.handle.lookup p ≠ none) ∧ e = .invalidOperation) ∨
      (s.win = .unmapped ∧ e = .invalidOperation) ∨
      (s.win = .failed .permissionDenied ∧ e = .permissionDenied) ∨
      (s.win = .failed .unsupportedPlatform ∧ e = .unsupportedPlatform)) →
    ∃ t, exec .winclose s = .next t ∧ Responds .winclose e 0 s t ∧ Unchanged s t

/-- The window gate: a command that uses the window raises the failure of a failed window, and InvalidOperation while
it is unmapped, and changes nothing (40_window.md R133). -/
def Obligations.WindowGateRaises : Prop :=
  ∀ (i : Instr) (s : State) (e : Status), MayIssue i s → i.wellFormed = true →
    (match i with
      | .locate _ _ | .openPin _ _ | .closePin _ | .endWatch _ => False
      | _ => True) →
    ((s.win = .unmapped ∧ e = .invalidOperation) ∨
      (s.win = .failed .permissionDenied ∧ e = .permissionDenied) ∨
      (s.win = .failed .unsupportedPlatform ∧ e = .unsupportedPlatform)) →
    ∃ t, exec i s = .next t ∧ Responds i e 0 s t ∧ Unchanged s t

/-! ### Register Codec -/

/-- LOCATE returns the word offset and the bit index, whatever the window, and raises OutOfRange for a port that does
not exist (41_codec.md R151, 30_encoding.md R91, R92, R102). -/
def Obligations.LocateReturnsPosition : Prop :=
  ∀ (b : Bank) (p : Port) (s : State), MayIssue (.locate b p) s →
    (p.toNat < s.params.nports →
      ∃ v t, exec (.locate b p) s = .next t ∧ Responds (.locate b p) .ok v s t ∧ Unchanged s t ∧
        (b = .fsel → v.toNat = 3 * (p.toNat % 10) * 2 ^ 16 + (s.params.baseFsel + 4 * (p.toNat / 10))) ∧
        (b ≠ .fsel → v.toNat = (p.toNat % 32) * 2 ^ 16 + (s.params.base b + 4 * (p.toNat / 32)))) ∧
    (s.params.nports ≤ p.toNat →
      ∃ t, exec (.locate b p) s = .next t ∧ Responds (.locate b p) .outOfRange 0 s t ∧ Unchanged s t)

/-- SETBIT sets the port's enable bit and changes no other bit (41_codec.md R153). -/
def Obligations.SetbitSetsEnable : Prop :=
  ∀ (b : Bank) (p : Port) (s : State), MayIssue (.setbit b p) s → s.win = .mapped → b ∈ [Bank.ren, Bank.fen] →
    p.toNat < s.params.nports →
    ∃ t, exec (.setbit b p) s = .next t ∧ Responds (.setbit b p) .ok 0 s t ∧ SameTables s t ∧ SameOutside s t ∧
      SameWordsBut [b] s t ∧ ∀ i, regWord t b i = bitSetAt p.toNat i (regWord s b i)

/-- CLRBIT clears the port's enable bit and changes no other bit (41_codec.md R154). -/
def Obligations.ClrbitClearsEnable : Prop :=
  ∀ (b : Bank) (p : Port) (s : State), MayIssue (.clrbit b p) s → s.win = .mapped → b ∈ [Bank.ren, Bank.fen] →
    p.toNat < s.params.nports →
    ∃ t, exec (.clrbit b p) s = .next t ∧ Responds (.clrbit b p) .ok 0 s t ∧ SameTables s t ∧ SameOutside s t ∧
      SameWordsBut [b] s t ∧ ∀ i, regWord t b i = bitClearedAt p.toNat i (regWord s b i)

/-- RDBIT returns the port's bit: its pad level, its EDS bit, or an enable (41_codec.md R155). -/
def Obligations.RdbitReturnsBit : Prop :=
  ∀ (b : Bank) (p : Port) (s : State), MayIssue (.rdbit b p) s → s.win = .mapped →
    b ∈ [Bank.lev, Bank.eds, Bank.ren, Bank.fen] → p.toNat < s.params.nports →
    ∃ t, exec (.rdbit b p) s = .next t ∧ Unchanged s t ∧
      Responds (.rdbit b p) .ok
        (bitValue (match b with
          | .lev => pad s p.toNat
          | .eds => edsBit s p.toNat
          | .ren => renBit s p.toNat
          | _ => fenBit s p.toNat)) s t

/-- PULSE sets or clears the port's latch bit, or clears its EDS bit, and touches nothing of another port; an enabled
edge it makes is latched (41_codec.md R156). -/
def Obligations.PulseActsOnPort : Prop :=
  ∀ (b : Bank) (p : Port) (s : State), MayIssue (.pulse b p) s → s.win = .mapped →
    b ∈ [Bank.set, Bank.clr, Bank.eds] → p.toNat < s.params.nports →
    ∃ t, exec (.pulse b p) s = .next t ∧ Responds (.pulse b p) .ok 0 s t ∧ SameTables s t ∧ SameOutside s t ∧
      SameWordsBut [.set, .clr, .eds] s t ∧
      (∀ i, regWord t .set i =
        if b = .set then bitSetAt p.toNat i (regWord s .set i)
        else if b = .clr then bitClearedAt p.toNat i (regWord s .set i)
        else regWord s .set i) ∧
      EdgesLatched (fun q => edsBit s q && !decide (b = .eds ∧ q = p.toNat)) s t ∧
      ∀ q < s.params.nports, q ≠ p.toNat → PortUntouched q s t

/-- SETFN replaces exactly the port's three function bits; an edge that the change makes on that port, and no other, is
latched (41_codec.md R157). -/
def Obligations.SetfnWritesField : Prop :=
  ∀ (fn : BitVec 3) (p : Port) (s : State), MayIssue (.setfn fn p) s → s.win = .mapped →
    p.toNat < s.params.nports →
    ∃ t, exec (.setfn fn p) s = .next t ∧ Responds (.setfn fn p) .ok 0 s t ∧ SameTables s t ∧ SameOutside s t ∧
      SameWordsBut [.fsel, .eds] s t ∧
      (∀ i, regWord t .fsel i = fieldAt fn p.toNat i (regWord s .fsel i)) ∧
      field t p.toNat = fn ∧ EdgesLatched (edsBit s) s t ∧
      ∀ q < s.params.nports, q ≠ p.toNat → PortUntouched q s t

/-- GETFN returns the port's function field exactly (41_codec.md R158). -/
def Obligations.GetfnReturnsField : Prop :=
  ∀ (p : Port) (s : State), MayIssue (.getfn p) s → s.win = .mapped → p.toNat < s.params.nports →
    ∃ t, exec (.getfn p) s = .next t ∧ Unchanged s t ∧
      Responds (.getfn p) .ok ((field s p.toNat).setWidth 32) s t

/-- A codec command on a port that does not exist raises OutOfRange and changes nothing (60_exceptions.md R252, R259). -/
def Obligations.CodecPortOutOfRange : Prop :=
  ∀ (i : Instr) (p : Port) (s : State), MayIssue i s → i.wellFormed = true → s.win = .mapped →
    s.params.nports ≤ p.toNat →
    ((∃ b, i = .setbit b p) ∨ (∃ b, i = .clrbit b p) ∨ (∃ b, i = .rdbit b p) ∨ (∃ b, i = .pulse b p) ∨
      (∃ fn, i = .setfn fn p) ∨ i = .getfn p) →
    ∃ t, exec i s = .next t ∧ Responds i .outOfRange 0 s t ∧ Unchanged s t

/-- Bit isolation: SETBIT, CLRBIT, PULSE and SETFN on one port leave every state item of every other port unchanged
(41_codec.md R159). -/
def Obligations.BitIsolation : Prop :=
  ∀ (i : Instr) (p : Port) (q : Nat) (s t : State), s.params.legal → q < s.params.nports → q ≠ p.toNat →
    ((∃ b, i = .setbit b p) ∨ (∃ b, i = .clrbit b p) ∨ (∃ b, i = .pulse b p) ∨ (∃ fn, i = .setfn fn p)) →
    exec i s = .next t → PortUntouched q s t

/-! ### Pin Handle -/

/-- OPEN by a caller that is not interrupted: its second micro-step programs the function field and delivers OK
(42_pin_handle.md R182). -/
def Obligations.OpenCompletes : Prop :=
  ∀ (m : Mode) (p : Port) (s : State), MayIssue (.openPin m p) s → p.toNat < s.params.nports →
    s.handle.lookup p.toNat = none → (s.win = .mapped ∨ (s.win = .unmapped ∧ MapOk s)) →
    ∃ s1 t, exec (.openPin m p) s = .next s1 ∧ exec (.openPin m p) s1 = .next t ∧
      Responds (.openPin m p) .ok 0 s t ∧ t.win = .mapped ∧ t.handle.lookup p.toNat = some m ∧
      t.busy.has p.toNat = false ∧ t.watch = s.watch ∧ SameOtherPorts p.toNat s t ∧ SameOutside s t ∧
      field t p.toNat = (match m with | .input => s.params.fselInput | .output => s.params.fselOutput) ∧
      (∀ i, regWord t .fsel i = fieldAt (field t p.toNat) p.toNat i (regWord s .fsel i)) ∧
      SameWordsBut [.fsel, .eds] s t ∧ EdgesLatched (edsBit s) s t ∧
      ∀ q < s.params.nports, q ≠ p.toNat → PortUntouched q s t

/-- The errors of OPEN's first micro-step, in their order: a failed window, a mapping that the host answers with a
failure, the port's range, a live handle (42_pin_handle.md R182, 60_exceptions.md R253, R254). An error leaves the state
as it was, but for a mapping that failed: a mapping that was made is undone (60_exceptions.md R252, R256; log 11). -/
def Obligations.OpenRaises : Prop :=
  ∀ (m : Mode) (p : Port) (s : State), MayIssue (.openPin m p) s →
    (∀ e, s.win = .failed e →
      ∃ t, exec (.openPin m p) s = .next t ∧ Responds (.openPin m p) (windowStatus e) 0 s t ∧ Unchanged s t) ∧
    (∀ e, s.win = .unmapped → s.mapAnswers.head? = some (.failed e) →
      ∃ t, exec (.openPin m p) s = .next t ∧ Responds (.openPin m p) (windowStatus e) 0 s t ∧ t.win = .failed e ∧
        t.regs = s.regs ∧ t.handle = s.handle ∧ t.busy = s.busy ∧ t.watch = s.watch ∧ SameOutside s t) ∧
    (s.win = .mapped → s.params.nports ≤ p.toNat →
      ∃ t, exec (.openPin m p) s = .next t ∧ Responds (.openPin m p) .outOfRange 0 s t ∧ Unchanged s t) ∧
    (s.win = .unmapped → MapOk s → s.params.nports ≤ p.toNat →
      ∃ t, exec (.openPin m p) s = .next t ∧ Responds (.openPin m p) .outOfRange 0 s t ∧ t.win = .unmapped ∧
        t.regs = s.regs ∧ t.handle = s.handle ∧ t.busy = s.busy ∧ t.watch = s.watch ∧ SameOutside s t) ∧
    (s.win = .mapped → p.toNat < s.params.nports → s.handle.lookup p.toNat ≠ none →
      ∃ t, exec (.openPin m p) s = .next t ∧ Responds (.openPin m p) .alreadyOpen 0 s t ∧ Unchanged s t)

/-- O2 of OPEN with the window gone undoes the reservation and reports the error (42_pin_handle.md R182). -/
def Obligations.OpenUndone : Prop :=
  ∀ (m : Mode) (p : Port) (loc : Locals) (s : State), IsAt (.openPin m p) .o2 loc s → s.win ≠ .mapped →
    ∃ e t, windowError s.win = some e ∧ exec (.openPin m p) s = .next t ∧ Responds (.openPin m p) e 0 s t ∧
      t.handle.lookup p.toNat = none ∧ t.busy.has p.toNat = false ∧ t.regs = s.regs ∧ t.win = s.win ∧
      t.watch = s.watch ∧ SameOtherPorts p.toNat s t ∧ SameOutside s t

/-- SET on an open Output port sets its latch bit; an output's pad level becomes 1 (42_pin_handle.md R183). -/
def Obligations.SetDrivesHigh : Prop :=
  ∀ (p : Port) (s : State), MayIssue (.setPin p) s → s.win = .mapped → p.toNat < s.params.nports →
    s.handle.lookup p.toNat = some .output → s.busy.has p.toNat = false →
    ∃ t, exec (.setPin p) s = .next t ∧ Responds (.setPin p) .ok 0 s t ∧ SameTables s t ∧ SameOutside s t ∧
      SameWordsBut [.set, .clr, .eds] s t ∧
      (∀ i, regWord t .set i = bitSetAt p.toNat i (regWord s .set i)) ∧
      (field s p.toNat = s.params.fselOutput → pad t p.toNat = true) ∧ EdgesLatched (edsBit s) s t ∧
      ∀ q < s.params.nports, q ≠ p.toNat → PortUntouched q s t

/-- CLR on an open Output port clears its latch bit; an output's pad level becomes 0 (42_pin_handle.md R184). -/
def Obligations.ClrDrivesLow : Prop :=
  ∀ (p : Port) (s : State), MayIssue (.clrPin p) s → s.win = .mapped → p.toNat < s.params.nports →
    s.handle.lookup p.toNat = some .output → s.busy.has p.toNat = false →
    ∃ t, exec (.clrPin p) s = .next t ∧ Responds (.clrPin p) .ok 0 s t ∧ SameTables s t ∧ SameOutside s t ∧
      SameWordsBut [.set, .clr, .eds] s t ∧
      (∀ i, regWord t .clr i = bitClearedAt p.toNat i (regWord s .clr i)) ∧
      (field s p.toNat = s.params.fselOutput → pad t p.toNat = false) ∧ EdgesLatched (edsBit s) s t ∧
      ∀ q < s.params.nports, q ≠ p.toNat → PortUntouched q s t

/-- READ on an open Input port returns its pad level (42_pin_handle.md R185). -/
def Obligations.ReadReturnsLevel : Prop :=
  ∀ (p : Port) (s : State), MayIssue (.readPin p) s → s.win = .mapped → p.toNat < s.params.nports →
    s.handle.lookup p.toNat = some .input → s.busy.has p.toNat = false →
    ∃ t, exec (.readPin p) s = .next t ∧ Responds (.readPin p) .ok (bitValue (pad s p.toNat)) s t ∧ Unchanged s t

/-- SET, CLR and READ on a mapped window: OutOfRange for a port that does not exist; else InvalidOperation for a port
that is not Open or is open in the other mode (42_pin_handle.md R183 to R185, 60_exceptions.md R255). -/
def Obligations.PinCommandsRaise : Prop :=
  ∀ (p : Port) (s : State) (i : Instr) (m : Mode), MayIssue i s → s.win = .mapped →
    (((i = .setPin p ∨ i = .clrPin p) ∧ m = .output) ∨ (i = .readPin p ∧ m = .input)) →
    (s.params.nports ≤ p.toNat →
      ∃ t, exec i s = .next t ∧ Responds i .outOfRange 0 s t ∧ Unchanged s t) ∧
    (p.toNat < s.params.nports → (s.handle.lookup p.toNat ≠ some m ∨ s.busy.has p.toNat = true) →
      ∃ t, exec i s = .next t ∧ Responds i .invalidOperation 0 s t ∧ Unchanged s t)

/-- CLOSE of a port with no watch, not interrupted: its six micro-steps leave the port Closed, Input, with no enable and
no pending event, and the latch as it was (42_pin_handle.md R186). -/
def Obligations.CloseCompletes : Prop :=
  ∀ (p : Port) (s : State), MayIssue (.closePin p) s → s.win = .mapped → p.toNat < s.params.nports →
    s.handle.lookup p.toNat ≠ none → s.busy.has p.toNat = false → s.watch.lookup p.toNat = none →
    ∃ s1 t, exec (.closePin p) s = .next s1 ∧ runs (.closePin p) 5 s1 t ∧ Responds (.closePin p) .ok 0 s t ∧
      t.handle.lookup p.toNat = none ∧ t.busy.has p.toNat = false ∧ t.watch = s.watch ∧ t.win = s.win ∧
      SameOtherPorts p.toNat s t ∧ SameOutside s t ∧
      field t p.toNat = s.params.fselInput ∧ renBit t p.toNat = false ∧ fenBit t p.toNat = false ∧
      edsBit t p.toNat = false ∧ SameWordsBut [.fsel, .eds, .ren, .fen] s t ∧
      (∀ i, regWord t .fsel i = fieldAt s.params.fselInput p.toNat i (regWord s .fsel i)) ∧
      (∀ b ∈ [Bank.eds, Bank.ren, Bank.fen], ∀ i, regWord t b i = bitClearedAt p.toNat i (regWord s b i)) ∧
      ∀ q < s.params.nports, q ≠ p.toNat → PortUntouched q s t

/-- CLOSE of a port whose watch is Stopped, in Poll or in Clearing: K1 signals the stop, the watcher takes the steps it
has left (none; the stop step; the clear step and the stop step), and CLOSE's other seven micro-steps remove the watch and
leave the port as above (42_pin_handle.md R186, 43_edge_watch.md R227, R229). -/
def Obligations.CloseStopsWatch : Prop :=
  ∀ (p : Port) (s : State) (w : WatchState) (n : Nat), MayIssue (.closePin p) s → s.win = .mapped →
    p.toNat < s.params.nports → s.handle.lookup p.toNat ≠ none → s.busy.has p.toNat = false →
    s.watch.lookup p.toNat = some w → stepsToStop w.phase = some n →
    ∃ s1 s2 t, exec (.closePin p) s = .next s1 ∧ watcherRuns p.toNat n s1 s2 ∧ runs (.closePin p) 7 s2 t ∧
      Responds (.closePin p) .ok 0 s t ∧
      t.handle.lookup p.toNat = none ∧ t.busy.has p.toNat = false ∧ t.watch.lookup p.toNat = none ∧
      t.win = s.win ∧ SameOtherPorts p.toNat s t ∧ SameOutside s t ∧
      field t p.toNat = s.params.fselInput ∧ renBit t p.toNat = false ∧ fenBit t p.toNat = false ∧
      edsBit t p.toNat = false ∧ SameWordsBut [.fsel, .eds, .ren, .fen] s t ∧
      (∀ i, regWord t .fsel i = fieldAt s.params.fselInput p.toNat i (regWord s .fsel i)) ∧
      (∀ b ∈ [Bank.eds, Bank.ren, Bank.fen], ∀ i, regWord t b i = bitClearedAt p.toNat i (regWord s b i)) ∧
      ∀ q < s.params.nports, q ≠ p.toNat → PortUntouched q s t

/-- CLOSE and ENDWATCH with a failed window: no register is written, and the failure is the response. CLOSE releases the
handle, of a port with no watch, and of one whose watch is Stopped or in Poll, which it removes; ENDWATCH of such a watch
removes it and keeps the handle (42_pin_handle.md R186, 43_edge_watch.md R223, 60_exceptions.md R256,
70_reset_and_hazards.md R303). -/
def Obligations.CloseAndEndWatchWithFailedWindow : Prop :=
  ∀ (p : Port) (s : State) (e : WindowError), s.win = .failed e →
    p.toNat < s.params.nports → s.handle.lookup p.toNat ≠ none → s.busy.has p.toNat = false →
    (MayIssue (.closePin p) s → s.watch.lookup p.toNat = none →
      ∃ s1 t, exec (.closePin p) s = .next s1 ∧ runs (.closePin p) 5 s1 t ∧
        Responds (.closePin p) (windowStatus e) 0 s t ∧ t.handle.lookup p.toNat = none ∧
        t.busy.has p.toNat = false ∧ t.watch = s.watch ∧ t.regs = s.regs ∧ t.win = s.win ∧
        SameOtherPorts p.toNat s t ∧ SameOutside s t) ∧
    (∀ w n, MayIssue (.closePin p) s → s.watch.lookup p.toNat = some w → w.phase ≠ .clearing →
      stepsToStop w.phase = some n →
      ∃ s1 s2 t, exec (.closePin p) s = .next s1 ∧ watcherRuns p.toNat n s1 s2 ∧ runs (.closePin p) 7 s2 t ∧
        Responds (.closePin p) (windowStatus e) 0 s t ∧ t.handle.lookup p.toNat = none ∧
        t.busy.has p.toNat = false ∧ t.watch.lookup p.toNat = none ∧ t.regs = s.regs ∧ t.win = s.win ∧
        SameOtherPorts p.toNat s t ∧ SameOutside s t) ∧
    (∀ w n, MayIssue (.endWatch p) s → s.watch.lookup p.toNat = some w → w.phase ≠ .clearing →
      stepsToStop w.phase = some n →
      ∃ s1 s2 t, exec (.endWatch p) s = .next s1 ∧ watcherRuns p.toNat n s1 s2 ∧ runs (.endWatch p) 5 s2 t ∧
        Responds (.endWatch p) (windowStatus e) 0 s t ∧ t.watch.lookup p.toNat = none ∧ t.handle = s.handle ∧
        t.busy = s.busy ∧ t.regs = s.regs ∧ t.win = s.win ∧ SameOtherPorts p.toNat s t ∧ SameOutside s t)

/-! ### Watch commands -/

/-- BEGINWATCH on an open Input port with no watch, not interrupted: it discards a stale event, sets the enables of its
kind and starts the watcher in phase Poll (43_edge_watch.md R221, R222). -/
def Obligations.BeginWatchCompletes : Prop :=
  ∀ (k : EdgeKind) (p : Port) (cb : Word) (s : State), MayIssue (.beginWatch k p cb) s → s.win = .mapped →
    p.toNat < s.params.nports → s.handle.lookup p.toNat = some .input → s.busy.has p.toNat = false →
    s.watch.lookup p.toNat = none →
    ∃ s1 t, exec (.beginWatch k p cb) s = .next s1 ∧
      runs (.beginWatch k p cb) (match k with | .both => 4 | _ => 3) s1 t ∧
      Responds (.beginWatch k p cb) .ok 0 s t ∧
      t.watch.lookup p.toNat = some ⟨k, cb, .poll, false, 0⟩ ∧ hasWatcher t p.toNat = true ∧
      t.handle = s.handle ∧ t.busy = s.busy ∧ t.win = s.win ∧ SameOtherPorts p.toNat s t ∧ SameOutside s t ∧
      edsBit t p.toNat = false ∧
      renBit t p.toNat = (decide (k = .rising ∨ k = .both) || renBit s p.toNat) ∧
      fenBit t p.toNat = (decide (k = .falling ∨ k = .both) || fenBit s p.toNat) ∧
      SameWordsBut [.eds, .ren, .fen] s t ∧
      (∀ i, regWord t .eds i = bitClearedAt p.toNat i (regWord s .eds i)) ∧
      (∀ i, regWord t .ren i =
        if k = .rising ∨ k = .both then bitSetAt p.toNat i (regWord s .ren i) else regWord s .ren i) ∧
      (∀ i, regWord t .fen i =
        if k = .falling ∨ k = .both then bitSetAt p.toNat i (regWord s .fen i) else regWord s .fen i) ∧
      ∀ q < s.params.nports, q ≠ p.toNat → PortUntouched q s t

/-- The errors of BEGINWATCH on a mapped window, in their order: the range, a port that is not Open, an Output handle,
a watch that is there already (43_edge_watch.md R221, 60_exceptions.md R254, R259). -/
def Obligations.BeginWatchRaises : Prop :=
  ∀ (k : EdgeKind) (p : Port) (cb : Word) (s : State), MayIssue (.beginWatch k p cb) s → s.win = .mapped →
    (s.params.nports ≤ p.toNat →
      ∃ t, exec (.beginWatch k p cb) s = .next t ∧ Responds (.beginWatch k p cb) .outOfRange 0 s t ∧
        Unchanged s t) ∧
    (p.toNat < s.params.nports → (s.handle.lookup p.toNat ≠ some .input ∨ s.busy.has p.toNat = true) →
      ∃ t, exec (.beginWatch k p cb) s = .next t ∧ Responds (.beginWatch k p cb) .invalidOperation 0 s t ∧
        Unchanged s t) ∧
    (p.toNat < s.params.nports → s.handle.lookup p.toNat = some .input → s.busy.has p.toNat = false →
      s.watch.lookup p.toNat ≠ none →
      ∃ t, exec (.beginWatch k p cb) s = .next t ∧ Responds (.beginWatch k p cb) .alreadyWatching 0 s t ∧
        Unchanged s t)

/-- A window failure in B2, B3 or B4 removes the watch, writes no register and is the response (43_edge_watch.md R221,
60_exceptions.md R256). -/
def Obligations.BeginWatchUndone : Prop :=
  ∀ (k : EdgeKind) (p : Port) (cb : Word) (m : MicroStep) (loc : Locals) (s : State),
    IsAt (.beginWatch k p cb) m loc s → (m = .b2 ∨ m = .b3 ∨ m = .b4) → s.win ≠ .mapped →
    ∃ e t, windowError s.win = some e ∧ exec (.beginWatch k p cb) s = .next t ∧
      Responds (.beginWatch k p cb) e 0 s t ∧ t.watch.lookup p.toNat = none ∧ t.regs = s.regs ∧ t.win = s.win ∧
      t.handle = s.handle ∧ t.busy = s.busy ∧ SameOtherPorts p.toNat s t ∧ SameOutside s t

/-- ENDWATCH of a port whose watch is Stopped (by another ENDWATCH that is under way), in Poll or in Clearing: E1 signals
the stop, the watcher takes the steps it has left, and ENDWATCH's other five micro-steps clear both enables and the EDS
bit, remove the watch and deliver OK (43_edge_watch.md R223 to R225, R227, R229; 70_reset_and_hazards.md R302). -/
def Obligations.EndWatchCompletes : Prop :=
  ∀ (p : Port) (s : State) (w : WatchState) (n : Nat), MayIssue (.endWatch p) s → s.win = .mapped →
    p.toNat < s.params.nports → s.handle.lookup p.toNat ≠ none → s.busy.has p.toNat = false →
    s.watch.lookup p.toNat = some w → stepsToStop w.phase = some n →
    ∃ s1 s2 t, exec (.endWatch p) s = .next s1 ∧ watcherRuns p.toNat n s1 s2 ∧ runs (.endWatch p) 5 s2 t ∧
      Responds (.endWatch p) .ok 0 s t ∧ t.watch.lookup p.toNat = none ∧ t.handle = s.handle ∧ t.busy = s.busy ∧
      t.win = s.win ∧ SameOtherPorts p.toNat s t ∧ SameOutside s t ∧ renBit t p.toNat = false ∧
      fenBit t p.toNat = false ∧ edsBit t p.toNat = false ∧ SameWordsBut [.eds, .ren, .fen] s t ∧
      (∀ b ∈ [Bank.eds, Bank.ren, Bank.fen], ∀ i, regWord t b i = bitClearedAt p.toNat i (regWord s b i)) ∧
      ∀ q < s.params.nports, q ≠ p.toNat → PortUntouched q s t

/-- The first check of CLOSE and ENDWATCH: an unmapped window, a port that does not exist, a port that is not Open, and
for ENDWATCH no watch (42_pin_handle.md R186, 43_edge_watch.md R223, 60_exceptions.md R259). -/
def Obligations.CloseAndEndWatchRaise : Prop :=
  ∀ (i : Instr) (p : Port) (s : State), MayIssue i s → (i = .closePin p ∨ i = .endWatch p) →
    (s.win = .unmapped → ∃ t, exec i s = .next t ∧ Responds i .invalidOperation 0 s t ∧ Unchanged s t) ∧
    (s.win ≠ .unmapped → s.params.nports ≤ p.toNat →
      ∃ t, exec i s = .next t ∧ Responds i .outOfRange 0 s t ∧ Unchanged s t) ∧
    (s.win ≠ .unmapped → p.toNat < s.params.nports →
      (s.handle.lookup p.toNat = none ∨ s.busy.has p.toNat = true ∨
        (i = .endWatch p ∧ s.watch.lookup p.toNat = none)) →
      ∃ t, exec i s = .next t ∧ Responds i .invalidOperation 0 s t ∧ Unchanged s t)

/-- StopWatch goes on exactly when the watch is gone or Stopped; until then the caller is held (43_edge_watch.md R224).
That a held StopWatch is a micro-step which changes nothing, where R224 has no step at all, is the model's choice
(log 6). -/
def Obligations.StopWatchHoldsCaller : Prop :=
  ∀ (i : Instr) (p : Port) (loc : Locals) (s : State), (i = .closePin p ∨ i = .endWatch p) → IsAt i .stop loc s →
    ((s.watch.lookup p.toNat = none ∨ ∃ w, s.watch.lookup p.toNat = some w ∧ w.phase = .stopped) →
      ∃ t, exec i s = .next t ∧ GoesOn i .d1 loc s t ∧ Unchanged s t) ∧
    ((∃ w, s.watch.lookup p.toNat = some w ∧ w.phase ≠ .stopped) → exec i s = .next s)

/-- An ENDWATCH or CLOSE of a port from the port's own callback stands in StopWatch for ever: no step moves it, ends the
callback or answers it (70_reset_and_hazards.md R296). -/
def Obligations.OwnCallbackStuck : Prop :=
  ∀ (i : Instr) (p : Port) (loc : Locals) (n : Nat) (w : WatchState) (s t : State), Lifecycle s →
    (i = .closePin p ∨ i = .endWatch p) → s.caller (.cb p.toNat) = some (.busy i .stop loc) →
    s.watch.lookup p.toNat = some w → w.phase = .inCallback n → step s = .next t →
    t.caller (.cb p.toNat) = some (.busy i .stop loc) ∧
    (∃ w', t.watch.lookup p.toNat = some w' ∧ w'.phase = .inCallback n) ∧
    ∀ cmd status value, t.log ≠ s.log ++ [.resp (.cb p.toNat) cmd status value]

/-! ### The watcher, the pads and the host -/

/-- The stop step: in phase Poll with the stop signal set, the watcher ends and accesses no register
(43_edge_watch.md R227). -/
def Obligations.WatcherStopStep : Prop :=
  ∀ (s : State) (p : Nat) (w : WatchState), s.params.legal → s.nextInput = .watcher p →
    s.watch.lookup p = some w → w.phase = .poll → w.stop = true →
    ∃ t, step s = .next t ∧ t.watch.lookup p = some { w with phase := .stopped } ∧ hasWatcher t p = false ∧
      (∀ q, q ≠ p → t.watch.lookup q = s.watch.lookup q) ∧ t.regs = s.regs ∧ t.log = s.log ∧ t.win = s.win ∧
      t.handle = s.handle ∧ t.busy = s.busy ∧ t.ext = s.ext ∧ ∀ c, t.caller c = s.caller c

/-- The poll step: with the window mapped it dispatches when the port's EDS bit is 1 and changes nothing when it is 0;
otherwise the watch fails. EDS is not cleared by it (43_edge_watch.md R228, R231). -/
def Obligations.WatcherPollStep : Prop :=
  ∀ (s : State) (p : Nat) (w : WatchState), s.params.legal → p < s.params.nports → s.nextInput = .watcher p →
    s.watch.lookup p = some w → w.phase = .poll → w.stop = false →
    ∃ t, step s = .next t ∧ t.regs = s.regs ∧ t.ext = s.ext ∧ t.win = s.win ∧ t.handle = s.handle ∧
      t.busy = s.busy ∧ (∀ q, q ≠ p → t.watch.lookup q = s.watch.lookup q) ∧
      (∀ c, c ≠ .cb p → t.caller c = s.caller c) ∧
      (s.win ≠ .mapped →
        t.log = s.log ++ [.watchFailed p] ∧ t.watch.lookup p = none ∧ t.caller (.cb p) = s.caller (.cb p)) ∧
      (s.win = .mapped → edsBit s p = true →
        t.log = s.log ++ [.callback p w.cb (w.seq + 1)] ∧
        t.watch.lookup p = some { w with seq := w.seq + 1, phase := .inCallback (w.seq + 1) } ∧
        t.caller (.cb p) = some .idle) ∧
      (s.win = .mapped → edsBit s p = false →
        t.log = s.log ∧ t.watch.lookup p = some w ∧ t.caller (.cb p) = s.caller (.cb p))

/-- The clear step: it writes 1 to the port's EDS bit and goes back to Poll, even with the stop signal set; with the
window gone the watch fails (43_edge_watch.md R229, R231). -/
def Obligations.WatcherClearStep : Prop :=
  ∀ (s : State) (p : Nat) (w : WatchState), s.params.legal → p < s.params.nports → s.nextInput = .watcher p →
    s.watch.lookup p = some w → w.phase = .clearing →
    ∃ t, step s = .next t ∧ t.ext = s.ext ∧ t.win = s.win ∧ t.handle = s.handle ∧ t.busy = s.busy ∧
      (∀ c, t.caller c = s.caller c) ∧ (∀ q, q ≠ p → t.watch.lookup q = s.watch.lookup q) ∧
      SameWordsBut [.eds] s t ∧
      (s.win = .mapped →
        edsBit t p = false ∧ (∀ i, regWord t .eds i = bitClearedAt p i (regWord s .eds i)) ∧
        t.watch.lookup p = some { w with phase := .poll } ∧ t.log = s.log) ∧
      (s.win ≠ .mapped →
        t.regs = s.regs ∧ t.watch.lookup p = none ∧ t.log = s.log ++ [.watchFailed p])

/-- The callback return: enabled in phase InCallback while CB(p) is Idle; it removes CB(p) and goes to Clearing
(43_edge_watch.md R232). -/
def Obligations.CallbackReturnStep : Prop :=
  ∀ (s : State) (p n : Nat) (w : WatchState), s.params.legal → s.nextInput = .ret p →
    s.watch.lookup p = some w → w.phase = .inCallback n → s.caller (.cb p) = some .idle →
    ∃ t, step s = .next t ∧ t.caller (.cb p) = none ∧ t.watch.lookup p = some { w with phase := .clearing } ∧
      (∀ c, c ≠ .cb p → t.caller c = s.caller c) ∧ (∀ q, q ≠ p → t.watch.lookup q = s.watch.lookup q) ∧
      t.regs = s.regs ∧ t.ext = s.ext ∧ t.win = s.win ∧ t.handle = s.handle ∧ t.busy = s.busy ∧ t.log = s.log

/-- The pad step sets the outside level of the line, which is the pad level of a port that is not an output and leaves
an output's as it was, and the edge latch records every enabled edge (43_edge_watch.md R210, R211). -/
def Obligations.PadStepLatchesEdges : Prop :=
  ∀ (s : State) (p : Nat) (v : Bool), s.params.legal → p < s.params.nports → s.nextInput = .pad p v →
    ∃ t, step s = .next t ∧ t.ext.has p = v ∧ (∀ q, q ≠ p → t.ext.has q = s.ext.has q) ∧
      (field s p = s.params.fselOutput → pad t p = pad s p) ∧
      (field s p ≠ s.params.fselOutput → pad t p = v) ∧
      (∀ q < s.params.nports, edsBit t q =
        (edsBit s q || (!pad s q && pad t q && renBit s q) || (pad s q && !pad t q && fenBit s q))) ∧
      (∀ i j, s.params.nports ≤ 32 * i + j → (regWord t .eds i).getLsbD j = (regWord s .eds i).getLsbD j) ∧
      (∀ q < s.params.nports, q ≠ p → PortUntouched q s t) ∧ SameWordsBut [.eds] s t ∧ SameTables s t ∧
      t.log = s.log ∧ ∀ c, t.caller c = s.caller c

/-- The unexpected unmap makes the window fail with UnsupportedPlatform and keeps the registers (40_window.md R136). -/
def Obligations.UnmapFailsWindow : Prop :=
  ∀ s : State, s.params.legal → s.nextInput = .unmap → s.win = .mapped →
    ∃ t, step s = .next t ∧ t.win = .failed .unsupportedPlatform ∧ t.regs = s.regs ∧ t.handle = s.handle ∧
      t.busy = s.busy ∧ t.watch = s.watch ∧ t.ext = s.ext ∧ t.log = s.log ∧ ∀ c, t.caller c = s.caller c

/-! ### Rules over every step -/

/-- No step changes the Register Map (00_scope.md R9). -/
def Obligations.RegisterMapNeverChanges : Prop :=
  ∀ s t : State, step s = .next t → t.params = s.params

/-- The log only grows, by at most one event a step (10_state.md R41). -/
def Obligations.LogOnlyGrows : Prop :=
  ∀ s t : State, step s = .next t → ∃ l, t.log = s.log ++ l ∧ l.length ≤ 1

/-- A failed window stays failed, with the same error (10_state.md R36, 60_exceptions.md R253). -/
def Obligations.FailedWindowStays : Prop :=
  ∀ (s t : State) (e : WindowError), s.win = .failed e → step s = .next t → t.win = .failed e

/-- An EDS bit is set only by the edge latch: a bit that a step sets belongs to a port with an enabled edge in that step
(10_state.md R29, 43_edge_watch.md R211, R212). -/
def Obligations.EdsSetOnlyByEdges : Prop :=
  ∀ (s t : State) (p : Nat), p < s.params.nports → step s = .next t → edsBit s p = false → edsBit t p = true →
    (pad s p = false ∧ pad t p = true ∧ renBit s p = true) ∨
    (pad s p = true ∧ pad t p = false ∧ fenBit s p = true)

/-- A callback is invoked only by the poll step of a watch with no stop signal, on a mapped window with the port's EDS
bit 1, and with the next count. From a state that meets the invariants, the phase InCallback(n) is left only by `@ret p`,
for Clearing, and Clearing only by the watcher's own step, which clears the EDS bit and goes to Poll, or fails with the
window: so no two callbacks of one port overlap (10_state.md R39, 43_edge_watch.md R228 to R232). -/
def Obligations.CallbackOnlyFromPoll : Prop :=
  ∀ (s t : State) (p : Nat), p < s.params.nports → step s = .next t →
    (∀ n cb, t.log = s.log ++ [.callback p cb n] →
      ∃ w, s.watch.lookup p = some w ∧ w.phase = .poll ∧ w.stop = false ∧ w.cb = cb ∧ n = w.seq + 1 ∧
        s.win = .mapped ∧ edsBit s p = true ∧
        t.watch.lookup p = some { w with seq := n, phase := .inCallback n }) ∧
    (Lifecycle s → ∀ w n, s.watch.lookup p = some w → w.phase = .inCallback n →
      (∃ w', t.watch.lookup p = some w' ∧ w'.phase = .inCallback n ∧ w'.seq = w.seq ∧ w'.cb = w.cb) ∨
      (s.nextInput = .ret p ∧ t.watch.lookup p = some { w with phase := .clearing })) ∧
    (Lifecycle s → ∀ w, s.watch.lookup p = some w → w.phase = .clearing →
      (∃ w', t.watch.lookup p = some w' ∧ w'.phase = .clearing ∧ w'.seq = w.seq ∧ w'.cb = w.cb) ∨
      (s.nextInput = .watcher p ∧ s.win = .mapped ∧ edsBit t p = false ∧
        t.watch.lookup p = some { w with phase := .poll }) ∨
      (s.nextInput = .watcher p ∧ s.win ≠ .mapped ∧ t.watch.lookup p = none))

/-- A stopped watch takes no step: it stays stopped until it is removed, and no callback of its port is invoked
(43_edge_watch.md R224, R230; 70_reset_and_hazards.md R306). -/
def Obligations.StoppedWatchStaysStopped : Prop :=
  ∀ (s t : State) (p : Nat) (w : WatchState), Lifecycle s → s.watch.lookup p = some w → w.phase = .stopped →
    step s = .next t →
    (t.watch.lookup p = none ∨ ∃ w', t.watch.lookup p = some w' ∧ w'.phase = .stopped) ∧
    ∀ cb n, t.log ≠ s.log ++ [.callback p cb n]

/-- At the end of a run of a program, when Main has had every response, no CB(p) exists and no port has a watch, no
agent but the pads and the host's `@unmap` moves the block: every other choice that the program allows is a step that
changes nothing (70_reset_and_hazards.md R304). That a choice with no enabled step is such a step is the model's choice
(log 6). -/
def Obligations.QuiescentStepsChangeNothing : Prop :=
  ∀ (prog : List Command) (s : State), s.params.legal → Quiescent prog s → Admits prog s s.nextInput →
    (∀ p v, s.nextInput ≠ .pad p v) → s.nextInput ≠ .unmap →
    (∀ a, stepOf prog s a = none) ∧ ∃ t, step s = .next t ∧ Stutters s t

/-- Every step keeps the canonical form of the stored words and tables. -/
def Obligations.EveryStepKeepsCanonical : Prop :=
  ∀ s t : State, Canonical s → step s = .next t → Canonical t

/-- Every step keeps the invariants of 10_state.md R44 items 1, 2, 4 and 6, with what is known of every caller in a
command: the window stays mapped or failed while a handle is open, a watch has an open Input handle, no handle is open
beyond the ports, a port in transition has a handle, a callback caller exists exactly while its watch is in a callback,
and no two callers open, close or begin a watch of one port at a time. -/
def Obligations.EveryStepKeepsLifecycle : Prop :=
  ∀ s t : State, Lifecycle s → step s = .next t → Lifecycle t

/-- From a state that meets the invariants a step never faults, and it is refused only for a WR32 to an Unbanked offset
(60_exceptions.md R250, R257, R258; log 12). The model's own fault and refusals for a caller that may not take a
micro-step (log 10) do not occur. -/
def Obligations.StepStopsOnlyOnUnbankedWrite : Prop :=
  ∀ s : State, Lifecycle s →
    (∀ f, step s ≠ .fault f) ∧
    ∀ r, step s = .refused r → r = .unbankedWrite ∧
      ∃ c cmd off data, s.nextInput = .issue c cmd ∧ decode cmd = .ok (.wr32 off data) ∧
        decodeOffset s.params off.toNat = none
end

