-- ==== Sys2Proof/Laws/Bits.lean ====
section
/-! SUPPORT. What the words of Machine/Operands.lean hold, bit by bit. -/

namespace Sys2Proof.Machine

theorem wordOfBits_getLsbD (f : Nat → Bool) (n j : Nat) (hn : n ≤ 32) :
    (wordOfBits f n).getLsbD j = (decide (j < n) && f j) := by
  induction n with
  | zero => simp [wordOfBits]
  | succ n ih =>
    have h := ih (by omega)
    unfold wordOfBits
    split
    · rename_i hf
      rw [BitVec.getLsbD_or, h, BitVec.getLsbD_twoPow]
      by_cases hj : j = n
      · subst hj; simp [hf]; omega
      · have : (n == j) = false := by simpa using fun h => hj h.symm
        rcases Nat.lt_or_ge j n with hlt | hge
        · simp [hlt, Nat.lt_succ_of_lt hlt, Ne.symm hj]
        · simp [Nat.not_lt.2 hge, Ne.symm hj, show ¬ j < n + 1 by omega]
    · rename_i hf
      rw [h]
      by_cases hj : j = n
      · subst hj; simp [hf]
      · rcases Nat.lt_or_ge j n with hlt | hge
        · simp [hlt, Nat.lt_succ_of_lt hlt]
        · simp [Nat.not_lt.2 hge, show ¬ j < n + 1 by omega]

@[simp] theorem wordOf_getLsbD (f : Nat → Bool) (j : Nat) : (wordOf f).getLsbD j = (decide (j < 32) && f j) :=
  wordOfBits_getLsbD f 32 j (Nat.le_refl _)

/-- Two words with the same bits are the same. -/
theorem word_ext {v w : Word} (h : ∀ j < 32, v.getLsbD j = w.getLsbD j) : v = w :=
  BitVec.eq_of_getLsbD_eq h

theorem fillReserved_getLsbD (m w d : Word) (j : Nat) (hj : j < 32) :
    (fillReserved m w d).getLsbD j = if m.getLsbD j then w.getLsbD j else d.getLsbD j := by
  unfold fillReserved
  rw [BitVec.getLsbD_or, BitVec.getLsbD_and, BitVec.getLsbD_and, BitVec.getLsbD_not]
  cases m.getLsbD j <;> simp [hj]

theorem mergeValid_getLsbD (m old v : Word) (j : Nat) (hj : j < 32) :
    (mergeValid m old v).getLsbD j = if m.getLsbD j then v.getLsbD j else old.getLsbD j := by
  unfold mergeValid
  rw [BitVec.getLsbD_or, BitVec.getLsbD_and, BitVec.getLsbD_and, BitVec.getLsbD_not]
  cases m.getLsbD j <;> simp [hj]

/-- The drawn bits do not show in the valid ones (40_window.md R131). -/
@[simp] theorem fillReserved_and_mask (m w d : Word) : fillReserved m w d &&& m = w &&& m := by
  refine word_ext fun j hj => ?_
  rw [BitVec.getLsbD_and, fillReserved_getLsbD _ _ _ _ hj, BitVec.getLsbD_and]
  cases m.getLsbD j <;> simp

/-- A read-modify-write keeps nothing of the draw when `f` works bit by bit: only the valid bits are written. -/
theorem mergeValid_congr {m old v w : Word} (h : v &&& m = w &&& m) : mergeValid m old v = mergeValid m old w := by
  unfold mergeValid; rw [h]

@[simp] theorem validMask_getLsbD (P : Params) (i j : Nat) :
    (validMask P i).getLsbD j = (decide (j < 32) && decide (32 * i + j < P.nports)) := by
  simp [validMask]

@[simp] theorem validFieldMask_getLsbD (P : Params) (i j : Nat) :
    (validFieldMask P i).getLsbD j = (decide (j < 30) && decide (10 * i + j / 3 < P.nports)) := by
  simp only [validFieldMask, wordOf_getLsbD]
  rcases Nat.lt_or_ge j 30 with h | h
  · simp [h, show j < 32 by omega]
  · simp [Nat.not_lt.2 h]

/-- The bit of a valid port is a valid bit of its word. -/
theorem validMask_port (P : Params) (p : Nat) (h : p < P.nports) : (validMask P (p / 32)).getLsbD (p % 32) = true := by
  simp only [validMask_getLsbD, Bool.and_eq_true, decide_eq_true_eq]
  omega

theorem validFieldMask_port (P : Params) (p k : Nat) (h : p < P.nports) (hk : k < 3) :
    (validFieldMask P (p / 10)).getLsbD (fselShift p + k) = true := by
  simp only [validFieldMask_getLsbD, fselShift, Bool.and_eq_true, decide_eq_true_eq]
  omega

theorem portBit_getLsbD (p j : Nat) : (portBit p).getLsbD j = decide (j = p % 32) := by
  simp only [portBit, BitVec.getLsbD_twoPow]
  by_cases h : j = p % 32
  · subst h; simp [Nat.mod_lt]
  · simp [h, Ne.symm h]

theorem fselMask_getLsbD (p j : Nat) :
    (fselMask p).getLsbD j = decide (fselShift p ≤ j ∧ j < fselShift p + 3) := by
  have hs : fselShift p ≤ 27 := by unfold fselShift; omega
  unfold fselMask
  rw [BitVec.getLsbD_shiftLeft]
  rcases Nat.lt_or_ge j (fselShift p) with h | h
  · simp [h, Nat.not_le.2 h]
  · rcases Nat.lt_or_ge j 32 with h32 | h32
    · have h7 : (0b111 : Word).getLsbD (j - fselShift p) = decide (j - fselShift p < 3) := by
        have : j - fselShift p < 32 := by omega
        generalize j - fselShift p = k at this
        revert this
        revert k
        decide
      rw [h7]
      simp only [h32, decide_true, Nat.not_lt.2 h, decide_false, Bool.not_false, Bool.true_and]
      congr 1
      simp only [eq_iff_iff]
      omega
    · simp [Nat.not_lt.2 h32]
      omega

theorem insertField_getLsbD (p : Nat) (code : BitVec 3) (w : Word) (j : Nat) (hj : j < 32) :
    (insertField p code w).getLsbD j =
      if fselShift p ≤ j ∧ j < fselShift p + 3 then code.getLsbD (j - fselShift p) else w.getLsbD j := by
  unfold insertField
  rw [BitVec.getLsbD_or, BitVec.getLsbD_and, BitVec.getLsbD_not, fselMask_getLsbD, BitVec.getLsbD_shiftLeft,
    BitVec.getLsbD_setWidth]
  by_cases h : fselShift p ≤ j ∧ j < fselShift p + 3
  · simp [h, hj, show j - fselShift p < 32 by omega]
  · rcases Nat.lt_or_ge j (fselShift p) with h' | h'
    · simp [h', hj, Nat.not_le.2 h']
    · have : 3 ≤ j - fselShift p := by omega
      simp [h, hj, BitVec.getLsbD_of_ge _ _ this]

theorem extractField_getLsbD (p : Nat) (w : Word) (k : Nat) :
    (extractField p w).getLsbD k = (decide (k < 3) && w.getLsbD (fselShift p + k)) := by
  simp [extractField]

/-- A field read back is the field written (41_codec.md R157, R158). -/
@[simp] theorem extractField_insertField (p : Nat) (code : BitVec 3) (w : Word) :
    extractField p (insertField p code w) = code := by
  have hs : fselShift p ≤ 27 := by unfold fselShift; omega
  refine BitVec.eq_of_getLsbD_eq fun k hk => ?_
  rw [extractField_getLsbD, insertField_getLsbD _ _ _ _ (by omega)]
  simp [hk]

/-- Another port's field of the same word is kept. -/
theorem extractField_insertField_of_ne (p q : Nat) (code : BitVec 3) (w : Word) (h : p % 10 ≠ q % 10) :
    extractField q (insertField p code w) = extractField q w := by
  have hs : fselShift q ≤ 27 := by unfold fselShift; omega
  refine BitVec.eq_of_getLsbD_eq fun k hk => ?_
  rw [extractField_getLsbD, extractField_getLsbD, insertField_getLsbD _ _ _ _ (by omega), if_neg]
  unfold fselShift
  omega

theorem insertField_and_mask (m : Word) (p : Nat) (code : BitVec 3) {v w : Word} (h : v &&& m = w &&& m) :
    insertField p code v &&& m = insertField p code w &&& m := by
  refine word_ext fun j hj => ?_
  have hb : (v.getLsbD j && m.getLsbD j) = (w.getLsbD j && m.getLsbD j) := by
    rw [← BitVec.getLsbD_and, ← BitVec.getLsbD_and, h]
  rw [BitVec.getLsbD_and, BitVec.getLsbD_and, insertField_getLsbD _ _ _ _ hj, insertField_getLsbD _ _ _ _ hj]
  split
  · rfl
  · exact hb

theorem or_and_mask (m b : Word) {v w : Word} (h : v &&& m = w &&& m) : (v ||| b) &&& m = (w ||| b) &&& m := by
  refine word_ext fun j _ => ?_
  have hb : (v.getLsbD j && m.getLsbD j) = (w.getLsbD j && m.getLsbD j) := by
    rw [← BitVec.getLsbD_and, ← BitVec.getLsbD_and, h]
  simp only [BitVec.getLsbD_and, BitVec.getLsbD_or, Bool.and_or_distrib_right, hb]

theorem and_and_mask (m b : Word) {v w : Word} (h : v &&& m = w &&& m) : (v &&& b) &&& m = (w &&& b) &&& m := by
  rw [BitVec.and_assoc, BitVec.and_comm b m, ← BitVec.and_assoc, h, BitVec.and_assoc, BitVec.and_comm m b,
    ← BitVec.and_assoc]

@[simp] theorem bitValue_true : bitValue true = 1 := rfl
@[simp] theorem bitValue_false : bitValue false = 0 := rfl

end Sys2Proof.Machine
end

