-- ==== Sys2Proof/Laws/Encoding.lean ====
section
/-! SUPPORT. The fields of a command word (30_encoding.md R94): reading a field of a word put together from fields, and
cutting a word by a mask put together the same way. -/

namespace Sys2Proof

theorem commandWord_getLsbD (op : BitVec 6) (a : BitVec 3) (off : BitVec 12) (port : Port) (j : Nat) :
    (commandWord op a off port).getLsbD j =
      if j < 8 then port.getLsbD j
      else if j < 20 then off.getLsbD (j - 8)
      else if j < 23 then false
      else if j < 26 then a.getLsbD (j - 23)
      else op.getLsbD (j - 26) := by
  unfold commandWord
  rw [BitVec.getLsbD_append, BitVec.getLsbD_append, BitVec.getLsbD_append, BitVec.getLsbD_append]
  by_cases h8 : j < 8
  · simp [h8]
  by_cases h20 : j < 20
  · simp [h8, h20, show j - 8 < 12 by omega]
  by_cases h23 : j < 23
  · simp [h8, h20, h23, show ¬ j - 8 < 12 by omega, show j - 8 - 12 < 3 by omega]
  by_cases h26 : j < 26
  · simp [h8, h20, h23, h26, show ¬ j - 8 < 12 by omega, show ¬ j - 8 - 12 < 3 by omega,
      show j - 8 - 12 - 3 = j - 23 by omega]
    omega
  · simp [h8, h20, h23, h26, show ¬ j - 8 < 12 by omega, show ¬ j - 8 - 12 < 3 by omega,
      show ¬ j - 8 - 12 - 3 < 3 by omega, show j - 8 - 12 - 3 - 3 = j - 26 by omega]

@[simp] theorem opField_commandWord (op : BitVec 6) (a : BitVec 3) (off : BitVec 12) (port : Port) :
    opField (commandWord op a off port) = op := by
  refine BitVec.eq_of_getLsbD_eq fun j hj => ?_
  simp only [opField, BitVec.getLsbD_extractLsb', commandWord_getLsbD]
  simp [hj, show ¬ 26 + j < 8 by omega, show ¬ 26 + j < 20 by omega, show ¬ 26 + j < 23 by omega]

@[simp] theorem argField_commandWord (op : BitVec 6) (a : BitVec 3) (off : BitVec 12) (port : Port) :
    argField (commandWord op a off port) = a := by
  refine BitVec.eq_of_getLsbD_eq fun j hj => ?_
  simp only [argField, BitVec.getLsbD_extractLsb', commandWord_getLsbD]
  simp [hj, show ¬ 23 + j < 8 by omega, show ¬ 23 + j < 20 by omega, show 23 + j < 26 by omega]

@[simp] theorem offField_commandWord (op : BitVec 6) (a : BitVec 3) (off : BitVec 12) (port : Port) :
    offField (commandWord op a off port) = off := by
  refine BitVec.eq_of_getLsbD_eq fun j hj => ?_
  simp only [offField, BitVec.getLsbD_extractLsb', commandWord_getLsbD]
  simp [hj, show 8 + j < 20 by omega]

@[simp] theorem portField_commandWord (op : BitVec 6) (a : BitVec 3) (off : BitVec 12) (port : Port) :
    portField (commandWord op a off port) = port := by
  refine BitVec.eq_of_getLsbD_eq fun j hj => ?_
  simp only [portField, BitVec.getLsbD_extractLsb', commandWord_getLsbD]
  simp [hj]

/-- A mask put together from field masks acts on each field. -/
theorem commandWord_and (op op' : BitVec 6) (a a' : BitVec 3) (off off' : BitVec 12) (port port' : Port) :
    commandWord op a off port &&& commandWord op' a' off' port' =
      commandWord (op &&& op') (a &&& a') (off &&& off') (port &&& port') := by
  refine BitVec.eq_of_getLsbD_eq fun j _ => ?_
  rw [BitVec.getLsbD_and, commandWord_getLsbD, commandWord_getLsbD, commandWord_getLsbD]
  split
  · rw [BitVec.getLsbD_and]
  split
  · rw [BitVec.getLsbD_and]
  split
  · rfl
  split
  · rw [BitVec.getLsbD_and]
  · rw [BitVec.getLsbD_and]

/-- The mask of the reserved bits 22 to 20 (30_encoding.md R94). -/
def rsvMask : Word := 0x00700000

/-- A mask that also tests the reserved bits finds them 0 in a word put together from fields. -/
theorem commandWord_and_rsv (op op' : BitVec 6) (a a' : BitVec 3) (off off' : BitVec 12) (port port' : Port) :
    commandWord op a off port &&& (commandWord op' a' off' port' ||| rsvMask) =
      commandWord (op &&& op') (a &&& a') (off &&& off') (port &&& port') := by
  have hr : commandWord op a off port &&& rsvMask = 0 := by
    refine BitVec.eq_of_getLsbD_eq fun j hj => ?_
    rw [BitVec.getLsbD_and, commandWord_getLsbD]
    have hm : ∀ j : Fin 32, rsvMask.getLsbD j.1 = decide (20 ≤ j.1 ∧ j.1 < 23) := by decide
    rw [hm ⟨j, hj⟩]
    by_cases h : 20 ≤ j ∧ j < 23
    · simp [h.2, show ¬ j < 8 by omega, show ¬ j < 20 by omega]
    · simp [h]
  rw [← commandWord_and, BitVec.and_or_distrib_left, hr]
  exact BitVec.or_zero

end Sys2Proof
end

