-- ==== Sys2Proof/Laws/State.lean ====
section
/-! SUPPORT. What each update of the state does to each field: one lemma per field per update. -/

namespace Sys2Proof.Machine.State

@[simp] theorem setRegs_params (s : State) (r : RegisterState) : (s.setRegs r).params = s.params := rfl
@[simp] theorem setRegs_regs (s : State) (r : RegisterState) : (s.setRegs r).regs = r := rfl
@[simp] theorem setRegs_ext (s : State) (r : RegisterState) : (s.setRegs r).ext = s.ext := rfl
@[simp] theorem setRegs_win (s : State) (r : RegisterState) : (s.setRegs r).win = s.win := rfl
@[simp] theorem setRegs_handle (s : State) (r : RegisterState) : (s.setRegs r).handle = s.handle := rfl
@[simp] theorem setRegs_busy (s : State) (r : RegisterState) : (s.setRegs r).busy = s.busy := rfl
@[simp] theorem setRegs_watch (s : State) (r : RegisterState) : (s.setRegs r).watch = s.watch := rfl
@[simp] theorem setRegs_main (s : State) (r : RegisterState) : (s.setRegs r).main = s.main := rfl
@[simp] theorem setRegs_callbacks (s : State) (r : RegisterState) : (s.setRegs r).callbacks = s.callbacks := rfl
@[simp] theorem setRegs_log (s : State) (r : RegisterState) : (s.setRegs r).log = s.log := rfl
@[simp] theorem setRegs_inputs (s : State) (r : RegisterState) : (s.setRegs r).inputs = s.inputs := rfl
@[simp] theorem setRegs_mapAnswers (s : State) (r : RegisterState) : (s.setRegs r).mapAnswers = s.mapAnswers := rfl
@[simp] theorem setRegs_active (s : State) (r : RegisterState) : (s.setRegs r).active = s.active := rfl
@[simp] theorem setRegs_draws (s : State) (r : RegisterState) : (s.setRegs r).draws = s.draws := rfl

@[simp] theorem setExt_params (s : State) (e : PortSet) : (s.setExt e).params = s.params := rfl
@[simp] theorem setExt_regs (s : State) (e : PortSet) : (s.setExt e).regs = s.regs := rfl
@[simp] theorem setExt_ext (s : State) (e : PortSet) : (s.setExt e).ext = e := rfl
@[simp] theorem setExt_win (s : State) (e : PortSet) : (s.setExt e).win = s.win := rfl
@[simp] theorem setExt_handle (s : State) (e : PortSet) : (s.setExt e).handle = s.handle := rfl
@[simp] theorem setExt_busy (s : State) (e : PortSet) : (s.setExt e).busy = s.busy := rfl
@[simp] theorem setExt_watch (s : State) (e : PortSet) : (s.setExt e).watch = s.watch := rfl
@[simp] theorem setExt_main (s : State) (e : PortSet) : (s.setExt e).main = s.main := rfl
@[simp] theorem setExt_callbacks (s : State) (e : PortSet) : (s.setExt e).callbacks = s.callbacks := rfl
@[simp] theorem setExt_log (s : State) (e : PortSet) : (s.setExt e).log = s.log := rfl
@[simp] theorem setExt_inputs (s : State) (e : PortSet) : (s.setExt e).inputs = s.inputs := rfl
@[simp] theorem setExt_mapAnswers (s : State) (e : PortSet) : (s.setExt e).mapAnswers = s.mapAnswers := rfl
@[simp] theorem setExt_active (s : State) (e : PortSet) : (s.setExt e).active = s.active := rfl
@[simp] theorem setExt_draws (s : State) (e : PortSet) : (s.setExt e).draws = s.draws := rfl

@[simp] theorem setWin_params (s : State) (w : WindowState) : (s.setWin w).params = s.params := rfl
@[simp] theorem setWin_regs (s : State) (w : WindowState) : (s.setWin w).regs = s.regs := rfl
@[simp] theorem setWin_ext (s : State) (w : WindowState) : (s.setWin w).ext = s.ext := rfl
@[simp] theorem setWin_win (s : State) (w : WindowState) : (s.setWin w).win = w := rfl
@[simp] theorem setWin_handle (s : State) (w : WindowState) : (s.setWin w).handle = s.handle := rfl
@[simp] theorem setWin_busy (s : State) (w : WindowState) : (s.setWin w).busy = s.busy := rfl
@[simp] theorem setWin_watch (s : State) (w : WindowState) : (s.setWin w).watch = s.watch := rfl
@[simp] theorem setWin_main (s : State) (w : WindowState) : (s.setWin w).main = s.main := rfl
@[simp] theorem setWin_callbacks (s : State) (w : WindowState) : (s.setWin w).callbacks = s.callbacks := rfl
@[simp] theorem setWin_log (s : State) (w : WindowState) : (s.setWin w).log = s.log := rfl
@[simp] theorem setWin_inputs (s : State) (w : WindowState) : (s.setWin w).inputs = s.inputs := rfl
@[simp] theorem setWin_mapAnswers (s : State) (w : WindowState) : (s.setWin w).mapAnswers = s.mapAnswers := rfl
@[simp] theorem setWin_active (s : State) (w : WindowState) : (s.setWin w).active = s.active := rfl
@[simp] theorem setWin_draws (s : State) (w : WindowState) : (s.setWin w).draws = s.draws := rfl

@[simp] theorem setHandle_params (s : State) (p : Nat) (m : Option Mode) : (s.setHandle p m).params = s.params := rfl
@[simp] theorem setHandle_regs (s : State) (p : Nat) (m : Option Mode) : (s.setHandle p m).regs = s.regs := rfl
@[simp] theorem setHandle_ext (s : State) (p : Nat) (m : Option Mode) : (s.setHandle p m).ext = s.ext := rfl
@[simp] theorem setHandle_win (s : State) (p : Nat) (m : Option Mode) : (s.setHandle p m).win = s.win := rfl
@[simp] theorem setHandle_handle (s : State) (p : Nat) (m : Option Mode) : (s.setHandle p m).handle = s.handle.put p m := rfl
@[simp] theorem setHandle_busy (s : State) (p : Nat) (m : Option Mode) : (s.setHandle p m).busy = s.busy := rfl
@[simp] theorem setHandle_watch (s : State) (p : Nat) (m : Option Mode) : (s.setHandle p m).watch = s.watch := rfl
@[simp] theorem setHandle_main (s : State) (p : Nat) (m : Option Mode) : (s.setHandle p m).main = s.main := rfl
@[simp] theorem setHandle_callbacks (s : State) (p : Nat) (m : Option Mode) : (s.setHandle p m).callbacks = s.callbacks := rfl
@[simp] theorem setHandle_log (s : State) (p : Nat) (m : Option Mode) : (s.setHandle p m).log = s.log := rfl
@[simp] theorem setHandle_inputs (s : State) (p : Nat) (m : Option Mode) : (s.setHandle p m).inputs = s.inputs := rfl
@[simp] theorem setHandle_mapAnswers (s : State) (p : Nat) (m : Option Mode) : (s.setHandle p m).mapAnswers = s.mapAnswers := rfl
@[simp] theorem setHandle_active (s : State) (p : Nat) (m : Option Mode) : (s.setHandle p m).active = s.active := rfl
@[simp] theorem setHandle_draws (s : State) (p : Nat) (m : Option Mode) : (s.setHandle p m).draws = s.draws := rfl

@[simp] theorem setBusy_params (s : State) (p : Nat) (b : Bool) : (s.setBusy p b).params = s.params := rfl
@[simp] theorem setBusy_regs (s : State) (p : Nat) (b : Bool) : (s.setBusy p b).regs = s.regs := rfl
@[simp] theorem setBusy_ext (s : State) (p : Nat) (b : Bool) : (s.setBusy p b).ext = s.ext := rfl
@[simp] theorem setBusy_win (s : State) (p : Nat) (b : Bool) : (s.setBusy p b).win = s.win := rfl
@[simp] theorem setBusy_handle (s : State) (p : Nat) (b : Bool) : (s.setBusy p b).handle = s.handle := rfl
@[simp] theorem setBusy_busy (s : State) (p : Nat) (b : Bool) : (s.setBusy p b).busy = s.busy.mark p b := rfl
@[simp] theorem setBusy_watch (s : State) (p : Nat) (b : Bool) : (s.setBusy p b).watch = s.watch := rfl
@[simp] theorem setBusy_main (s : State) (p : Nat) (b : Bool) : (s.setBusy p b).main = s.main := rfl
@[simp] theorem setBusy_callbacks (s : State) (p : Nat) (b : Bool) : (s.setBusy p b).callbacks = s.callbacks := rfl
@[simp] theorem setBusy_log (s : State) (p : Nat) (b : Bool) : (s.setBusy p b).log = s.log := rfl
@[simp] theorem setBusy_inputs (s : State) (p : Nat) (b : Bool) : (s.setBusy p b).inputs = s.inputs := rfl
@[simp] theorem setBusy_mapAnswers (s : State) (p : Nat) (b : Bool) : (s.setBusy p b).mapAnswers = s.mapAnswers := rfl
@[simp] theorem setBusy_active (s : State) (p : Nat) (b : Bool) : (s.setBusy p b).active = s.active := rfl
@[simp] theorem setBusy_draws (s : State) (p : Nat) (b : Bool) : (s.setBusy p b).draws = s.draws := rfl

@[simp] theorem setWatch_params (s : State) (p : Nat) (w : Option WatchState) : (s.setWatch p w).params = s.params := rfl
@[simp] theorem setWatch_regs (s : State) (p : Nat) (w : Option WatchState) : (s.setWatch p w).regs = s.regs := rfl
@[simp] theorem setWatch_ext (s : State) (p : Nat) (w : Option WatchState) : (s.setWatch p w).ext = s.ext := rfl
@[simp] theorem setWatch_win (s : State) (p : Nat) (w : Option WatchState) : (s.setWatch p w).win = s.win := rfl
@[simp] theorem setWatch_handle (s : State) (p : Nat) (w : Option WatchState) : (s.setWatch p w).handle = s.handle := rfl
@[simp] theorem setWatch_busy (s : State) (p : Nat) (w : Option WatchState) : (s.setWatch p w).busy = s.busy := rfl
@[simp] theorem setWatch_watch (s : State) (p : Nat) (w : Option WatchState) : (s.setWatch p w).watch = s.watch.put p w := rfl
@[simp] theorem setWatch_main (s : State) (p : Nat) (w : Option WatchState) : (s.setWatch p w).main = s.main := rfl
@[simp] theorem setWatch_callbacks (s : State) (p : Nat) (w : Option WatchState) : (s.setWatch p w).callbacks = s.callbacks := rfl
@[simp] theorem setWatch_log (s : State) (p : Nat) (w : Option WatchState) : (s.setWatch p w).log = s.log := rfl
@[simp] theorem setWatch_inputs (s : State) (p : Nat) (w : Option WatchState) : (s.setWatch p w).inputs = s.inputs := rfl
@[simp] theorem setWatch_mapAnswers (s : State) (p : Nat) (w : Option WatchState) : (s.setWatch p w).mapAnswers = s.mapAnswers := rfl
@[simp] theorem setWatch_active (s : State) (p : Nat) (w : Option WatchState) : (s.setWatch p w).active = s.active := rfl
@[simp] theorem setWatch_draws (s : State) (p : Nat) (w : Option WatchState) : (s.setWatch p w).draws = s.draws := rfl

@[simp] theorem modifyWatch_params (s : State) (p : Nat) (f : WatchState → WatchState) : (s.modifyWatch p f).params = s.params := rfl
@[simp] theorem modifyWatch_regs (s : State) (p : Nat) (f : WatchState → WatchState) : (s.modifyWatch p f).regs = s.regs := rfl
@[simp] theorem modifyWatch_ext (s : State) (p : Nat) (f : WatchState → WatchState) : (s.modifyWatch p f).ext = s.ext := rfl
@[simp] theorem modifyWatch_win (s : State) (p : Nat) (f : WatchState → WatchState) : (s.modifyWatch p f).win = s.win := rfl
@[simp] theorem modifyWatch_handle (s : State) (p : Nat) (f : WatchState → WatchState) : (s.modifyWatch p f).handle = s.handle := rfl
@[simp] theorem modifyWatch_busy (s : State) (p : Nat) (f : WatchState → WatchState) : (s.modifyWatch p f).busy = s.busy := rfl
@[simp] theorem modifyWatch_watch (s : State) (p : Nat) (f : WatchState → WatchState) : (s.modifyWatch p f).watch = s.watch.modify p f := rfl
@[simp] theorem modifyWatch_main (s : State) (p : Nat) (f : WatchState → WatchState) : (s.modifyWatch p f).main = s.main := rfl
@[simp] theorem modifyWatch_callbacks (s : State) (p : Nat) (f : WatchState → WatchState) : (s.modifyWatch p f).callbacks = s.callbacks := rfl
@[simp] theorem modifyWatch_log (s : State) (p : Nat) (f : WatchState → WatchState) : (s.modifyWatch p f).log = s.log := rfl
@[simp] theorem modifyWatch_inputs (s : State) (p : Nat) (f : WatchState → WatchState) : (s.modifyWatch p f).inputs = s.inputs := rfl
@[simp] theorem modifyWatch_mapAnswers (s : State) (p : Nat) (f : WatchState → WatchState) : (s.modifyWatch p f).mapAnswers = s.mapAnswers := rfl
@[simp] theorem modifyWatch_active (s : State) (p : Nat) (f : WatchState → WatchState) : (s.modifyWatch p f).active = s.active := rfl
@[simp] theorem modifyWatch_draws (s : State) (p : Nat) (f : WatchState → WatchState) : (s.modifyWatch p f).draws = s.draws := rfl

@[simp] theorem setMain_params (s : State) (x : CallerState) : (s.setMain x).params = s.params := rfl
@[simp] theorem setMain_regs (s : State) (x : CallerState) : (s.setMain x).regs = s.regs := rfl
@[simp] theorem setMain_ext (s : State) (x : CallerState) : (s.setMain x).ext = s.ext := rfl
@[simp] theorem setMain_win (s : State) (x : CallerState) : (s.setMain x).win = s.win := rfl
@[simp] theorem setMain_handle (s : State) (x : CallerState) : (s.setMain x).handle = s.handle := rfl
@[simp] theorem setMain_busy (s : State) (x : CallerState) : (s.setMain x).busy = s.busy := rfl
@[simp] theorem setMain_watch (s : State) (x : CallerState) : (s.setMain x).watch = s.watch := rfl
@[simp] theorem setMain_main (s : State) (x : CallerState) : (s.setMain x).main = x := rfl
@[simp] theorem setMain_callbacks (s : State) (x : CallerState) : (s.setMain x).callbacks = s.callbacks := rfl
@[simp] theorem setMain_log (s : State) (x : CallerState) : (s.setMain x).log = s.log := rfl
@[simp] theorem setMain_inputs (s : State) (x : CallerState) : (s.setMain x).inputs = s.inputs := rfl
@[simp] theorem setMain_mapAnswers (s : State) (x : CallerState) : (s.setMain x).mapAnswers = s.mapAnswers := rfl
@[simp] theorem setMain_active (s : State) (x : CallerState) : (s.setMain x).active = s.active := rfl
@[simp] theorem setMain_draws (s : State) (x : CallerState) : (s.setMain x).draws = s.draws := rfl

@[simp] theorem setCallback_params (s : State) (p : Nat) (x : Option CallerState) : (s.setCallback p x).params = s.params := rfl
@[simp] theorem setCallback_regs (s : State) (p : Nat) (x : Option CallerState) : (s.setCallback p x).regs = s.regs := rfl
@[simp] theorem setCallback_ext (s : State) (p : Nat) (x : Option CallerState) : (s.setCallback p x).ext = s.ext := rfl
@[simp] theorem setCallback_win (s : State) (p : Nat) (x : Option CallerState) : (s.setCallback p x).win = s.win := rfl
@[simp] theorem setCallback_handle (s : State) (p : Nat) (x : Option CallerState) : (s.setCallback p x).handle = s.handle := rfl
@[simp] theorem setCallback_busy (s : State) (p : Nat) (x : Option CallerState) : (s.setCallback p x).busy = s.busy := rfl
@[simp] theorem setCallback_watch (s : State) (p : Nat) (x : Option CallerState) : (s.setCallback p x).watch = s.watch := rfl
@[simp] theorem setCallback_main (s : State) (p : Nat) (x : Option CallerState) : (s.setCallback p x).main = s.main := rfl
@[simp] theorem setCallback_callbacks (s : State) (p : Nat) (x : Option CallerState) : (s.setCallback p x).callbacks = s.callbacks.put p x := rfl
@[simp] theorem setCallback_log (s : State) (p : Nat) (x : Option CallerState) : (s.setCallback p x).log = s.log := rfl
@[simp] theorem setCallback_inputs (s : State) (p : Nat) (x : Option CallerState) : (s.setCallback p x).inputs = s.inputs := rfl
@[simp] theorem setCallback_mapAnswers (s : State) (p : Nat) (x : Option CallerState) : (s.setCallback p x).mapAnswers = s.mapAnswers := rfl
@[simp] theorem setCallback_active (s : State) (p : Nat) (x : Option CallerState) : (s.setCallback p x).active = s.active := rfl
@[simp] theorem setCallback_draws (s : State) (p : Nat) (x : Option CallerState) : (s.setCallback p x).draws = s.draws := rfl

@[simp] theorem emit_params (s : State) (e : Event) : (s.emit e).params = s.params := rfl
@[simp] theorem emit_regs (s : State) (e : Event) : (s.emit e).regs = s.regs := rfl
@[simp] theorem emit_ext (s : State) (e : Event) : (s.emit e).ext = s.ext := rfl
@[simp] theorem emit_win (s : State) (e : Event) : (s.emit e).win = s.win := rfl
@[simp] theorem emit_handle (s : State) (e : Event) : (s.emit e).handle = s.handle := rfl
@[simp] theorem emit_busy (s : State) (e : Event) : (s.emit e).busy = s.busy := rfl
@[simp] theorem emit_watch (s : State) (e : Event) : (s.emit e).watch = s.watch := rfl
@[simp] theorem emit_main (s : State) (e : Event) : (s.emit e).main = s.main := rfl
@[simp] theorem emit_callbacks (s : State) (e : Event) : (s.emit e).callbacks = s.callbacks := rfl
@[simp] theorem emit_log (s : State) (e : Event) : (s.emit e).log = s.log ++ [e] := rfl
@[simp] theorem emit_inputs (s : State) (e : Event) : (s.emit e).inputs = s.inputs := rfl
@[simp] theorem emit_mapAnswers (s : State) (e : Event) : (s.emit e).mapAnswers = s.mapAnswers := rfl
@[simp] theorem emit_active (s : State) (e : Event) : (s.emit e).active = s.active := rfl
@[simp] theorem emit_draws (s : State) (e : Event) : (s.emit e).draws = s.draws := rfl

@[simp] theorem setInputs_params (s : State) (l : List Input) : (s.setInputs l).params = s.params := rfl
@[simp] theorem setInputs_regs (s : State) (l : List Input) : (s.setInputs l).regs = s.regs := rfl
@[simp] theorem setInputs_ext (s : State) (l : List Input) : (s.setInputs l).ext = s.ext := rfl
@[simp] theorem setInputs_win (s : State) (l : List Input) : (s.setInputs l).win = s.win := rfl
@[simp] theorem setInputs_handle (s : State) (l : List Input) : (s.setInputs l).handle = s.handle := rfl
@[simp] theorem setInputs_busy (s : State) (l : List Input) : (s.setInputs l).busy = s.busy := rfl
@[simp] theorem setInputs_watch (s : State) (l : List Input) : (s.setInputs l).watch = s.watch := rfl
@[simp] theorem setInputs_main (s : State) (l : List Input) : (s.setInputs l).main = s.main := rfl
@[simp] theorem setInputs_callbacks (s : State) (l : List Input) : (s.setInputs l).callbacks = s.callbacks := rfl
@[simp] theorem setInputs_log (s : State) (l : List Input) : (s.setInputs l).log = s.log := rfl
@[simp] theorem setInputs_inputs (s : State) (l : List Input) : (s.setInputs l).inputs = l := rfl
@[simp] theorem setInputs_mapAnswers (s : State) (l : List Input) : (s.setInputs l).mapAnswers = s.mapAnswers := rfl
@[simp] theorem setInputs_active (s : State) (l : List Input) : (s.setInputs l).active = s.active := rfl
@[simp] theorem setInputs_draws (s : State) (l : List Input) : (s.setInputs l).draws = s.draws := rfl

@[simp] theorem setMapAnswers_params (s : State) (l : List MapAnswer) : (s.setMapAnswers l).params = s.params := rfl
@[simp] theorem setMapAnswers_regs (s : State) (l : List MapAnswer) : (s.setMapAnswers l).regs = s.regs := rfl
@[simp] theorem setMapAnswers_ext (s : State) (l : List MapAnswer) : (s.setMapAnswers l).ext = s.ext := rfl
@[simp] theorem setMapAnswers_win (s : State) (l : List MapAnswer) : (s.setMapAnswers l).win = s.win := rfl
@[simp] theorem setMapAnswers_handle (s : State) (l : List MapAnswer) : (s.setMapAnswers l).handle = s.handle := rfl
@[simp] theorem setMapAnswers_busy (s : State) (l : List MapAnswer) : (s.setMapAnswers l).busy = s.busy := rfl
@[simp] theorem setMapAnswers_watch (s : State) (l : List MapAnswer) : (s.setMapAnswers l).watch = s.watch := rfl
@[simp] theorem setMapAnswers_main (s : State) (l : List MapAnswer) : (s.setMapAnswers l).main = s.main := rfl
@[simp] theorem setMapAnswers_callbacks (s : State) (l : List MapAnswer) : (s.setMapAnswers l).callbacks = s.callbacks := rfl
@[simp] theorem setMapAnswers_log (s : State) (l : List MapAnswer) : (s.setMapAnswers l).log = s.log := rfl
@[simp] theorem setMapAnswers_inputs (s : State) (l : List MapAnswer) : (s.setMapAnswers l).inputs = s.inputs := rfl
@[simp] theorem setMapAnswers_mapAnswers (s : State) (l : List MapAnswer) : (s.setMapAnswers l).mapAnswers = l := rfl
@[simp] theorem setMapAnswers_active (s : State) (l : List MapAnswer) : (s.setMapAnswers l).active = s.active := rfl
@[simp] theorem setMapAnswers_draws (s : State) (l : List MapAnswer) : (s.setMapAnswers l).draws = s.draws := rfl

@[simp] theorem setActive_params (s : State) (c : CallerId) : (s.setActive c).params = s.params := rfl
@[simp] theorem setActive_regs (s : State) (c : CallerId) : (s.setActive c).regs = s.regs := rfl
@[simp] theorem setActive_ext (s : State) (c : CallerId) : (s.setActive c).ext = s.ext := rfl
@[simp] theorem setActive_win (s : State) (c : CallerId) : (s.setActive c).win = s.win := rfl
@[simp] theorem setActive_handle (s : State) (c : CallerId) : (s.setActive c).handle = s.handle := rfl
@[simp] theorem setActive_busy (s : State) (c : CallerId) : (s.setActive c).busy = s.busy := rfl
@[simp] theorem setActive_watch (s : State) (c : CallerId) : (s.setActive c).watch = s.watch := rfl
@[simp] theorem setActive_main (s : State) (c : CallerId) : (s.setActive c).main = s.main := rfl
@[simp] theorem setActive_callbacks (s : State) (c : CallerId) : (s.setActive c).callbacks = s.callbacks := rfl
@[simp] theorem setActive_log (s : State) (c : CallerId) : (s.setActive c).log = s.log := rfl
@[simp] theorem setActive_inputs (s : State) (c : CallerId) : (s.setActive c).inputs = s.inputs := rfl
@[simp] theorem setActive_mapAnswers (s : State) (c : CallerId) : (s.setActive c).mapAnswers = s.mapAnswers := rfl
@[simp] theorem setActive_active (s : State) (c : CallerId) : (s.setActive c).active = c := rfl
@[simp] theorem setActive_draws (s : State) (c : CallerId) : (s.setActive c).draws = s.draws := rfl

@[simp] theorem nextDraw_params (s : State) : s.nextDraw.params = s.params := rfl
@[simp] theorem nextDraw_regs (s : State) : s.nextDraw.regs = s.regs := rfl
@[simp] theorem nextDraw_ext (s : State) : s.nextDraw.ext = s.ext := rfl
@[simp] theorem nextDraw_win (s : State) : s.nextDraw.win = s.win := rfl
@[simp] theorem nextDraw_handle (s : State) : s.nextDraw.handle = s.handle := rfl
@[simp] theorem nextDraw_busy (s : State) : s.nextDraw.busy = s.busy := rfl
@[simp] theorem nextDraw_watch (s : State) : s.nextDraw.watch = s.watch := rfl
@[simp] theorem nextDraw_main (s : State) : s.nextDraw.main = s.main := rfl
@[simp] theorem nextDraw_callbacks (s : State) : s.nextDraw.callbacks = s.callbacks := rfl
@[simp] theorem nextDraw_log (s : State) : s.nextDraw.log = s.log := rfl
@[simp] theorem nextDraw_inputs (s : State) : s.nextDraw.inputs = s.inputs := rfl
@[simp] theorem nextDraw_mapAnswers (s : State) : s.nextDraw.mapAnswers = s.mapAnswers := rfl
@[simp] theorem nextDraw_active (s : State) : s.nextDraw.active = s.active := rfl
@[simp] theorem nextDraw_draws (s : State) : s.nextDraw.draws = s.draws + 1 := rfl

@[simp] theorem setCaller_params (s : State) (c : CallerId) (x : CallerState) : (s.setCaller c x).params = s.params := by
  cases c <;> rfl
@[simp] theorem setCaller_regs (s : State) (c : CallerId) (x : CallerState) : (s.setCaller c x).regs = s.regs := by
  cases c <;> rfl
@[simp] theorem setCaller_ext (s : State) (c : CallerId) (x : CallerState) : (s.setCaller c x).ext = s.ext := by
  cases c <;> rfl
@[simp] theorem setCaller_win (s : State) (c : CallerId) (x : CallerState) : (s.setCaller c x).win = s.win := by
  cases c <;> rfl
@[simp] theorem setCaller_handle (s : State) (c : CallerId) (x : CallerState) : (s.setCaller c x).handle = s.handle := by
  cases c <;> rfl
@[simp] theorem setCaller_busy (s : State) (c : CallerId) (x : CallerState) : (s.setCaller c x).busy = s.busy := by
  cases c <;> rfl
@[simp] theorem setCaller_watch (s : State) (c : CallerId) (x : CallerState) : (s.setCaller c x).watch = s.watch := by
  cases c <;> rfl
@[simp] theorem setCaller_log (s : State) (c : CallerId) (x : CallerState) : (s.setCaller c x).log = s.log := by
  cases c <;> rfl
@[simp] theorem setCaller_inputs (s : State) (c : CallerId) (x : CallerState) : (s.setCaller c x).inputs = s.inputs := by
  cases c <;> rfl
@[simp] theorem setCaller_mapAnswers (s : State) (c : CallerId) (x : CallerState) : (s.setCaller c x).mapAnswers = s.mapAnswers := by
  cases c <;> rfl
@[simp] theorem setCaller_active (s : State) (c : CallerId) (x : CallerState) : (s.setCaller c x).active = s.active := by
  cases c <;> rfl
@[simp] theorem setCaller_draws (s : State) (c : CallerId) (x : CallerState) : (s.setCaller c x).draws = s.draws := by
  cases c <;> rfl

@[simp] theorem goto_params (s : State) (i : Instr) (k : MicroStep) (l : Locals) : (s.goto i k l).params = s.params := by
  simp [goto]
@[simp] theorem goto_regs (s : State) (i : Instr) (k : MicroStep) (l : Locals) : (s.goto i k l).regs = s.regs := by
  simp [goto]
@[simp] theorem goto_ext (s : State) (i : Instr) (k : MicroStep) (l : Locals) : (s.goto i k l).ext = s.ext := by
  simp [goto]
@[simp] theorem goto_win (s : State) (i : Instr) (k : MicroStep) (l : Locals) : (s.goto i k l).win = s.win := by
  simp [goto]
@[simp] theorem goto_handle (s : State) (i : Instr) (k : MicroStep) (l : Locals) : (s.goto i k l).handle = s.handle := by
  simp [goto]
@[simp] theorem goto_busy (s : State) (i : Instr) (k : MicroStep) (l : Locals) : (s.goto i k l).busy = s.busy := by
  simp [goto]
@[simp] theorem goto_watch (s : State) (i : Instr) (k : MicroStep) (l : Locals) : (s.goto i k l).watch = s.watch := by
  simp [goto]
@[simp] theorem goto_log (s : State) (i : Instr) (k : MicroStep) (l : Locals) : (s.goto i k l).log = s.log := by
  simp [goto]
@[simp] theorem goto_inputs (s : State) (i : Instr) (k : MicroStep) (l : Locals) : (s.goto i k l).inputs = s.inputs := by
  simp [goto]
@[simp] theorem goto_mapAnswers (s : State) (i : Instr) (k : MicroStep) (l : Locals) : (s.goto i k l).mapAnswers = s.mapAnswers := by
  simp [goto]
@[simp] theorem goto_active (s : State) (i : Instr) (k : MicroStep) (l : Locals) : (s.goto i k l).active = s.active := by
  simp [goto]
@[simp] theorem goto_draws (s : State) (i : Instr) (k : MicroStep) (l : Locals) : (s.goto i k l).draws = s.draws := by
  simp [goto]

@[simp] theorem respond_params (s : State) (c : Word) (e : Status) (v : Word) : (s.respond c e v).params = s.params := by
  simp [respond]
@[simp] theorem respond_regs (s : State) (c : Word) (e : Status) (v : Word) : (s.respond c e v).regs = s.regs := by
  simp [respond]
@[simp] theorem respond_ext (s : State) (c : Word) (e : Status) (v : Word) : (s.respond c e v).ext = s.ext := by
  simp [respond]
@[simp] theorem respond_win (s : State) (c : Word) (e : Status) (v : Word) : (s.respond c e v).win = s.win := by
  simp [respond]
@[simp] theorem respond_handle (s : State) (c : Word) (e : Status) (v : Word) : (s.respond c e v).handle = s.handle := by
  simp [respond]
@[simp] theorem respond_busy (s : State) (c : Word) (e : Status) (v : Word) : (s.respond c e v).busy = s.busy := by
  simp [respond]
@[simp] theorem respond_watch (s : State) (c : Word) (e : Status) (v : Word) : (s.respond c e v).watch = s.watch := by
  simp [respond]
@[simp] theorem respond_inputs (s : State) (c : Word) (e : Status) (v : Word) : (s.respond c e v).inputs = s.inputs := by
  simp [respond]
@[simp] theorem respond_mapAnswers (s : State) (c : Word) (e : Status) (v : Word) : (s.respond c e v).mapAnswers = s.mapAnswers := by
  simp [respond]
@[simp] theorem respond_active (s : State) (c : Word) (e : Status) (v : Word) : (s.respond c e v).active = s.active := by
  simp [respond]
@[simp] theorem respond_draws (s : State) (c : Word) (e : Status) (v : Word) : (s.respond c e v).draws = s.draws := by
  simp [respond]
@[simp] theorem respond_log (s : State) (c : Word) (e : Status) (v : Word) :
    (s.respond c e v).log = s.log ++ [.resp s.active c e v] := by
  simp [respond]

end Sys2Proof.Machine.State
end

