-- ==== Sys2Proof/Laws/Table.lean ====
section
/-! SUPPORT. Read after write for tables, and that every table operation keeps the canonical form. -/

namespace Sys2Proof.Machine.Table

variable {α : Type}

@[simp] theorem lookup_nil (k : Nat) : Table.lookup ([] : Table α) k = none := rfl

theorem lookup_erase (t : Table α) (k j : Nat) :
    (Table.erase t k).lookup j = if j = k then none else t.lookup j := by
  induction t with
  | nil => simp [erase]
  | cons e t ih =>
    obtain ⟨k', v⟩ := e
    unfold erase
    split <;> simp only [lookup] <;> split <;> simp_all
    omega

theorem lookup_insert (t : Table α) (k j : Nat) (v : α) (h : t.lookup k = none) :
    (Table.insert t k v).lookup j = if j = k then some v else t.lookup j := by
  induction t with
  | nil => simp [insert, lookup, eq_comm]
  | cons e t ih =>
    obtain ⟨k', v'⟩ := e
    have hk : k' ≠ k := by rintro rfl; simp [lookup] at h
    simp only [lookup, hk, if_false] at h
    unfold insert
    split
    · simp [lookup, eq_comm]
    · simp only [lookup, ih h]
      split <;> split <;> simp_all

/-- Read after write. -/
@[simp] theorem lookup_put (t : Table α) (k j : Nat) (o : Option α) :
    (t.put k o).lookup j = if j = k then o else t.lookup j := by
  cases o with
  | none => simp [put, lookup_erase]
  | some v => rw [put, lookup_insert _ _ _ _ (by simp [lookup_erase]), lookup_erase]; split <;> simp_all

@[simp] theorem lookup_modify (t : Table α) (k j : Nat) (f : α → α) :
    (t.modify k f).lookup j = if j = k then (t.lookup k).map f else t.lookup j := by
  simp [modify]

@[simp] theorem word_putWord (t : Table Word) (k j : Nat) (w : Word) :
    (t.putWord k w).word j = if j = k then w else t.word j := by
  unfold putWord word
  rw [lookup_put]
  split
  · split <;> simp_all
  · rfl

@[simp] theorem has_mark (t : PortSet) (k j : Nat) (b : Bool) :
    (t.mark k b).has j = if j = k then b else t.has j := by
  unfold mark has
  rw [lookup_put]
  split
  · cases b <;> simp
  · rfl

/-- A table with no entry at any key is empty. -/
theorem isEmpty_iff (t : Table α) : t.isEmpty = true ↔ ∀ k, t.lookup k = none := by
  cases t with
  | nil => simp
  | cons e t =>
    obtain ⟨k, v⟩ := e
    simp only [List.isEmpty_cons, Bool.false_eq_true, false_iff, not_forall]
    exact ⟨k, by simp [lookup]⟩

/-! ### The canonical form is kept -/

theorem above_erase (t : Table α) (k n : Nat) (h : above n t = true) : above n (Table.erase t k) = true := by
  induction t with
  | nil => rfl
  | cons e t ih => simp only [above, Bool.and_eq_true] at h; unfold erase; split <;> simp [above, h, ih]

theorem above_insert (t : Table α) (k n : Nat) (v : α) (hk : n < k) (h : above n t = true) :
    above n (Table.insert t k v) = true := by
  induction t with
  | nil => simp [insert, above, hk]
  | cons e t ih => simp only [above, Bool.and_eq_true] at h; unfold insert; split <;> simp_all [above]

theorem above_mono (t : Table α) (m n : Nat) (hm : m ≤ n) (h : above n t = true) : above m t = true := by
  induction t with
  | nil => rfl
  | cons e t ih =>
    simp only [above, Bool.and_eq_true, decide_eq_true_eq] at h ⊢
    exact ⟨by omega, ih h.2⟩

theorem rising_erase (t : Table α) (k : Nat) (h : rising t = true) : rising (Table.erase t k) = true := by
  induction t with
  | nil => rfl
  | cons e t ih =>
    simp only [rising, Bool.and_eq_true] at h
    unfold erase
    split
    · exact ih h.2
    · simp [rising, above_erase _ _ _ h.1, ih h.2]

theorem rising_insert (t : Table α) (k : Nat) (v : α) (h : rising t = true) (hn : t.lookup k = none) :
    rising (Table.insert t k v) = true := by
  induction t with
  | nil => rfl
  | cons e t ih =>
    obtain ⟨k', v'⟩ := e
    have hk : k' ≠ k := by rintro rfl; simp [lookup] at hn
    simp only [lookup, hk, if_false] at hn
    simp only [rising, Bool.and_eq_true] at h
    unfold insert
    split
    · rename_i hlt
      simp [rising, above, hlt, h, above_mono _ _ _ (Nat.le_of_lt hlt) h.1]
    · rename_i hge
      simp [rising, ih h.2 hn, above_insert t k k' v (by omega) h.1]

theorem rising_put (t : Table α) (k : Nat) (o : Option α) (h : rising t = true) : rising (t.put k o) = true := by
  cases o with
  | none => exact rising_erase t k h
  | some v => exact rising_insert _ _ _ (rising_erase t k h) (by simp [lookup_erase])

theorem rising_modify (t : Table α) (k : Nat) (f : α → α) (h : rising t = true) : rising (t.modify k f) = true :=
  rising_put t k _ h

theorem rising_mark (t : PortSet) (k : Nat) (b : Bool) (h : rising t = true) : rising (t.mark k b) = true :=
  rising_put t k _ h

theorem below_erase (t : Table α) (k n : Nat) (h : below n t = true) : below n (Table.erase t k) = true := by
  induction t with
  | nil => rfl
  | cons e t ih => simp only [below, Bool.and_eq_true] at h; unfold erase; split <;> simp [below, h, ih]

theorem below_insert (t : Table α) (k n : Nat) (v : α) (hk : k < n) (h : below n t = true) :
    below n (Table.insert t k v) = true := by
  induction t with
  | nil => simp [insert, below, hk]
  | cons e t ih => simp only [below, Bool.and_eq_true] at h; unfold insert; split <;> simp_all [below]

theorem below_put (t : Table α) (k n : Nat) (o : Option α) (hk : k < n) (h : below n t = true) :
    below n (t.put k o) = true := by
  cases o with
  | none => exact below_erase t k n h
  | some v => exact below_insert _ _ _ _ hk (below_erase t k n h)

theorem below_mark (t : PortSet) (k n : Nat) (b : Bool) (hk : k < n) (h : below n t = true) :
    below n (t.mark k b) = true :=
  below_put t k n _ hk h

theorem noZero_erase (t : Table Word) (k : Nat) (h : noZero t = true) : noZero (Table.erase t k) = true := by
  induction t with
  | nil => rfl
  | cons e t ih => simp only [noZero, Bool.and_eq_true] at h; unfold erase; split <;> simp_all [noZero]

theorem noZero_insert (t : Table Word) (k : Nat) (w : Word) (hw : w ≠ 0) (h : noZero t = true) :
    noZero (Table.insert t k w) = true := by
  induction t with
  | nil => simpa [insert, noZero] using hw
  | cons e t ih => simp only [noZero, Bool.and_eq_true] at h; unfold insert; split <;> simp_all [noZero]

/-- A word write inside the bank keeps the bank's canonical form. -/
theorem wordsWf_putWord (t : Table Word) (n k : Nat) (w : Word) (hk : k < n) (h : wordsWf n t = true) :
    wordsWf n (t.putWord k w) = true := by
  simp only [wordsWf, Bool.and_eq_true] at h ⊢
  refine ⟨⟨rising_put _ _ _ h.1.1, below_put _ _ _ _ hk h.1.2⟩, ?_⟩
  unfold putWord
  split
  · exact noZero_erase _ _ h.2
  · rename_i hw; exact noZero_insert _ _ _ hw (noZero_erase _ _ h.2)

theorem lookup_of_below (t : Table α) (n k : Nat) (h : below n t = true) (hk : n ≤ k) : t.lookup k = none := by
  induction t with
  | nil => rfl
  | cons e t ih =>
    obtain ⟨k', v⟩ := e
    simp only [below, Bool.and_eq_true, decide_eq_true_eq] at h
    simp only [lookup]
    split
    · omega
    · exact ih h.2

end Sys2Proof.Machine.Table
end

