-- ==== Sys2Proof/Laws/Ops.lean ====
section
/-! SUPPORT. What a response and a micro-step that goes on leave, said once (10_state.md R40). -/

namespace Sys2Proof.Machine

/-! ### Status codes -/

/-- Every status is read back from its code, so no two have one code (30_encoding.md R101). -/
@[simp] theorem Status.ofCode_code (e : Status) : Status.ofCode e.code = some e := by cases e <;> rfl

/-- Code 7 is the one code that is not used. -/
theorem Status.ofCode_eq_none {c : BitVec 3} : Status.ofCode c = none ↔ c = 7 := by
  revert c; decide

/-! ### Callers -/

@[simp] theorem caller_setCaller_self (s : State) (c : CallerId) (x : CallerState) :
    (s.setCaller c x).caller c = some x := by
  cases c <;> simp [State.caller, State.setCaller]

theorem caller_setCaller_of_ne (s : State) {c d : CallerId} (x : CallerState) (h : d ≠ c) :
    (s.setCaller c x).caller d = s.caller d := by
  cases c <;> cases d <;> simp_all [State.caller, State.setCaller]

theorem caller_setCaller (s : State) (c d : CallerId) (x : CallerState) :
    (s.setCaller c x).caller d = if d = c then some x else s.caller d := by
  by_cases h : d = c
  · rw [if_pos h, h, caller_setCaller_self]
  · rw [if_neg h, caller_setCaller_of_ne s x h]

/-- A response makes the acting caller Idle and touches no other. -/
theorem caller_respond (s : State) (w : Word) (e : Status) (v : Word) (d : CallerId) :
    (s.respond w e v).caller d = if d = s.active then some .idle else s.caller d := by
  unfold State.respond
  rw [caller_setCaller]
  cases d <;> rfl

/-- A caller that goes on stands where it is sent, and no other is touched. -/
theorem caller_goto (s : State) (i : Instr) (k : MicroStep) (loc : Locals) (d : CallerId) :
    (s.goto i k loc).caller d = if d = s.active then some (.busy i k loc) else s.caller d :=
  caller_setCaller s s.active d _

/-- Setting the state of a caller that exists creates and removes no callback caller. -/
theorem callbacks_setCaller (s : State) {c : CallerId} {x y : CallerState} (h : s.caller c = some y) (p : Nat) :
    (s.setCaller c x).callbacks.lookup p = none ↔ s.callbacks.lookup p = none := by
  cases c with
  | main => exact Iff.rfl
  | cb q =>
    simp only [State.caller] at h
    simp only [State.setCaller, State.setCallback, Table.lookup_put]
    by_cases hq : p = q
    · subst hq; simp [h]
    · simp [hq]

/-- `caller` reads nothing but the two caller fields. -/
theorem caller_congr {s t : State} (h1 : t.main = s.main) (h2 : t.callbacks = s.callbacks) (c : CallerId) :
    t.caller c = s.caller c := by
  cases c <;> simp [State.caller, h1, h2]

theorem responds_respond (i : Instr) (e : Status) (v : Word) {s t : State} (h1 : t.main = s.main)
    (h2 : t.callbacks = s.callbacks) (h3 : t.log = s.log) (h4 : t.active = s.active) :
    Responds i e v s (t.respond (encodeWord i) e v) := by
  refine ⟨by simp [h3, h4], by simp [State.respond, h4], fun c hc => ?_⟩
  unfold State.respond
  rw [caller_setCaller_of_ne _ _ (by simpa [h4] using hc)]
  exact caller_congr (by simp [h1]) (by simp [h2]) c

theorem goesOn_goto (i : Instr) (k : MicroStep) (loc : Locals) {s t : State} (h1 : t.main = s.main)
    (h2 : t.callbacks = s.callbacks) (h3 : t.log = s.log) (h4 : t.active = s.active) :
    GoesOn i k loc s (t.goto i k loc) := by
  refine ⟨by simp [h3], by simp [State.goto, h4], fun c hc => ?_⟩
  unfold State.goto
  rw [caller_setCaller_of_ne _ _ (by simpa [h4] using hc)]
  exact caller_congr (by simp [h1]) (by simp [h2]) c

/-- A caller that goes on with `i` stands at the micro-step named. -/
theorem position_goto (s : State) (i : Instr) (k : MicroStep) (loc : Locals) :
    (s.goto i k loc).position i = .running k loc := by
  simp [State.position, State.goto]

/-- `position` reads nothing but the acting caller's state. -/
theorem position_congr {s t : State} (h1 : t.main = s.main) (h2 : t.callbacks = s.callbacks)
    (h3 : t.active = s.active) (i : Instr) : t.position i = s.position i := by
  unfold State.position
  rw [h3, caller_congr h1 h2]

/-! ### Checks and responses -/

@[simp] theorem firstError_nil : firstError [] = none := rfl
@[simp] theorem firstError_none (l : List (Option Status)) : firstError (none :: l) = firstError l := rfl
@[simp] theorem firstError_some (e : Status) (l : List (Option Status)) : firstError (some e :: l) = some e := rfl
@[simp] theorem check_true (e : Status) : check true e = none := rfl
@[simp] theorem check_false (e : Status) : check false e = some e := rfl
@[simp] theorem windowError_mapped : windowError .mapped = none := rfl
@[simp] theorem windowError_unmapped : windowError .unmapped = some .invalidOperation := rfl
@[simp] theorem windowError_failed (e : WindowError) : windowError (.failed e) = some (windowStatus e) := rfl

/-- The window gives no error exactly when it is mapped. -/
theorem windowError_eq_none {w : WindowState} : windowError w = none ↔ w = .mapped := by
  cases w <;> simp

theorem oneStep_start {i : Instr} {s : State} (h : s.position i = .start) (body : State → Result) :
    oneStep i s body = body s := by
  unfold oneStep; rw [h]

@[simp] theorem checked_none (i : Instr) (s : State) (k : State → Result) : checked i none s k = k s := rfl
@[simp] theorem checked_some (i : Instr) (e : Status) (s : State) (k : State → Result) :
    checked i (some e) s k = .next (raise i e s) := rfl
@[simp] theorem afterWrite_some (t : State) (k : State → State) : afterWrite (some t) k = .next (k t) := rfl
@[simp] theorem afterWrite_none (k : State → State) : afterWrite none k = .refused .unbankedWrite := rfl

/-- An Idle acting caller may issue any command, and no other may. -/
theorem position_start {s : State} {i : Instr} : s.position i = .start ↔ s.caller s.active = some .idle := by
  unfold State.position
  cases h : s.caller s.active with
  | none => simp
  | some x =>
    cases x with
    | idle => simp
    | busy j k loc => by_cases hj : j = i <;> simp [hj]

theorem position_running {s : State} {i : Instr} {k : MicroStep} {loc : Locals} :
    s.position i = .running k loc ↔ s.caller s.active = some (.busy i k loc) := by
  unfold State.position
  cases h : s.caller s.active with
  | none => simp
  | some x =>
    cases x with
    | idle => simp
    | busy j k' loc' => by_cases hj : j = i <;> simp [hj]

/-- An error response changes nothing but the log and the caller (60_exceptions.md R250, R256). -/
theorem raise_spec (i : Instr) (e : Status) (s : State) : Responds i e 0 s (raise i e s) ∧ Unchanged s (raise i e s) :=
  ⟨responds_respond i e 0 rfl rfl rfl rfl, by simp [Unchanged, SameTables, SameOutside, raise]⟩

theorem finish_responds (i : Instr) (v : Word) {s t : State} (h1 : t.main = s.main) (h2 : t.callbacks = s.callbacks)
    (h3 : t.log = s.log) (h4 : t.active = s.active) : Responds i .ok v s (finish i v t) :=
  responds_respond i .ok v h1 h2 h3 h4

end Sys2Proof.Machine
end

