-- ==== Sys2Proof/Laws/Params.lean ====
section
/-! SUPPORT. What a legal parameter set gives (00_scope.md R8), and that the offset of a port decodes to its own bank
word (20_memory.md R61). -/

namespace Sys2Proof.Machine

theorem Bank_mem_all (b : Bank) : b ∈ Bank.all := by cases b <;> decide

theorem legal_nports {P : Params} (h : P.legal) : P.nports ≤ 256 := h.2.1

theorem legal_codes {P : Params} (h : P.legal) : P.fselInput ≠ P.fselOutput := h.2.2.2.2.1

theorem legal_base {P : Params} (h : P.legal) (b : Bank) :
    P.base b % 4 = 0 ∧ P.base b + 4 * P.words b ≤ P.windowSize := h.2.2.2.2.2.1 b (Bank_mem_all b)

theorem legal_disjoint {P : Params} (h : P.legal) {a b : Bank} (hab : a ≠ b) : P.disjoint a b :=
  h.2.2.2.2.2.2 a (Bank_mem_all a) b (Bank_mem_all b) hab

/-- A port's word is a word of the bank. -/
theorem wordIdx_lt {P : Params} {p : Nat} (hp : p < P.nports) (b : Bank) : wordIdx b p < P.words b := by
  cases b <;> simp only [wordIdx, Params.words, Params.nf, Params.nw] <;> omega

theorem bankWordAt_eq_some {P : Params} {off i : Nat} {a b : Bank} :
    bankWordAt P off a = some (b, i) ↔ b = a ∧ off = P.base a + 4 * i ∧ i < P.words a := by
  unfold bankWordAt
  split
  · rename_i h
    simp only [Option.some.injEq, Prod.mk.injEq]
    constructor
    · rintro ⟨rfl, rfl⟩; exact ⟨rfl, by omega, h.2.2⟩
    · rintro ⟨rfl, h1, h2⟩; exact ⟨rfl, by omega⟩
  · rename_i h
    simp only [reduceCtorEq, false_iff]
    rintro ⟨rfl, h1, h2⟩
    exact h ⟨by omega, by omega, by omega⟩

theorem bankWordAt_word (P : Params) (b : Bank) {i : Nat} (hi : i < P.words b) :
    bankWordAt P (P.base b + 4 * i) b = some (b, i) :=
  bankWordAt_eq_some.2 ⟨rfl, rfl, hi⟩

theorem bankWordAt_other {P : Params} (h : P.legal) {a b : Bank} (hab : a ≠ b) {i : Nat} (hi : i < P.words b) :
    bankWordAt P (P.base b + 4 * i) a = none := by
  cases hx : bankWordAt P (P.base b + 4 * i) a with
  | none => rfl
  | some x =>
    obtain ⟨c, j⟩ := x
    obtain ⟨rfl, h1, h2⟩ := bankWordAt_eq_some.1 hx
    have hd := legal_disjoint h hab
    unfold Params.disjoint at hd
    omega

/-- A bank word's own offset decodes to it and to nothing else. -/
theorem decodeOffset_word {P : Params} (h : P.legal) (b : Bank) {i : Nat} (hi : i < P.words b) :
    decodeOffset P (P.base b + 4 * i) = some (b, i) := by
  have hself := bankWordAt_word P b hi
  have hother : ∀ a, a ≠ b → bankWordAt P (P.base b + 4 * i) a = none := fun a ha => bankWordAt_other h ha hi
  unfold decodeOffset Bank.all
  cases b <;> simp [List.findSome?, hself, hother]

/-- What an offset decodes to, if anything, is the bank word that stands there. -/
theorem decodeOffset_some {P : Params} {off i : Nat} {b : Bank} (hd : decodeOffset P off = some (b, i)) :
    off = P.base b + 4 * i ∧ i < P.words b := by
  obtain ⟨a, _, ha⟩ := List.exists_of_findSome?_eq_some hd
  obtain ⟨rfl, h1⟩ := bankWordAt_eq_some.1 ha
  exact h1

@[simp] theorem decodeOffset_wordOff {P : Params} (h : P.legal) {p : Nat} (hp : p < P.nports) (b : Bank) :
    decodeOffset P (wordOff P b p) = some (b, wordIdx b p) :=
  decodeOffset_word h b (wordIdx_lt hp b)

/-- A port's word lies inside the window (41_codec.md R151: the second check cannot fail). -/
theorem wordOff_in_window {P : Params} (h : P.legal) {p : Nat} (hp : p < P.nports) (b : Bank) :
    wordOff P b p + 4 ≤ P.windowSize := by
  have h1 := (legal_base h b).2
  have h2 := wordIdx_lt hp b
  unfold wordOff
  omega

end Sys2Proof.Machine
end

