-- ==== Sys2Proof/Laws/Registers.lean ====
section
/-! SUPPORT. What a pad step, MemRead and MemWrite do, said once (10_state.md R33, 43_edge_watch.md R211, 40_window.md
R131 and R132). -/

namespace Sys2Proof.Machine

/-! ### Pads and the edge latch (10_state.md R33, 43_edge_watch.md R211) -/

theorem field_congr {s t : State} {p : Nat} (h : t.regs.fsel.word (p / 10) = s.regs.fsel.word (p / 10)) :
    field t p = field s p := by
  unfold field; rw [h]

/-- `pad` reads the port's own field, latch bit and outside level. -/
theorem pad_congr {s t : State} {p : Nat} (h1 : t.params = s.params) (h2 : field t p = field s p)
    (h3 : latBit t p = latBit s p) (h4 : t.ext.has p = s.ext.has p) : pad t p = pad s p := by
  unfold pad; rw [h1, h2, h3, h4]

theorem enabledEdge_of_pad_eq {s0 s : State} {p : Nat} (h : pad s p = pad s0 p) : enabledEdge s0 s p = false := by
  unfold enabledEdge; rw [h]; cases pad s0 p <;> simp

/-- `enabledEdge` sees only the pad level of the later state. -/
theorem enabledEdge_congr {s0 s t : State} {p : Nat} (h : pad t p = pad s p) :
    enabledEdge s0 t p = enabledEdge s0 s p := by
  unfold enabledEdge; rw [h]

@[simp] theorem edgeLatch_fsel (s0 s : State) : (edgeLatch s0 s).regs.fsel = s.regs.fsel := rfl
@[simp] theorem edgeLatch_lat (s0 s : State) : (edgeLatch s0 s).regs.lat = s.regs.lat := rfl
@[simp] theorem edgeLatch_ren (s0 s : State) : (edgeLatch s0 s).regs.ren = s.regs.ren := rfl
@[simp] theorem edgeLatch_fen (s0 s : State) : (edgeLatch s0 s).regs.fen = s.regs.fen := rfl
@[simp] theorem edgeLatch_params (s0 s : State) : (edgeLatch s0 s).params = s.params := rfl
@[simp] theorem edgeLatch_ext (s0 s : State) : (edgeLatch s0 s).ext = s.ext := rfl
@[simp] theorem edgeLatch_win (s0 s : State) : (edgeLatch s0 s).win = s.win := rfl
@[simp] theorem edgeLatch_handle (s0 s : State) : (edgeLatch s0 s).handle = s.handle := rfl
@[simp] theorem edgeLatch_busy (s0 s : State) : (edgeLatch s0 s).busy = s.busy := rfl
@[simp] theorem edgeLatch_watch (s0 s : State) : (edgeLatch s0 s).watch = s.watch := rfl
@[simp] theorem edgeLatch_main (s0 s : State) : (edgeLatch s0 s).main = s.main := rfl
@[simp] theorem edgeLatch_callbacks (s0 s : State) : (edgeLatch s0 s).callbacks = s.callbacks := rfl
@[simp] theorem edgeLatch_log (s0 s : State) : (edgeLatch s0 s).log = s.log := rfl
@[simp] theorem edgeLatch_inputs (s0 s : State) : (edgeLatch s0 s).inputs = s.inputs := rfl
@[simp] theorem edgeLatch_mapAnswers (s0 s : State) : (edgeLatch s0 s).mapAnswers = s.mapAnswers := rfl
@[simp] theorem edgeLatch_active (s0 s : State) : (edgeLatch s0 s).active = s.active := rfl
@[simp] theorem edgeLatch_draws (s0 s : State) : (edgeLatch s0 s).draws = s.draws := rfl

@[simp] theorem pad_edgeLatch (s0 s : State) (p : Nat) : pad (edgeLatch s0 s) p = pad s p := rfl

theorem latchWords_word (s0 s : State) (n i : Nat) :
    (latchWords s0 s n).word i =
      if i < n then s.regs.eds.word i ||| edgeWord s0 s i else s.regs.eds.word i := by
  induction n with
  | zero => rfl
  | succ n ih =>
    rw [latchWords, Table.word_putWord]
    by_cases h : i = n
    · subst h
      have hn : (latchWords s0 s i).word i = s.regs.eds.word i := by rw [ih, if_neg (Nat.lt_irrefl i)]
      rw [if_pos rfl, if_pos (Nat.lt_succ_self i), hn]
    · rw [if_neg h, ih]
      by_cases hlt : i < n
      · rw [if_pos hlt, if_pos (by omega)]
      · rw [if_neg hlt, if_neg (by omega)]

/-- What the edge latch does to a port's EDS bit (43_edge_watch.md R211). -/
theorem edsBit_edgeLatch (s0 s : State) (p : Nat) (hp : p < s.params.nports) :
    edsBit (edgeLatch s0 s) p = (edsBit s p || enabledEdge s0 s p) := by
  have hw : p / 32 < s.params.nw := by unfold Params.nw; omega
  have hm : p % 32 < 32 := Nat.mod_lt _ (by decide)
  have he : 32 * (p / 32) + p % 32 = p := by omega
  show ((latchWords s0 s s.params.nw).word (p / 32)).getLsbD (p % 32) = _
  rw [latchWords_word, if_pos hw, BitVec.getLsbD_or, edgeWord, wordOf_getLsbD, he]
  simp [hp, hm, edsBit]

/-- Where no pad level of a valid port changes, the edge latch leaves every EDS word alone (43_edge_watch.md R212). -/
theorem eds_word_edgeLatch (s0 s : State) (h : ∀ p < s.params.nports, pad s p = pad s0 p) (i : Nat) :
    (edgeLatch s0 s).regs.eds.word i = s.regs.eds.word i := by
  show (latchWords s0 s s.params.nw).word i = _
  rw [latchWords_word]
  split
  · have : edgeWord s0 s i = 0 := by
      refine word_ext fun j hj => ?_
      rw [edgeWord, wordOf_getLsbD]
      by_cases hp : 32 * i + j < s.params.nports
      · rw [enabledEdge_of_pad_eq (h _ hp)]; simp
      · simp [hp]
    rw [this]; simp
  · rfl

/-! ### MemWrite (40_window.md R132) -/

@[simp] theorem storeWord_params (s : State) (b : Bank) (i : Nat) (v : Word) : (storeWord s b i v).params = s.params := by
  cases b <;> rfl
@[simp] theorem storeWord_ext (s : State) (b : Bank) (i : Nat) (v : Word) : (storeWord s b i v).ext = s.ext := by
  cases b <;> rfl
@[simp] theorem storeWord_win (s : State) (b : Bank) (i : Nat) (v : Word) : (storeWord s b i v).win = s.win := by
  cases b <;> rfl
@[simp] theorem storeWord_handle (s : State) (b : Bank) (i : Nat) (v : Word) : (storeWord s b i v).handle = s.handle := by
  cases b <;> rfl
@[simp] theorem storeWord_busy (s : State) (b : Bank) (i : Nat) (v : Word) : (storeWord s b i v).busy = s.busy := by
  cases b <;> rfl
@[simp] theorem storeWord_watch (s : State) (b : Bank) (i : Nat) (v : Word) : (storeWord s b i v).watch = s.watch := by
  cases b <;> rfl
@[simp] theorem storeWord_main (s : State) (b : Bank) (i : Nat) (v : Word) : (storeWord s b i v).main = s.main := by
  cases b <;> rfl
@[simp] theorem storeWord_callbacks (s : State) (b : Bank) (i : Nat) (v : Word) :
    (storeWord s b i v).callbacks = s.callbacks := by
  cases b <;> rfl
@[simp] theorem storeWord_log (s : State) (b : Bank) (i : Nat) (v : Word) : (storeWord s b i v).log = s.log := by
  cases b <;> rfl
@[simp] theorem storeWord_inputs (s : State) (b : Bank) (i : Nat) (v : Word) : (storeWord s b i v).inputs = s.inputs := by
  cases b <;> rfl
@[simp] theorem storeWord_mapAnswers (s : State) (b : Bank) (i : Nat) (v : Word) :
    (storeWord s b i v).mapAnswers = s.mapAnswers := by
  cases b <;> rfl
@[simp] theorem storeWord_active (s : State) (b : Bank) (i : Nat) (v : Word) : (storeWord s b i v).active = s.active := by
  cases b <;> rfl
@[simp] theorem storeWord_draws (s : State) (b : Bank) (i : Nat) (v : Word) : (storeWord s b i v).draws = s.draws := by
  cases b <;> rfl

section
variable (s : State) (b : Bank) (i : Nat) (v : Word)
@[simp] theorem writeWord_params : (writeWord s b i v).params = s.params := by simp [writeWord]
@[simp] theorem writeWord_ext : (writeWord s b i v).ext = s.ext := by simp [writeWord]
@[simp] theorem writeWord_win : (writeWord s b i v).win = s.win := by simp [writeWord]
@[simp] theorem writeWord_handle : (writeWord s b i v).handle = s.handle := by simp [writeWord]
@[simp] theorem writeWord_busy : (writeWord s b i v).busy = s.busy := by simp [writeWord]
@[simp] theorem writeWord_watch : (writeWord s b i v).watch = s.watch := by simp [writeWord]
@[simp] theorem writeWord_main : (writeWord s b i v).main = s.main := by simp [writeWord]
@[simp] theorem writeWord_callbacks : (writeWord s b i v).callbacks = s.callbacks := by simp [writeWord]
@[simp] theorem writeWord_log : (writeWord s b i v).log = s.log := by simp [writeWord]
@[simp] theorem writeWord_inputs : (writeWord s b i v).inputs = s.inputs := by simp [writeWord]
@[simp] theorem writeWord_mapAnswers : (writeWord s b i v).mapAnswers = s.mapAnswers := by simp [writeWord]
@[simp] theorem writeWord_active : (writeWord s b i v).active = s.active := by simp [writeWord]
@[simp] theorem writeWord_draws : (writeWord s b i v).draws = s.draws := by simp [writeWord]
end

/-- The word a write leaves in bank `b`, from the old word (40_window.md R132). -/
def writtenWord (P : Params) (b : Bank) (i : Nat) (old v : Word) : Word :=
  match b with
  | .fsel => mergeValid (validFieldMask P i) old v
  | .set => old ||| (v &&& validMask P i)
  | .clr => old &&& ~~~(v &&& validMask P i)
  | .lev => old
  | .eds => old &&& ~~~(v &&& validMask P i)
  | .ren | .fen => mergeValid (validMask P i) old v

/-- What a bank write does to every stored word. -/
theorem regWord_storeWord (s : State) (b : Bank) (i : Nat) (v : Word) (b' : Bank) (j : Nat) :
    regWord (storeWord s b i v) b' j =
      if sameStorage b' b = true ∧ j = i then writtenWord s.params b i (regWord s b i) v else regWord s b' j := by
  cases b <;> cases b' <;> simp [storeWord, regWord, sameStorage, writtenWord, State.setRegs]

/-- A bank write leaves every stored word but those of EDS as the bank effect leaves it. -/
theorem regWord_writeWord (s : State) (b : Bank) (i : Nat) (v : Word) (b' : Bank) (j : Nat) (h : b' ≠ .eds) :
    regWord (writeWord s b i v) b' j = regWord (storeWord s b i v) b' j := by
  cases b' <;> first | rfl | exact absurd rfl h

/-- The banks whose writes can change a pad level: FSEL, SET and CLR (20_memory.md R67). -/
theorem pad_storeWord (s : State) (b : Bank) (i : Nat) (v : Word) (h : b ∉ [.fsel, .set, .clr]) (p : Nat) :
    pad (storeWord s b i v) p = pad s p := by
  cases b <;> simp at h <;> rfl

/-- A write to LEV, EDS, REN or FEN latches nothing. -/
theorem regWord_writeWord_quiet (s : State) (b : Bank) (i : Nat) (v : Word) (h : b ∉ [.fsel, .set, .clr]) (b' : Bank)
    (j : Nat) : regWord (writeWord s b i v) b' j = regWord (storeWord s b i v) b' j := by
  by_cases hb : b' = .eds
  · subst hb
    exact eds_word_edgeLatch s (storeWord s b i v) (fun p _ => pad_storeWord s b i v h p) j
  · exact regWord_writeWord s b i v b' j hb

/-- The EDS bits after a write: the bank effect, and the enabled edges of the pads that the write moved. -/
theorem edsBit_writeWord (s : State) (b : Bank) (i : Nat) (v : Word) (p : Nat) (hp : p < s.params.nports) :
    edsBit (writeWord s b i v) p = (edsBit (storeWord s b i v) p || enabledEdge s (writeWord s b i v) p) := by
  unfold writeWord
  rw [edsBit_edgeLatch _ _ _ (by simpa using hp), enabledEdge_congr (pad_edgeLatch _ _ _)]

theorem memWrite_wordOff {s : State} (h : s.params.legal) {p : Nat} (hp : p < s.params.nports) (b : Bank) (v : Word) :
    memWrite s (wordOff s.params b p) v = some (writeWord s b (wordIdx b p) v) := by
  unfold memWrite; rw [decodeOffset_wordOff h hp]

theorem readModifyWrite_wordOff {s : State} (h : s.params.legal) {p : Nat} (hp : p < s.params.nports) (b : Bank)
    (f : Word → Word) :
    readModifyWrite s (wordOff s.params b p) f =
      some (writeWord s.nextDraw b (wordIdx b p) (f (memRead s (wordOff s.params b p)))) :=
  memWrite_wordOff (s := s.nextDraw) h hp b _

/-- A write that is not refused is a bank write. -/
theorem memWrite_some {s t : State} {off : Nat} {v : Word} (h : memWrite s off v = some t) :
    ∃ b i, decodeOffset s.params off = some (b, i) ∧ i < s.params.words b ∧ t = writeWord s b i v := by
  unfold memWrite at h
  split at h
  · rename_i b i hd
    exact ⟨b, i, hd, (decodeOffset_some hd).2, by simpa using h.symm⟩
  · simp at h

/-! ### MemRead (40_window.md R131) -/

/-- The valid bits of a read of a readable bank's word: what is stored there. -/
theorem memRead_valid {s : State} (h : s.params.legal) {p : Nat} (hp : p < s.params.nports) {b : Bank}
    (hb : b ∈ [.fsel, .eds, .ren, .fen]) :
    memRead s (wordOff s.params b p) &&& bankMask s.params b (wordIdx b p) =
      regWord s b (wordIdx b p) &&& bankMask s.params b (wordIdx b p) := by
  unfold memRead readWord
  rw [decodeOffset_wordOff h hp]
  cases b <;> simp at hb <;> exact fillReserved_and_mask _ _ _

/-- A readable single-bit bank's word holds the port's own bit. -/
theorem memRead_bit {s : State} (h : s.params.legal) {p : Nat} (hp : p < s.params.nports) {b : Bank}
    (hb : b ∈ [.eds, .ren, .fen]) :
    (memRead s (wordOff s.params b p)).getLsbD (p % 32) = (regWord s b (p / 32)).getLsbD (p % 32) := by
  have hm : (validMask s.params (p / 32)).getLsbD (p % 32) = true := validMask_port _ _ hp
  have hj : p % 32 < 32 := Nat.mod_lt _ (by decide)
  unfold memRead readWord
  rw [decodeOffset_wordOff h hp]
  cases b <;> simp at hb <;> simp only [wordIdx, regWord] <;> rw [fillReserved_getLsbD _ _ _ _ hj, if_pos hm]

/-- The Level bit of a port is its pad level (10_state.md R28). -/
theorem memRead_level {s : State} (h : s.params.legal) {p : Nat} (hp : p < s.params.nports) :
    (memRead s (wordOff s.params .lev p)).getLsbD (p % 32) = pad s p := by
  have hj : p % 32 < 32 := Nat.mod_lt _ (by decide)
  have he : 32 * (p / 32) + p % 32 = p := by omega
  have hm : (validMask s.params (p / 32)).getLsbD (p % 32) = true := validMask_port _ _ hp
  unfold memRead readWord
  rw [decodeOffset_wordOff h hp]
  show ((wordOf fun j => decide (32 * (p / 32) + j < s.params.nports) && pad s (32 * (p / 32) + j)) |||
    (Config.freeWord s.draws &&& ~~~(validMask s.params (p / 32)))).getLsbD (p % 32) = _
  rw [BitVec.getLsbD_or, wordOf_getLsbD, BitVec.getLsbD_and, BitVec.getLsbD_not, hm]
  simp [he, hp, hj]

/-- The function field of a port as MemRead gives it: exact, whatever the draw (41_codec.md R158). -/
theorem memRead_field {s : State} (h : s.params.legal) {p : Nat} (hp : p < s.params.nports) :
    extractField p (memRead s (wordOff s.params .fsel p)) = field s p := by
  have hs : fselShift p ≤ 27 := by unfold fselShift; omega
  unfold memRead readWord
  rw [decodeOffset_wordOff h hp]
  refine BitVec.eq_of_getLsbD_eq fun k hk => ?_
  simp only [wordIdx, field]
  rw [extractField_getLsbD, extractField_getLsbD, fillReserved_getLsbD _ _ _ _ (by omega),
    if_pos (validFieldMask_port _ _ _ hp hk)]

end Sys2Proof.Machine
end

