-- ==== Sys2Proof/Laws/Ports.lean ====
section
/-! SUPPORT. What the port operations leave in the registers, said once: SETBIT, CLRBIT, PULSE, SETFN and the
micro-steps of OPEN, CLOSE, BEGINWATCH, ENDWATCH and the watcher are made of them. -/

namespace Sys2Proof.Machine

/-! ### Read-modify-writes: the draw of the reserved bits does not show -/

theorem storeWord_congr (s : State) {b : Bank} (hb : b ∈ [.fsel, .ren, .fen]) (i : Nat) {v w : Word}
    (h : v &&& bankMask s.params b i = w &&& bankMask s.params b i) : storeWord s b i v = storeWord s b i w := by
  cases b <;> simp at hb <;> simp only [bankMask] at h <;> simp only [storeWord] <;> rw [mergeValid_congr h]

/-- A codec read-modify-write writes `f` of the stored word, where `f` keeps reserved bits apart from valid ones
(20_memory.md R71). -/
theorem readModifyWrite_eq {s : State} (h : s.params.legal) {p : Nat} (hp : p < s.params.nports) {b : Bank}
    (hb : b ∈ [.fsel, .ren, .fen]) (f : Word → Word)
    (hf : ∀ m v w : Word, v &&& m = w &&& m → f v &&& m = f w &&& m) :
    readModifyWrite s (wordOff s.params b p) f =
      some (writeWord s.nextDraw b (wordIdx b p) (f (regWord s b (wordIdx b p)))) := by
  rw [readModifyWrite_wordOff h hp]
  unfold writeWord
  rw [storeWord_congr s.nextDraw hb (wordIdx b p)
    (hf _ _ _ (memRead_valid h hp (b := b) (by cases b <;> simp_all)))]

theorem setPortBit_eq {s : State} (h : s.params.legal) {p : Nat} (hp : p < s.params.nports) {b : Bank}
    (hb : b.acceptsBitWrite = true) :
    setPortBit b p s = some (writeWord s.nextDraw b (p / 32) (regWord s b (p / 32) ||| portBit p)) := by
  cases b <;> simp [Bank.acceptsBitWrite] at hb <;>
    exact readModifyWrite_eq h hp (by simp) (fun w => w ||| portBit p) (fun m v w hvw => or_and_mask m _ hvw)

theorem clearPortBit_eq {s : State} (h : s.params.legal) {p : Nat} (hp : p < s.params.nports) {b : Bank}
    (hb : b.acceptsBitWrite = true) :
    clearPortBit b p s = some (writeWord s.nextDraw b (p / 32) (regWord s b (p / 32) &&& ~~~(portBit p))) := by
  cases b <;> simp [Bank.acceptsBitWrite] at hb <;>
    exact readModifyWrite_eq h hp (by simp) (fun w => w &&& ~~~(portBit p)) (fun m v w hvw => and_and_mask m _ hvw)

theorem writeField_eq {s : State} (h : s.params.legal) {p : Nat} (hp : p < s.params.nports) (code : BitVec 3) :
    writeField code p s =
      some (writeWord s.nextDraw .fsel (p / 10) (insertField p code (s.regs.fsel.word (p / 10)))) :=
  readModifyWrite_eq h hp (b := .fsel) (by simp) (insertField p code) (fun m v w hvw => insertField_and_mask m p code hvw)

theorem pulsePortBit_eq {s : State} (h : s.params.legal) {p : Nat} (hp : p < s.params.nports) {b : Bank}
    (hb : b.acceptsPulse = true) : pulsePortBit b p s = some (writeWord s b (p / 32) (portBit p)) := by
  unfold pulsePortBit
  rw [memWrite_wordOff h hp]
  cases b <;> simp [Bank.acceptsPulse] at hb <;> rfl

/-! ### The words left -/

/-- The bit of a valid port is inside its word's mask. -/
theorem portBit_and_validMask {P : Params} {p : Nat} (hp : p < P.nports) :
    portBit p &&& validMask P (p / 32) = portBit p := by
  refine word_ext fun j _ => ?_
  rw [BitVec.getLsbD_and, portBit_getLsbD]
  by_cases h : j = p % 32
  · subst h; simp only [decide_true, Bool.true_and]; exact validMask_port P p hp
  · simp [h]

theorem mergeValid_set {P : Params} {p : Nat} (hp : p < P.nports) (old : Word) :
    mergeValid (validMask P (p / 32)) old (old ||| portBit p) = old ||| portBit p := by
  refine word_ext fun j hj => ?_
  rw [mergeValid_getLsbD _ _ _ _ hj, BitVec.getLsbD_or, portBit_getLsbD]
  by_cases h : j = p % 32
  · subst h; rw [if_pos (validMask_port P p hp)]
  · simp [h]

theorem mergeValid_clear {P : Params} {p : Nat} (hp : p < P.nports) (old : Word) :
    mergeValid (validMask P (p / 32)) old (old &&& ~~~(portBit p)) = old &&& ~~~(portBit p) := by
  refine word_ext fun j hj => ?_
  rw [mergeValid_getLsbD _ _ _ _ hj, BitVec.getLsbD_and, BitVec.getLsbD_not, portBit_getLsbD]
  by_cases h : j = p % 32
  · subst h; rw [if_pos (validMask_port P p hp)]
  · simp [h, hj]

theorem mergeValid_insertField {P : Params} {p : Nat} (hp : p < P.nports) (code : BitVec 3) (old : Word) :
    mergeValid (validFieldMask P (p / 10)) old (insertField p code old) = insertField p code old := by
  refine word_ext fun j hj => ?_
  rw [mergeValid_getLsbD _ _ _ _ hj]
  split
  · rfl
  · rename_i hm
    rw [insertField_getLsbD _ _ _ _ hj, if_neg]
    rintro ⟨h1, h2⟩
    have := validFieldMask_port P p (j - fselShift p) hp (by omega)
    rw [show fselShift p + (j - fselShift p) = j by omega] at this
    exact hm this

/-- Setting a port's enable bit ORs the bit into its word and changes no other word (41_codec.md R153). -/
theorem regWord_setPortBit {s : State} {p : Nat} (hp : p < s.params.nports) {b : Bank} (hb : b.acceptsBitWrite = true)
    (b' : Bank) (j : Nat) :
    regWord (writeWord s.nextDraw b (p / 32) (regWord s b (p / 32) ||| portBit p)) b' j =
      if b' = b ∧ j = p / 32 then regWord s b j ||| portBit p else regWord s b' j := by
  rw [regWord_writeWord_quiet _ _ _ _ (by cases b <;> simp_all [Bank.acceptsBitWrite]), regWord_storeWord]
  by_cases hc : b' = b ∧ j = p / 32
  · obtain ⟨rfl, rfl⟩ := hc
    cases b' <;> simp [Bank.acceptsBitWrite] at hb <;> simp [sameStorage, writtenWord, regWord, mergeValid_set hp]
  · cases b <;> simp [Bank.acceptsBitWrite] at hb <;> cases b' <;> simp_all [sameStorage, regWord]

/-- Clearing a port's enable bit takes the bit out of its word and changes no other word (41_codec.md R154). -/
theorem regWord_clearPortBit {s : State} {p : Nat} (hp : p < s.params.nports) {b : Bank}
    (hb : b.acceptsBitWrite = true) (b' : Bank) (j : Nat) :
    regWord (writeWord s.nextDraw b (p / 32) (regWord s b (p / 32) &&& ~~~(portBit p))) b' j =
      if b' = b ∧ j = p / 32 then regWord s b j &&& ~~~(portBit p) else regWord s b' j := by
  rw [regWord_writeWord_quiet _ _ _ _ (by cases b <;> simp_all [Bank.acceptsBitWrite]), regWord_storeWord]
  by_cases hc : b' = b ∧ j = p / 32
  · obtain ⟨rfl, rfl⟩ := hc
    cases b' <;> simp [Bank.acceptsBitWrite] at hb <;> simp [sameStorage, writtenWord, regWord, mergeValid_clear hp]
  · cases b <;> simp [Bank.acceptsBitWrite] at hb <;> cases b' <;> simp_all [sameStorage, regWord]

/-- Writing 1 to a port's EDS bit takes it out of its word and changes no other word (10_state.md R29). -/
theorem regWord_pulseEds {s : State} {p : Nat} (hp : p < s.params.nports) (b' : Bank) (j : Nat) :
    regWord (writeWord s .eds (p / 32) (portBit p)) b' j =
      if b' = .eds ∧ j = p / 32 then regWord s .eds j &&& ~~~(portBit p) else regWord s b' j := by
  rw [regWord_writeWord_quiet _ _ _ _ (by simp), regWord_storeWord]
  by_cases hc : b' = .eds ∧ j = p / 32
  · obtain ⟨rfl, rfl⟩ := hc
    simp [sameStorage, writtenWord, portBit_and_validMask hp]
  · cases b' <;> simp_all [sameStorage]

/-- The latch after a SET or CLR of a port, and the words that no SET or CLR touches (10_state.md R26, R27). -/
theorem regWord_pulseLatch {s : State} {p : Nat} (hp : p < s.params.nports) {b : Bank} (hb : b ∈ [.set, .clr])
    {b' : Bank} (he : b' ≠ .eds) (j : Nat) :
    regWord (writeWord s b (p / 32) (portBit p)) b' j =
      if b' ∈ [Bank.set, Bank.clr] ∧ j = p / 32 then
        (if b = .set then regWord s b j ||| portBit p else regWord s b j &&& ~~~(portBit p))
      else regWord s b' j := by
  rw [regWord_writeWord _ _ _ _ _ _ he, regWord_storeWord]
  cases b <;> simp at hb <;> cases b' <;> simp_all [sameStorage, writtenWord, portBit_and_validMask hp, regWord]

/-- The FSEL words after a port's field is written, and the words that it does not touch (41_codec.md R157). -/
theorem regWord_writeField {s : State} {p : Nat} (hp : p < s.params.nports) (code : BitVec 3) {b' : Bank}
    (he : b' ≠ .eds) (j : Nat) :
    regWord (writeWord s.nextDraw .fsel (p / 10) (insertField p code (s.regs.fsel.word (p / 10)))) b' j =
      if b' = .fsel ∧ j = p / 10 then insertField p code (s.regs.fsel.word j) else regWord s b' j := by
  rw [regWord_writeWord _ _ _ _ _ _ he, regWord_storeWord]
  cases b' <;> simp_all [sameStorage, writtenWord, regWord, mergeValid_insertField hp]

/-! ### Other ports (41_codec.md R159) -/

/-- Two different ports of one word have different bits. -/
theorem bit_ne_of_word_eq {p q : Nat} (h : q ≠ p) (hw : q / 32 = p / 32) : q % 32 ≠ p % 32 := by omega

theorem or_portBit_other (w : Word) {p q : Nat} (h : q % 32 ≠ p % 32) :
    (w ||| portBit p).getLsbD (q % 32) = w.getLsbD (q % 32) := by
  rw [BitVec.getLsbD_or, portBit_getLsbD]; simp [h]

theorem andNot_portBit_other (w : Word) {p q : Nat} (h : q % 32 ≠ p % 32) :
    (w &&& ~~~(portBit p)).getLsbD (q % 32) = w.getLsbD (q % 32) := by
  rw [BitVec.getLsbD_and, BitVec.getLsbD_not, portBit_getLsbD]
  simp [h, Nat.mod_lt]

@[simp] theorem or_portBit_self (w : Word) (p : Nat) : (w ||| portBit p).getLsbD (p % 32) = true := by
  rw [BitVec.getLsbD_or, portBit_getLsbD]; simp

@[simp] theorem andNot_portBit_self (w : Word) (p : Nat) : (w &&& ~~~(portBit p)).getLsbD (p % 32) = false := by
  rw [BitVec.getLsbD_and, BitVec.getLsbD_not, portBit_getLsbD]; simp

/-- `PortUntouched` reads the registers, the outside levels and the parameters alone. -/
theorem PortUntouched.congr {q : Nat} {s t s' t' : State} (h : PortUntouched q s t) (hs1 : s'.regs = s.regs)
    (hs2 : s'.ext = s.ext) (hs3 : s'.params = s.params) (ht1 : t'.regs = t.regs) (ht2 : t'.ext = t.ext)
    (ht3 : t'.params = t.params) : PortUntouched q s' t' := by
  unfold PortUntouched pad field latBit edsBit renBit fenBit at h ⊢
  rw [hs1, hs2, hs3, ht1, ht2, ht3]
  exact h

theorem PortUntouched.trans {q : Nat} {s t u : State} (h1 : PortUntouched q s t) (h2 : PortUntouched q t u) :
    PortUntouched q s u := by
  unfold PortUntouched at *
  simp only [h2, h1, and_self]

theorem PortUntouched.refl (q : Nat) (s : State) : PortUntouched q s s := by
  unfold PortUntouched
  simp only [and_self]

/-- A port whose bits and field a quiet write leaves alone is untouched. -/
theorem portUntouched_of_words {q : Nat} {s t : State} (hp : t.params = s.params) (he : t.ext = s.ext)
    (hf : field t q = field s q) (hl : latBit t q = latBit s q) (hd : edsBit t q = edsBit s q)
    (hr : renBit t q = renBit s q) (hn : fenBit t q = fenBit s q) : PortUntouched q s t :=
  ⟨hf, hl, hd, hr, hn, pad_congr hp hf hl (by rw [he])⟩

theorem portUntouched_setPortBit {s : State} {p q : Nat} (hp : p < s.params.nports) {b : Bank}
    (hb : b.acceptsBitWrite = true) (hq : q ≠ p) :
    PortUntouched q s (writeWord s.nextDraw b (p / 32) (regWord s b (p / 32) ||| portBit p)) := by
  have hw := regWord_setPortBit hp hb
  have key : ∀ b', (regWord (writeWord s.nextDraw b (p / 32) (regWord s b (p / 32) ||| portBit p)) b' (q / 32)).getLsbD
      (q % 32) = (regWord s b' (q / 32)).getLsbD (q % 32) := by
    intro b'
    rw [hw]
    split
    · rename_i hc
      rw [or_portBit_other _ (bit_ne_of_word_eq hq hc.2), hc.1]
    · rfl
  refine portUntouched_of_words (by simp) (by simp) (field_congr ?_) (key .set) (key .eds) (key .ren) (key .fen)
  have := hw .fsel (q / 10)
  rw [if_neg (by cases b <;> simp_all [Bank.acceptsBitWrite])] at this
  exact this

theorem portUntouched_clearPortBit {s : State} {p q : Nat} (hp : p < s.params.nports) {b : Bank}
    (hb : b.acceptsBitWrite = true) (hq : q ≠ p) :
    PortUntouched q s (writeWord s.nextDraw b (p / 32) (regWord s b (p / 32) &&& ~~~(portBit p))) := by
  have hw := regWord_clearPortBit hp hb
  have key : ∀ b', (regWord (writeWord s.nextDraw b (p / 32) (regWord s b (p / 32) &&& ~~~(portBit p))) b'
      (q / 32)).getLsbD (q % 32) = (regWord s b' (q / 32)).getLsbD (q % 32) := by
    intro b'
    rw [hw]
    split
    · rename_i hc
      rw [andNot_portBit_other _ (bit_ne_of_word_eq hq hc.2), hc.1]
    · rfl
  refine portUntouched_of_words (by simp) (by simp) (field_congr ?_) (key .set) (key .eds) (key .ren) (key .fen)
  have := hw .fsel (q / 10)
  rw [if_neg (by cases b <;> simp_all [Bank.acceptsBitWrite])] at this
  exact this

theorem portUntouched_pulseEds {s : State} {p q : Nat} (hp : p < s.params.nports) (hq : q ≠ p) :
    PortUntouched q s (writeWord s .eds (p / 32) (portBit p)) := by
  have hw := regWord_pulseEds hp
  have key : ∀ b', (regWord (writeWord s .eds (p / 32) (portBit p)) b' (q / 32)).getLsbD (q % 32) =
      (regWord s b' (q / 32)).getLsbD (q % 32) := by
    intro b'
    rw [hw]
    split
    · rename_i hc
      rw [andNot_portBit_other _ (bit_ne_of_word_eq hq hc.2), hc.1]
    · rfl
  refine portUntouched_of_words (by simp) (by simp) (field_congr ?_) (key .set) (key .eds) (key .ren) (key .fen)
  have := hw .fsel (q / 10)
  rw [if_neg (by simp)] at this
  exact this

/-- A write that leaves a port's field, latch bit and own EDS storage alone leaves its EDS bit alone. -/
theorem edsBit_writeWord_other {s : State} {b : Bank} {i : Nat} {v : Word} {q : Nat} (hq : q < s.params.nports)
    (hb : b ≠ .eds) (hpad : pad (writeWord s b i v) q = pad s q) : edsBit (writeWord s b i v) q = edsBit s q := by
  rw [edsBit_writeWord _ _ _ _ _ hq, enabledEdge_of_pad_eq hpad, Bool.or_false]
  cases b <;> first | rfl | exact absurd rfl hb

theorem portUntouched_pulseLatch {s : State} {p q : Nat} (hp : p < s.params.nports) (hq' : q < s.params.nports)
    {b : Bank} (hb : b ∈ [.set, .clr]) (hq : q ≠ p) : PortUntouched q s (writeWord s b (p / 32) (portBit p)) := by
  have hw := fun {b'} (he : b' ≠ Bank.eds) j => regWord_pulseLatch hp hb (b' := b') he j
  have hf : field (writeWord s b (p / 32) (portBit p)) q = field s q :=
    field_congr (by
      have := hw (b' := .fsel) (by simp) (q / 10)
      rw [if_neg (by simp)] at this
      exact this)
  have hl : latBit (writeWord s b (p / 32) (portBit p)) q = latBit s q := by
    have := hw (b' := .set) (by simp) (q / 32)
    unfold latBit
    show (regWord (writeWord s b (p / 32) (portBit p)) .set (q / 32)).getLsbD (q % 32) = _
    rw [this]
    split
    · rename_i hc
      have hne := bit_ne_of_word_eq hq hc.2
      have hlat : regWord s b (q / 32) = s.regs.lat.word (q / 32) := by cases b <;> simp at hb <;> rfl
      split
      · rw [or_portBit_other _ hne, hlat]
      · rw [andNot_portBit_other _ hne, hlat]
    · rfl
  have hpad : pad (writeWord s b (p / 32) (portBit p)) q = pad s q := pad_congr (by simp) hf hl (by simp)
  refine portUntouched_of_words (by simp) (by simp) hf hl
    (edsBit_writeWord_other hq' (by cases b <;> simp_all) hpad) ?_ ?_
  · have := hw (b' := .ren) (by simp) (q / 32)
    rw [if_neg (by simp)] at this
    exact congrArg (·.getLsbD (q % 32)) this
  · have := hw (b' := .fen) (by simp) (q / 32)
    rw [if_neg (by simp)] at this
    exact congrArg (·.getLsbD (q % 32)) this

theorem field_writeField_self {s : State} {p : Nat} (hp : p < s.params.nports) (code : BitVec 3) :
    field (writeWord s.nextDraw .fsel (p / 10) (insertField p code (s.regs.fsel.word (p / 10)))) p = code := by
  have := regWord_writeField hp code (b' := .fsel) (by simp) (p / 10)
  rw [if_pos ⟨rfl, rfl⟩] at this
  exact (congrArg (extractField p) this).trans (extractField_insertField p code _)

theorem portUntouched_writeField {s : State} {p q : Nat} (hp : p < s.params.nports) (hq' : q < s.params.nports)
    (code : BitVec 3) (hq : q ≠ p) :
    PortUntouched q s
      (writeWord s.nextDraw .fsel (p / 10) (insertField p code (s.regs.fsel.word (p / 10)))) := by
  have hw := fun {b'} (he : b' ≠ Bank.eds) j => regWord_writeField hp code (b' := b') he j
  have hf : field (writeWord s.nextDraw .fsel (p / 10) (insertField p code (s.regs.fsel.word (p / 10)))) q =
      field s q := by
    have := hw (b' := .fsel) (by simp) (q / 10)
    unfold field
    show extractField q (regWord _ .fsel (q / 10)) = _
    rw [this]
    split
    · rename_i hc
      exact extractField_insertField_of_ne p q code _ (by omega)
    · rfl
  have hl : latBit (writeWord s.nextDraw .fsel (p / 10) (insertField p code (s.regs.fsel.word (p / 10)))) q =
      latBit s q := by
    have := hw (b' := .set) (by simp) (q / 32)
    rw [if_neg (by simp)] at this
    exact congrArg (·.getLsbD (q % 32)) this
  have hpad := pad_congr (t := writeWord s.nextDraw .fsel (p / 10) (insertField p code (s.regs.fsel.word (p / 10))))
    (s := s) (p := q) (by simp) hf hl (by simp)
  refine portUntouched_of_words (by simp) (by simp) hf hl ?_ ?_ ?_
  · exact edsBit_writeWord_other (s := s.nextDraw) (b := .fsel) hq' (by simp) hpad
  · have := hw (b' := .ren) (by simp) (q / 32)
    rw [if_neg (by simp)] at this
    exact congrArg (·.getLsbD (q % 32)) this
  · have := hw (b' := .fen) (by simp) (q / 32)
    rw [if_neg (by simp)] at this
    exact congrArg (·.getLsbD (q % 32)) this

end Sys2Proof.Machine
end

