-- ==== Sys2Proof/Laws/Micro.lean ====
section
/-! SUPPORT. What a micro-step can do, said once: `RegStep` for a register access, `CommandStep` for a command,
`WatcherStep` for a watcher, and the step that takes the outside's choice. A rule over every step is a case analysis on
these. -/

namespace Sys2Proof.Machine

/-! ### Register accesses -/

/-- A register access, or none: nothing but the registers and the draw counter changes, the canonical form of the
registers is kept, and an EDS bit is set only by an enabled edge (40_window.md R131, R132; 43_edge_watch.md R211). -/
structure RegStep (s u : State) : Prop where
  params : u.params = s.params
  ext : u.ext = s.ext
  win : u.win = s.win
  handle : u.handle = s.handle
  busy : u.busy = s.busy
  watch : u.watch = s.watch
  main : u.main = s.main
  callbacks : u.callbacks = s.callbacks
  log : u.log = s.log
  inputs : u.inputs = s.inputs
  mapAnswers : u.mapAnswers = s.mapAnswers
  active : u.active = s.active
  wf : s.regs.wf s.params = true → u.regs.wf s.params = true
  edges : ∀ p < s.params.nports, edsBit u p = true → edsBit s p = true ∨ enabledEdge s u p = true

/-- The draw counter of the state before an access does not matter. -/
theorem RegStep.of_nextDraw {s u : State} (h : RegStep s.nextDraw u) : RegStep s u where
  params := h.params
  ext := h.ext
  win := h.win
  handle := h.handle
  busy := h.busy
  watch := h.watch
  main := h.main
  callbacks := h.callbacks
  log := h.log
  inputs := h.inputs
  mapAnswers := h.mapAnswers
  active := h.active
  wf := h.wf
  edges := h.edges

/-- No access. -/
theorem RegStep.refl (s : State) : RegStep s s := by
  constructor
  case wf => exact id
  case edges => exact fun _ _ => .inl
  all_goals rfl

/-- A read. -/
theorem RegStep.nextDraw (s : State) : RegStep s s.nextDraw := by
  constructor
  case wf => exact id
  case edges => exact fun _ _ => .inl
  all_goals rfl

theorem latchWords_wf (s0 s : State) (n m : Nat) (hn : n ≤ m) (h : s.regs.eds.wordsWf m = true) :
    (latchWords s0 s n).wordsWf m = true := by
  induction n with
  | zero => exact h
  | succ n ih => exact Table.wordsWf_putWord _ _ _ _ (by omega) (ih (by omega))

/-- The edge latch keeps the canonical form of the registers. -/
theorem edgeLatch_wf (s0 s : State) (h : s.regs.wf s.params = true) : (edgeLatch s0 s).regs.wf s.params = true := by
  simp only [RegisterState.wf, Bool.and_eq_true] at h ⊢
  exact ⟨⟨⟨h.1.1.1, latchWords_wf s0 s _ _ (Nat.le_refl _) h.1.1.2⟩, h.1.2⟩, h.2⟩

/-- A write to a bank word keeps the canonical form of the registers. -/
theorem storeWord_wf (s : State) (b : Bank) (i : Nat) (v : Word) (hi : i < s.params.words b)
    (h : s.regs.wf s.params = true) : (storeWord s b i v).regs.wf s.params = true := by
  simp only [RegisterState.wf, Bool.and_eq_true] at h ⊢
  obtain ⟨⟨⟨⟨h1, h2⟩, h3⟩, h4⟩, h5⟩ := h
  cases b <;> simp only [Params.words] at hi <;>
    simp [storeWord, Table.wordsWf_putWord, *]

theorem writeWord_wf (s : State) (b : Bank) (i : Nat) (v : Word) (hi : i < s.params.words b)
    (h : s.regs.wf s.params = true) : (writeWord s b i v).regs.wf s.params = true := by
  have := edgeLatch_wf s (storeWord s b i v) (by simpa using storeWord_wf s b i v hi h)
  simpa [writeWord] using this

/-- No bank write sets an EDS bit. -/
theorem edsBit_storeWord (s : State) (b : Bank) (i : Nat) (v : Word) (p : Nat)
    (h : edsBit (storeWord s b i v) p = true) : edsBit s p = true := by
  cases b <;> try exact h
  have hw := regWord_storeWord s .eds i v .eds (p / 32)
  unfold edsBit at h ⊢
  change (regWord (storeWord s .eds i v) .eds (p / 32)).getLsbD (p % 32) = true at h
  rw [hw] at h
  split at h
  · rename_i hc
    simp only [writtenWord, BitVec.getLsbD_and, Bool.and_eq_true] at h
    rw [hc.2]
    exact h.1
  · exact h

theorem writeWord_regStep (s : State) (b : Bank) (i : Nat) (v : Word) (hi : i < s.params.words b) :
    RegStep s (writeWord s b i v) := by
  constructor
  case wf => exact writeWord_wf s b i v hi
  case edges =>
    intro p hp h
    rw [edsBit_writeWord _ _ _ _ _ hp, Bool.or_eq_true] at h
    exact h.imp (edsBit_storeWord s b i v p) id
  all_goals simp

theorem memWrite_regStep {s u : State} {off : Nat} {v : Word} (h : memWrite s off v = some u) : RegStep s u := by
  obtain ⟨b, i, -, hi, rfl⟩ := memWrite_some h
  exact writeWord_regStep s b i v hi

theorem readModifyWrite_regStep {s u : State} {off : Nat} {f : Word → Word}
    (h : readModifyWrite s off f = some u) : RegStep s u := by
  exact .of_nextDraw (memWrite_regStep h)

/-! ### One-step commands -/

theorem oneStep_next {i : Instr} {s t : State} {body : State → Result} (h : oneStep i s body = .next t) :
    s.position i = .start ∧ body s = .next t := by
  unfold oneStep at h
  split at h
  · rename_i hp; exact ⟨hp, h⟩
  · cases h
  · cases h

theorem checked_next {i : Instr} {e : Option Status} {s t : State} {k : State → Result}
    (h : checked i e s k = .next t) : (∃ x, e = some x ∧ t = raise i x s) ∨ (e = none ∧ k s = .next t) := by
  cases e with
  | none => exact .inr ⟨rfl, h⟩
  | some x => exact .inl ⟨x, rfl, by simpa using h.symm⟩

theorem afterWrite_next {o : Option State} {k : State → State} {t : State} (h : afterWrite o k = .next t) :
    ∃ u, o = some u ∧ t = k u := by
  cases o with
  | none => cases h
  | some u => exact ⟨u, rfl, by simpa using h.symm⟩

/-- A response to command `i` after a register access, or after none. -/
inductive Answered (i : Instr) (s : State) : State → Prop where
  | mk (u : State) (hu : RegStep s u) (e : Status) (v : Word) : Answered i s (u.respond (encodeWord i) e v)

/-- A command whose effect is a response: its first micro-step is its only one. -/
theorem answered_of_oneStep {i : Instr} {s t : State} {e : State → Option Status}
    {k : State → State → Result} (h : oneStep i s (fun s => checked i (e s) s (k s)) = .next t)
    (hk : ∀ u, k s s = .next u → Answered i s u) :
    s.position i = .start ∧ Answered i s t := by
  obtain ⟨hp, hb⟩ := oneStep_next h
  refine ⟨hp, ?_⟩
  obtain ⟨x, -, rfl⟩ | ⟨-, hb⟩ := checked_next hb
  · exact .mk s (RegStep.refl s) x 0
  · exact hk t hb

theorem answered_afterWrite {i : Instr} {s u : State} {o : Option State} {v : Word}
    (ho : ∀ u, o = some u → RegStep s u) (h : afterWrite o (finish i v) = .next u) : Answered i s u := by
  obtain ⟨w, hw, rfl⟩ := afterWrite_next h
  exact .mk w (ho w hw) .ok v

theorem answered_read {i : Instr} {s u : State} {v : Word} (h : (.next (finish i v s.nextDraw) : Result) = .next u) :
    Answered i s u := by
  cases h
  exact .mk s.nextDraw (RegStep.nextDraw s) .ok v

/-! ### The mapping and RemoveWatch -/

section
variable (s : State)
@[simp] theorem mapIfUnmapped_params : (mapIfUnmapped s).params = s.params := by
  unfold mapIfUnmapped mapStep State.takeMapAnswer; split <;> (try split) <;> rfl
@[simp] theorem mapIfUnmapped_regs : (mapIfUnmapped s).regs = s.regs := by
  unfold mapIfUnmapped mapStep State.takeMapAnswer; split <;> (try split) <;> rfl
@[simp] theorem mapIfUnmapped_ext : (mapIfUnmapped s).ext = s.ext := by
  unfold mapIfUnmapped mapStep State.takeMapAnswer; split <;> (try split) <;> rfl
@[simp] theorem mapIfUnmapped_handle : (mapIfUnmapped s).handle = s.handle := by
  unfold mapIfUnmapped mapStep State.takeMapAnswer; split <;> (try split) <;> rfl
@[simp] theorem mapIfUnmapped_busy : (mapIfUnmapped s).busy = s.busy := by
  unfold mapIfUnmapped mapStep State.takeMapAnswer; split <;> (try split) <;> rfl
@[simp] theorem mapIfUnmapped_watch : (mapIfUnmapped s).watch = s.watch := by
  unfold mapIfUnmapped mapStep State.takeMapAnswer; split <;> (try split) <;> rfl
@[simp] theorem mapIfUnmapped_main : (mapIfUnmapped s).main = s.main := by
  unfold mapIfUnmapped mapStep State.takeMapAnswer; split <;> (try split) <;> rfl
@[simp] theorem mapIfUnmapped_callbacks : (mapIfUnmapped s).callbacks = s.callbacks := by
  unfold mapIfUnmapped mapStep State.takeMapAnswer; split <;> (try split) <;> rfl
@[simp] theorem mapIfUnmapped_log : (mapIfUnmapped s).log = s.log := by
  unfold mapIfUnmapped mapStep State.takeMapAnswer; split <;> (try split) <;> rfl
@[simp] theorem mapIfUnmapped_inputs : (mapIfUnmapped s).inputs = s.inputs := by
  unfold mapIfUnmapped mapStep State.takeMapAnswer; split <;> (try split) <;> rfl
@[simp] theorem mapIfUnmapped_active : (mapIfUnmapped s).active = s.active := by
  unfold mapIfUnmapped mapStep State.takeMapAnswer; split <;> (try split) <;> rfl

/-- The gate of OPEN never leaves the window unmapped, and maps or fails it only from Unmapped (40_window.md R134). -/
theorem mapIfUnmapped_win : (mapIfUnmapped s).win ≠ .unmapped ∧ (s.win ≠ .unmapped → mapIfUnmapped s = s) := by
  unfold mapIfUnmapped mapStep
  by_cases h : s.win = .unmapped
  · simp only [h, if_true]; split <;> simp
  · simp [h]

/-- An error of O1 puts the window back, but for a mapping that failed (60_exceptions.md R256). -/
theorem undoMapping_win :
    (undoMapping s).win = s.win ∨ ∃ e, s.win = .unmapped ∧ (undoMapping s).win = .failed e := by
  unfold undoMapping
  obtain ⟨h1, h2⟩ := mapIfUnmapped_win s
  split
  · exact .inl rfl
  · rename_i h
    by_cases hw : s.win = .unmapped
    · cases hm : (mapIfUnmapped s).win with
      | unmapped => exact absurd hm h1
      | mapped => exact absurd hm h
      | failed e => exact .inr ⟨e, hw, rfl⟩
    · rw [h2 hw]
      exact .inl rfl

/-- With the window mapped or failed there is no mapping to undo. -/
theorem undoMapping_of_not_unmapped (h : s.win ≠ .unmapped) : undoMapping s = s := by
  unfold undoMapping
  rw [(mapIfUnmapped_win s).2 h]
  split <;> rfl

@[simp] theorem undoMapping_params : (undoMapping s).params = s.params := by
  unfold undoMapping; split <;> simp
@[simp] theorem undoMapping_regs : (undoMapping s).regs = s.regs := by
  unfold undoMapping; split <;> simp
@[simp] theorem undoMapping_ext : (undoMapping s).ext = s.ext := by
  unfold undoMapping; split <;> simp
@[simp] theorem undoMapping_handle : (undoMapping s).handle = s.handle := by
  unfold undoMapping; split <;> simp
@[simp] theorem undoMapping_busy : (undoMapping s).busy = s.busy := by
  unfold undoMapping; split <;> simp
@[simp] theorem undoMapping_watch : (undoMapping s).watch = s.watch := by
  unfold undoMapping; split <;> simp
@[simp] theorem undoMapping_main : (undoMapping s).main = s.main := by
  unfold undoMapping; split <;> simp
@[simp] theorem undoMapping_callbacks : (undoMapping s).callbacks = s.callbacks := by
  unfold undoMapping; split <;> simp
@[simp] theorem undoMapping_log : (undoMapping s).log = s.log := by
  unfold undoMapping; split <;> simp
@[simp] theorem undoMapping_inputs : (undoMapping s).inputs = s.inputs := by
  unfold undoMapping; split <;> simp
@[simp] theorem undoMapping_active : (undoMapping s).active = s.active := by
  unfold undoMapping; split <;> simp

variable (p : Nat)
@[simp] theorem removeWatch_params : (removeWatch p s).params = s.params := by
  unfold removeWatch; split <;> (try split) <;> rfl
@[simp] theorem removeWatch_regs : (removeWatch p s).regs = s.regs := by
  unfold removeWatch; split <;> (try split) <;> rfl
@[simp] theorem removeWatch_ext : (removeWatch p s).ext = s.ext := by
  unfold removeWatch; split <;> (try split) <;> rfl
@[simp] theorem removeWatch_win : (removeWatch p s).win = s.win := by
  unfold removeWatch; split <;> (try split) <;> rfl
@[simp] theorem removeWatch_handle : (removeWatch p s).handle = s.handle := by
  unfold removeWatch; split <;> (try split) <;> rfl
@[simp] theorem removeWatch_busy : (removeWatch p s).busy = s.busy := by
  unfold removeWatch; split <;> (try split) <;> rfl
@[simp] theorem removeWatch_main : (removeWatch p s).main = s.main := by
  unfold removeWatch; split <;> (try split) <;> rfl
@[simp] theorem removeWatch_callbacks : (removeWatch p s).callbacks = s.callbacks := by
  unfold removeWatch; split <;> (try split) <;> rfl
@[simp] theorem removeWatch_log : (removeWatch p s).log = s.log := by
  unfold removeWatch; split <;> (try split) <;> rfl
@[simp] theorem removeWatch_inputs : (removeWatch p s).inputs = s.inputs := by
  unfold removeWatch; split <;> (try split) <;> rfl
@[simp] theorem removeWatch_active : (removeWatch p s).active = s.active := by
  unfold removeWatch; split <;> (try split) <;> rfl

/-- RemoveWatch takes away a stopped watch of its port and no other (43_edge_watch.md R224). -/
theorem removeWatch_lookup (q : Nat) :
    (removeWatch p s).watch.lookup q = if q = p ∧ watchStopped s p = true then none else s.watch.lookup q := by
  unfold removeWatch watchStopped
  cases h : s.watch.lookup p with
  | none => by_cases hq : q = p <;> simp [hq, h]
  | some w => by_cases hq : q = p <;> by_cases hw : w.phase = .stopped <;> simp [hq, hw, h]
end

/-! ### Commands -/

/-- What a micro-step of command `i` can do when it answers a next state. -/
inductive CommandStep (i : Instr) (s : State) : State → Prop where
  /-- A command of one micro-step, or the first micro-step of another that raises: a response. -/
  | answer (hp : s.position i = .start) {t : State} (ht : Answered i s t) : CommandStep i s t
  /-- WINCLOSE (40_window.md R140). -/
  | winclose (hi : i = .winclose) (hp : s.position i = .start) (hw : s.win = .mapped)
      (hh : ∀ p, s.handle.lookup p = none) : CommandStep i s (finish i 0 (s.setWin .unmapped))
  /-- O1 of OPEN raises (42_pin_handle.md R182). -/
  | openRaise (m : Mode) (p : Port) (e : Status) (hi : i = .openPin m p) (hp : s.position i = .start) :
      CommandStep i s (raise i e (undoMapping s))
  /-- O1 of OPEN reserves the port. -/
  | openReserve (m : Mode) (p : Port) (hi : i = .openPin m p) (hp : s.position i = .start)
      (hw : (mapIfUnmapped s).win = .mapped) (hr : p.toNat < s.params.nports) (hh : s.handle.lookup p.toNat = none) :
      CommandStep i s
        ((((mapIfUnmapped s).setHandle p.toNat (some m)).setBusy p.toNat true).goto i .o2 Locals.none)
  /-- O2 of OPEN programs the function. -/
  | openProgram (m : Mode) (p : Port) (loc : Locals) (u : State) (hi : i = .openPin m p)
      (hp : s.position i = .running .o2 loc) (hw : s.win = .mapped) (hu : RegStep s u) :
      CommandStep i s (finish i 0 (u.setBusy p.toNat false))
  /-- O2 of OPEN undoes the reservation. -/
  | openUndo (m : Mode) (p : Port) (loc : Locals) (e : Status) (hi : i = .openPin m p)
      (hp : s.position i = .running .o2 loc) (hw : s.win ≠ .mapped) :
      CommandStep i s (raise i e ((s.setHandle p.toNat none).setBusy p.toNat false))
  /-- K1 of CLOSE with a watch (42_pin_handle.md R186). -/
  | closeStop (p : Port) (hi : i = .closePin p) (hp : s.position i = .start) (hw : s.win ≠ .unmapped)
      (hr : p.toNat < s.params.nports) (ho : isOpen s p.toNat = true) (hh : s.watch.lookup p.toNat ≠ none) :
      CommandStep i s ((signalStop p.toNat (s.setBusy p.toNat true)).goto i .stop ⟨true, .ok⟩)
  /-- K1 of CLOSE without a watch. -/
  | closeBegin (p : Port) (hi : i = .closePin p) (hp : s.position i = .start) (hw : s.win ≠ .unmapped)
      (hr : p.toNat < s.params.nports) (ho : isOpen s p.toNat = true) (hh : s.watch.lookup p.toNat = none) :
      CommandStep i s ((s.setBusy p.toNat true).goto i .d1 ⟨false, .ok⟩)
  /-- E1 of ENDWATCH (43_edge_watch.md R223). -/
  | endStop (p : Port) (hi : i = .endWatch p) (hp : s.position i = .start) (hw : s.win ≠ .unmapped)
      (hr : p.toNat < s.params.nports) (ho : isOpen s p.toNat = true) (hh : s.watch.lookup p.toNat ≠ none) :
      CommandStep i s ((signalStop p.toNat s).goto i .stop ⟨true, .ok⟩)
  /-- StopWatch holds the caller (43_edge_watch.md R224). -/
  | held (p : Port) (loc : Locals) (hi : i = .closePin p ∨ i = .endWatch p) (hp : s.position i = .running .stop loc)
      (hw : watchStopped s p.toNat = false) : CommandStep i s s
  /-- StopWatch goes on. -/
  | stopped (p : Port) (loc : Locals) (hi : i = .closePin p ∨ i = .endWatch p)
      (hp : s.position i = .running .stop loc) (hw : watchStopped s p.toNat = true) :
      CommandStep i s (s.goto i .d1 loc)
  /-- D1, D2 and D3 of DisableDetect (43_edge_watch.md R225). -/
  | disable (p : Port) (k k' : MicroStep) (loc : Locals) (e : Status) (u : State)
      (hi : i = .closePin p ∨ i = .endWatch p) (hp : s.position i = .running k loc)
      (hk : (k = .d1 ∧ k' = .d2) ∨ (k = .d2 ∧ k' = .d3) ∨
        (k = .d3 ∧ k' = if i = .closePin p ∧ loc.hadWatch = false then .k5 else .remove))
      (hu : RegStep s u) : CommandStep i s (u.goto i k' { loc with err := e })
  /-- RemoveWatch in CLOSE (43_edge_watch.md R224). -/
  | closeRemove (p : Port) (loc : Locals) (hi : i = .closePin p) (hp : s.position i = .running .remove loc) :
      CommandStep i s ((removeWatch p.toNat s).goto i .k5 loc)
  /-- RemoveWatch and the response of ENDWATCH. -/
  | endRemove (p : Port) (loc : Locals) (hi : i = .endWatch p) (hp : s.position i = .running .remove loc) :
      CommandStep i s ((removeWatch p.toNat s).respond (encodeWord i) loc.err 0)
  /-- K5 of CLOSE. -/
  | closeInput (p : Port) (loc : Locals) (e : Status) (u : State) (hi : i = .closePin p)
      (hp : s.position i = .running .k5 loc) (hu : RegStep s u) : CommandStep i s (u.goto i .k6 { loc with err := e })
  /-- K6 of CLOSE. -/
  | closeRelease (p : Port) (loc : Locals) (hi : i = .closePin p) (hp : s.position i = .running .k6 loc) :
      CommandStep i s (((s.setHandle p.toNat none).setBusy p.toNat false).respond (encodeWord i) loc.err 0)
  /-- B1 of BEGINWATCH (43_edge_watch.md R221). -/
  | watchCreate (k : EdgeKind) (p : Port) (cb : Word) (hi : i = .beginWatch k p cb) (hp : s.position i = .start)
      (hw : s.win = .mapped) (hr : p.toNat < s.params.nports) (ho : isOpen s p.toNat = true)
      (hm : s.handle.lookup p.toNat = some .input) (hh : s.watch.lookup p.toNat = none) :
      CommandStep i s ((s.setWatch p.toNat (some ⟨k, cb, .starting, false, 0⟩)).goto i .b2 Locals.none)
  /-- B2, B3 and B4 with the window gone. -/
  | watchUndo (k : EdgeKind) (p : Port) (cb : Word) (m : MicroStep) (loc : Locals) (e : Status)
      (hi : i = .beginWatch k p cb) (hp : s.position i = .running m loc) (hm : m = .b2 ∨ m = .b3 ∨ m = .b4)
      (hw : s.win ≠ .mapped) : CommandStep i s (raise i e (s.setWatch p.toNat none))
  /-- B2, B3 and B4. -/
  | watchArm (k : EdgeKind) (p : Port) (cb : Word) (m m' : MicroStep) (loc : Locals) (u : State)
      (hi : i = .beginWatch k p cb) (hp : s.position i = .running m loc) (hm : m = .b2 ∨ m = .b3 ∨ m = .b4)
      (hm' : m' = .b3 ∨ m' = .b4 ∨ m' = .b5) (hw : s.win = .mapped) (hu : RegStep s u) :
      CommandStep i s (u.goto i m' loc)
  /-- B5. -/
  | watchStart (k : EdgeKind) (p : Port) (cb : Word) (loc : Locals) (hi : i = .beginWatch k p cb)
      (hp : s.position i = .running .b5 loc) :
      CommandStep i s (finish i 0 (s.modifyWatch p.toNat fun w => { w with phase := .poll }))

/-- No error is met exactly when each check of the list passes. -/
theorem firstError_cons_eq_none {o : Option Status} {l : List (Option Status)} :
    firstError (o :: l) = none ↔ o = none ∧ firstError l = none := by cases o <;> simp

theorem check_none {ok : Bool} {e : Status} : check ok e = none ↔ ok = true := by cases ok <;> simp

theorem tryAccess_next {access : State → Option State} {err : Status} {s t : State} {k : Status → State → State}
    (hr : ∀ u, access s = some u → RegStep s u) (h : tryAccess access err s k = .next t) :
    ∃ u e, RegStep s u ∧ t = k e u := by
  unfold tryAccess at h
  split at h
  · obtain ⟨u, hu, rfl⟩ := afterWrite_next h
    exact ⟨u, err, hr u hu, rfl⟩
  · cases h
    exact ⟨s, _, RegStep.refl s, rfl⟩

theorem execOpen_next {m : Mode} {p : Port} {s t : State} (h : execOpen m p s = .next t) :
    CommandStep (.openPin m p) s t := by
  unfold execOpen at h
  split at h
  · rename_i hp
    cases h
    unfold openReserve
    split
    · exact .openRaise m p _ rfl hp
    · rename_i he
      simp only [openError, firstError_cons_eq_none] at he
      obtain ⟨h1, h2, h3, -⟩ := he
      have hf : (mapIfUnmapped s).params = s.params ∧ (mapIfUnmapped s).handle = s.handle := by
        unfold mapIfUnmapped mapStep State.takeMapAnswer
        split
        · split <;> simp
        · simp
      unfold rangeCheck at h2
      rw [check_none, hf.1] at h2
      rw [check_none, hf.2] at h3
      exact .openReserve m p rfl hp (windowError_eq_none.1 h1) (by simpa using h2) (by simpa using h3)
  · rename_i loc hp
    unfold openProgram at h
    split at h
    · rename_i hw
      obtain ⟨u, hu, rfl⟩ := afterWrite_next h
      exact .openProgram m p loc u rfl hp (windowError_eq_none.1 hw) (readModifyWrite_regStep hu)
    · rename_i e hw
      cases h
      exact .openUndo m p loc e rfl hp (fun hc => by rw [hc] at hw; cases hw)
  · cases h
  · cases h

theorem unmappedCheck_none {s : State} : unmappedCheck s = none ↔ s.win ≠ .unmapped := by
  simp [unmappedCheck, check_none]

theorem rangeCheck_none {s : State} {p : Port} : rangeCheck s p = none ↔ p.toNat < s.params.nports := by
  simp [rangeCheck, check_none]

theorem openCheck_none {s : State} {p : Port} : openCheck s p = none ↔ isOpen s p.toNat = true := by
  simp [openCheck, check_none]

theorem execClose_next {p : Port} {s t : State} (h : execClose p s = .next t) : CommandStep (.closePin p) s t := by
  unfold execClose at h
  split at h
  · rename_i hp
    cases h
    unfold closeBegin
    split
    · exact .answer hp (.mk s (RegStep.refl s) _ 0)
    · rename_i he
      simp only [firstError_cons_eq_none] at he
      obtain ⟨h1, h2, h3, -⟩ := he
      rw [unmappedCheck_none] at h1
      rw [rangeCheck_none] at h2
      rw [openCheck_none] at h3
      split
      · rename_i hw
        exact .closeStop p rfl hp h1 h2 h3 (by simpa [Option.isSome_iff_ne_none] using hw)
      · rename_i hw
        exact .closeBegin p rfl hp h1 h2 h3 (by simpa using hw)
  · rename_i loc hp
    unfold stopWatch at h
    cases hw : watchStopped s p.toNat
    · simp only [hw, Bool.false_eq_true, if_false] at h
      cases h
      exact .held p loc (.inl rfl) hp hw
    · simp only [hw, if_true] at h
      cases h
      exact .stopped p loc (.inl rfl) hp hw
  · rename_i loc hp
    obtain ⟨u, e, hu, rfl⟩ := tryAccess_next (fun u hu => readModifyWrite_regStep hu) h
    exact .disable p .d1 .d2 loc e u (.inl rfl) hp (.inl ⟨rfl, rfl⟩) hu
  · rename_i loc hp
    obtain ⟨u, e, hu, rfl⟩ := tryAccess_next (fun u hu => readModifyWrite_regStep hu) h
    exact .disable p .d2 .d3 loc e u (.inl rfl) hp (.inr (.inl ⟨rfl, rfl⟩)) hu
  · rename_i loc hp
    obtain ⟨u, e, hu, rfl⟩ := tryAccess_next (fun u hu => memWrite_regStep hu) h
    exact .disable p .d3 _ loc e u (.inl rfl) hp
      (.inr (.inr ⟨rfl, by cases loc.hadWatch <;> simp⟩)) hu
  · rename_i loc hp
    cases h
    exact .closeRemove p loc rfl hp
  · rename_i loc hp
    obtain ⟨u, e, hu, rfl⟩ := tryAccess_next (fun u hu => readModifyWrite_regStep hu) h
    exact .closeInput p loc e u rfl hp hu
  · rename_i loc hp
    cases h
    exact .closeRelease p loc rfl hp
  · cases h
  · cases h

theorem watchAccess_next {k : EdgeKind} {p : Port} {cb : Word} {s t : State} {access : State → Option State}
    {m m' : MicroStep} {loc : Locals} (hr : ∀ u, access s = some u → RegStep s u)
    (hp : s.position (.beginWatch k p cb) = .running m loc) (hm : m = .b2 ∨ m = .b3 ∨ m = .b4)
    (hm' : m' = .b3 ∨ m' = .b4 ∨ m' = .b5)
    (h : watchAccess (.beginWatch k p cb) p.toNat access s (fun t => t.goto (.beginWatch k p cb) m' loc) = .next t) :
    CommandStep (.beginWatch k p cb) s t := by
  unfold watchAccess at h
  split at h
  · rename_i hw
    obtain ⟨u, hu, rfl⟩ := afterWrite_next h
    exact .watchArm k p cb m m' loc u rfl hp hm hm' (windowError_eq_none.1 hw) (hr u hu)
  · rename_i e hw
    cases h
    exact .watchUndo k p cb m loc e rfl hp hm (fun hc => by rw [hc] at hw; cases hw)

theorem execBeginWatch_next {k : EdgeKind} {p : Port} {cb : Word} {s t : State}
    (h : execBeginWatch k p cb s = .next t) : CommandStep (.beginWatch k p cb) s t := by
  unfold execBeginWatch at h
  split at h
  · rename_i hp
    cases h
    unfold watchCreate
    split
    · exact .answer hp (.mk s (RegStep.refl s) _ 0)
    · rename_i he
      simp only [beginWatchError, firstError_cons_eq_none] at he
      obtain ⟨h1, h2, h3, h4, h5, -⟩ := he
      rw [windowError_eq_none] at h1
      rw [rangeCheck_none] at h2
      rw [openCheck_none] at h3
      unfold modeCheck at h4
      rw [check_none] at h4 h5
      exact .watchCreate k p cb rfl hp h1 h2 h3 (by simpa using h4) (by simpa using h5)
  · rename_i loc hp
    refine watchAccess_next (fun u hu => memWrite_regStep hu) hp (.inl rfl) ?_ h
    cases k <;> simp [afterDiscard, afterRising, watchesRising, watchesFalling, EdgeKind.argCode]
  · rename_i loc hp
    refine watchAccess_next (fun u hu => readModifyWrite_regStep hu) hp (.inr (.inl rfl)) ?_ h
    cases k <;> simp [afterRising, watchesFalling, EdgeKind.argCode]
  · rename_i loc hp
    exact watchAccess_next (fun u hu => readModifyWrite_regStep hu) hp (.inr (.inr rfl)) (.inr (.inr rfl)) h
  · rename_i loc hp
    cases h
    exact .watchStart k p cb loc rfl hp
  · cases h
  · cases h

theorem execEndWatch_next {p : Port} {s t : State} (h : execEndWatch p s = .next t) :
    CommandStep (.endWatch p) s t := by
  unfold execEndWatch at h
  split at h
  · rename_i hp
    cases h
    unfold watchEnd
    split
    · exact .answer hp (.mk s (RegStep.refl s) _ 0)
    · rename_i he
      simp only [endWatchError, firstError_cons_eq_none] at he
      obtain ⟨h1, h2, h3, h4, -⟩ := he
      rw [unmappedCheck_none] at h1
      rw [rangeCheck_none] at h2
      rw [openCheck_none] at h3
      rw [check_none] at h4
      exact .endStop p rfl hp h1 h2 h3 (by simpa [Option.isSome_iff_ne_none] using h4)
  · rename_i loc hp
    unfold stopWatch at h
    cases hw : watchStopped s p.toNat
    · simp only [hw, Bool.false_eq_true, if_false] at h
      cases h
      exact .held p loc (.inr rfl) hp hw
    · simp only [hw, if_true] at h
      cases h
      exact .stopped p loc (.inr rfl) hp hw
  · rename_i loc hp
    obtain ⟨u, e, hu, rfl⟩ := tryAccess_next (fun u hu => readModifyWrite_regStep hu) h
    exact .disable p .d1 .d2 loc e u (.inr rfl) hp (.inl ⟨rfl, rfl⟩) hu
  · rename_i loc hp
    obtain ⟨u, e, hu, rfl⟩ := tryAccess_next (fun u hu => readModifyWrite_regStep hu) h
    exact .disable p .d2 .d3 loc e u (.inr rfl) hp (.inr (.inl ⟨rfl, rfl⟩)) hu
  · rename_i loc hp
    obtain ⟨u, e, hu, rfl⟩ := tryAccess_next (fun u hu => memWrite_regStep hu) h
    exact .disable p .d3 _ loc e u (.inr rfl) hp (.inr (.inr ⟨rfl, by simp⟩)) hu
  · rename_i loc hp
    cases h
    exact .endRemove p loc rfl hp
  · cases h
  · cases h

/-- Everything a micro-step of a command can do. -/
theorem exec_next {i : Instr} {s t : State} (h : exec i s = .next t) : CommandStep i s t := by
  cases i with
  | rd32 off =>
    change execRd32 off s = _ at h
    unfold execRd32 at h
    obtain ⟨hp, ha⟩ := answered_of_oneStep h fun u hu => answered_read hu
    exact .answer hp ha
  | wr32 off data =>
    change execWr32 off data s = _ at h
    unfold execWr32 at h
    obtain ⟨hp, ha⟩ := answered_of_oneStep h fun u hu => answered_afterWrite (fun w hw => memWrite_regStep hw) hu
    exact .answer hp ha
  | winclose =>
    change execWinclose s = _ at h
    unfold execWinclose at h
    obtain ⟨hp, hb⟩ := oneStep_next h
    obtain ⟨x, -, rfl⟩ | ⟨he, hb⟩ := checked_next hb
    · exact .answer hp (.mk s (RegStep.refl s) x 0)
    · simp only [firstError_cons_eq_none] at he
      obtain ⟨h1, h2, -⟩ := he
      cases hb
      exact .winclose rfl hp (windowError_eq_none.1 h1) ((Table.isEmpty_iff _).1 (check_none.1 h2))
  | locate b p =>
    change execLocate b p s = _ at h
    unfold execLocate at h
    obtain ⟨hp, ha⟩ := answered_of_oneStep (i := .locate b p) (k := fun s _ => .next (finish (.locate b p) _ s)) h
      fun u hu => by
        cases hu
        exact .mk s (RegStep.refl s) .ok _
    exact .answer hp ha
  | setbit b p =>
    change execSetbit b p s = _ at h
    unfold execSetbit at h
    obtain ⟨hp, ha⟩ :=
      answered_of_oneStep h fun u hu => answered_afterWrite (fun w hw => readModifyWrite_regStep hw) hu
    exact .answer hp ha
  | clrbit b p =>
    change execClrbit b p s = _ at h
    unfold execClrbit at h
    obtain ⟨hp, ha⟩ :=
      answered_of_oneStep h fun u hu => answered_afterWrite (fun w hw => readModifyWrite_regStep hw) hu
    exact .answer hp ha
  | rdbit b p =>
    change execRdbit b p s = _ at h
    unfold execRdbit at h
    obtain ⟨hp, ha⟩ := answered_of_oneStep h fun u hu => answered_read hu
    exact .answer hp ha
  | pulse b p =>
    change execPulse b p s = _ at h
    unfold execPulse at h
    obtain ⟨hp, ha⟩ := answered_of_oneStep h fun u hu => answered_afterWrite (fun w hw => memWrite_regStep hw) hu
    exact .answer hp ha
  | setfn fn p =>
    change execSetfn fn p s = _ at h
    unfold execSetfn at h
    obtain ⟨hp, ha⟩ :=
      answered_of_oneStep h fun u hu => answered_afterWrite (fun w hw => readModifyWrite_regStep hw) hu
    exact .answer hp ha
  | getfn p =>
    change execGetfn p s = _ at h
    unfold execGetfn at h
    obtain ⟨hp, ha⟩ := answered_of_oneStep h fun u hu => answered_read hu
    exact .answer hp ha
  | openPin m p => exact execOpen_next h
  | setPin p =>
    change execSet p s = _ at h
    unfold execSet at h
    obtain ⟨hp, ha⟩ := answered_of_oneStep h fun u hu => answered_afterWrite (fun w hw => memWrite_regStep hw) hu
    exact .answer hp ha
  | clrPin p =>
    change execClr p s = _ at h
    unfold execClr at h
    obtain ⟨hp, ha⟩ := answered_of_oneStep h fun u hu => answered_afterWrite (fun w hw => memWrite_regStep hw) hu
    exact .answer hp ha
  | readPin p =>
    change execRead p s = _ at h
    unfold execRead at h
    obtain ⟨hp, ha⟩ := answered_of_oneStep h fun u hu => answered_read hu
    exact .answer hp ha
  | closePin p => exact execClose_next h
  | beginWatch k p cb => exact execBeginWatch_next h
  | endWatch p => exact execEndWatch_next h

/-! ### Watchers -/

/-- What `@watch p` can do (43_edge_watch.md R226 to R231). -/
inductive WatcherStep (p : Nat) (s : State) : State → Prop where
  /-- Not enabled. -/
  | idle (h : ∀ w, s.watch.lookup p = some w → w.phase ≠ .poll ∧ w.phase ≠ .clearing) : WatcherStep p s s
  /-- The stop step (R227). -/
  | stop (w : WatchState) (hw : s.watch.lookup p = some w) (hp : w.phase = .poll) (hs : w.stop = true) :
      WatcherStep p s (watcherStop p s)
  /-- The failure (R231). -/
  | fail (w : WatchState) (hw : s.watch.lookup p = some w) (hp : (w.phase = .poll ∧ w.stop = false) ∨ w.phase = .clearing)
      (hm : s.win ≠ .mapped) : WatcherStep p s (failWatch p s)
  /-- The poll step that samples 0 (R228). -/
  | sample (w : WatchState) (hw : s.watch.lookup p = some w) (hp : w.phase = .poll) (hs : w.stop = false)
      (hm : s.win = .mapped) (hb : (memRead s (wordOff s.params .eds p)).getLsbD (bitIdx .eds p) = false) :
      WatcherStep p s s.nextDraw
  /-- The poll step that samples 1 (R228). -/
  | dispatch (w : WatchState) (hw : s.watch.lookup p = some w) (hp : w.phase = .poll) (hs : w.stop = false)
      (hm : s.win = .mapped) (hb : (memRead s (wordOff s.params .eds p)).getLsbD (bitIdx .eds p) = true) :
      WatcherStep p s (dispatchCallback p w s.nextDraw)
  /-- The clear step (R229). -/
  | clear (w : WatchState) (hw : s.watch.lookup p = some w) (hp : w.phase = .clearing) (hm : s.win = .mapped)
      (u : State) (he : pulsePortBit .eds p s = some u) (hu : RegStep s u) : WatcherStep p s (u.modifyWatch p fun w => { w with phase := .poll })

theorem watcherStep_next {p : Nat} {s t : State} (h : watcherStep p s = .next t) : WatcherStep p s t := by
  unfold watcherStep at h
  split at h
  · rename_i hw
    cases h
    exact .idle (fun w hw' => by rw [hw] at hw'; cases hw')
  · rename_i w hw
    split at h
    · rename_i hp
      cases h
      cases hs : w.stop
      · simp only [Bool.false_eq_true, if_false, watcherPoll]
        split
        · rename_i e he
          exact .fail w hw (.inl ⟨hp, hs⟩) (fun hc => by rw [hc] at he; cases he)
        · rename_i he
          have hm := windowError_eq_none.1 he
          split
          · rename_i hb
            exact .dispatch w hw hp hs hm hb
          · rename_i hb
            exact .sample w hw hp hs hm (by simpa using hb)
      · simp only [if_true]
        exact .stop w hw hp hs
    · rename_i hp
      unfold watcherClear at h
      split at h
      · rename_i e he
        cases h
        exact .fail w hw (.inr hp) (fun hc => by rw [hc] at he; cases he)
      · rename_i he
        obtain ⟨u, hu, rfl⟩ := afterWrite_next h
        exact .clear w hw hp (windowError_eq_none.1 he) u hu (memWrite_regStep hu)
    all_goals
      cases h
      exact .idle (fun w' hw' => by rw [hw] at hw'; cases hw'; simp_all)

end Sys2Proof.Machine
end

