-- ==== Sys2Proof/Laws/Exec.lean ====
section
/-! SUPPORT. The commands where they complete, one equation per command or micro-step, with the register write each makes
named; and what the four register writes leave. -/

namespace Sys2Proof.Machine

/-! ### The four register writes -/

/-- The state with the enable bit of port `p` in bank `b` set. -/
def bitSet (b : Bank) (p : Nat) (s : State) : State :=
  writeWord s.nextDraw b (p / 32) (regWord s b (p / 32) ||| portBit p)

/-- The state with the enable bit of port `p` in bank `b` cleared. -/
def bitCleared (b : Bank) (p : Nat) (s : State) : State :=
  writeWord s.nextDraw b (p / 32) (regWord s b (p / 32) &&& ~~~(portBit p))

/-- The state with port `p`'s bit written to the write-1 bank `b`. -/
def bitPulsed (b : Bank) (p : Nat) (s : State) : State := writeWord s b (p / 32) (portBit p)

/-- The state with the function field of port `p` replaced. -/
def fieldWritten (code : BitVec 3) (p : Nat) (s : State) : State :=
  writeWord s.nextDraw .fsel (p / 10) (insertField p code (s.regs.fsel.word (p / 10)))

theorem port_word_lt {P : Params} {p : Nat} (hp : p < P.nports) {b : Bank} (hb : b ≠ .fsel) :
    p / 32 < P.words b := by
  have h := wordIdx_lt hp b
  cases b <;> first | exact absurd rfl hb | exact h

theorem bitSet_regStep {s : State} {p : Nat} (hp : p < s.params.nports) {b : Bank} (hb : b.acceptsBitWrite = true) :
    RegStep s (bitSet b p s) :=
  .of_nextDraw (writeWord_regStep s.nextDraw b _ _ (port_word_lt hp (by cases b <;> simp_all [Bank.acceptsBitWrite])))

theorem bitCleared_regStep {s : State} {p : Nat} (hp : p < s.params.nports) {b : Bank}
    (hb : b.acceptsBitWrite = true) : RegStep s (bitCleared b p s) :=
  .of_nextDraw (writeWord_regStep s.nextDraw b _ _ (port_word_lt hp (by cases b <;> simp_all [Bank.acceptsBitWrite])))

theorem bitPulsed_regStep {s : State} {p : Nat} (hp : p < s.params.nports) {b : Bank} (hb : b.acceptsPulse = true) :
    RegStep s (bitPulsed b p s) :=
  writeWord_regStep s b _ _ (port_word_lt hp (by cases b <;> simp_all [Bank.acceptsPulse]))

theorem fieldWritten_regStep {s : State} {p : Nat} (hp : p < s.params.nports) (code : BitVec 3) :
    RegStep s (fieldWritten code p s) :=
  .of_nextDraw (writeWord_regStep s.nextDraw .fsel _ _ (wordIdx_lt (b := .fsel) hp))

/-- The bit of the port itself after SETBIT's write, in every bank of ports by 32. -/
theorem bitSet_bit {s : State} {p : Nat} (hp : p < s.params.nports) {b : Bank} (hb : b.acceptsBitWrite = true)
    (b' : Bank) : (regWord (bitSet b p s) b' (p / 32)).getLsbD (p % 32) =
      if b' = b then true else (regWord s b' (p / 32)).getLsbD (p % 32) := by
  unfold bitSet
  rw [regWord_setPortBit hp hb]
  by_cases h : b' = b
  · subst h; rw [if_pos ⟨rfl, rfl⟩, if_pos rfl]; exact or_portBit_self _ _
  · rw [if_neg (fun hc => h hc.1), if_neg h]

/-- The bit of the port itself after CLRBIT's write. -/
theorem bitCleared_bit {s : State} {p : Nat} (hp : p < s.params.nports) {b : Bank} (hb : b.acceptsBitWrite = true)
    (b' : Bank) : (regWord (bitCleared b p s) b' (p / 32)).getLsbD (p % 32) =
      if b' = b then false else (regWord s b' (p / 32)).getLsbD (p % 32) := by
  unfold bitCleared
  rw [regWord_clearPortBit hp hb]
  by_cases h : b' = b
  · subst h; rw [if_pos ⟨rfl, rfl⟩, if_pos rfl]; exact andNot_portBit_self _ _
  · rw [if_neg (fun hc => h hc.1), if_neg h]

/-- The bit of the port itself after the write that discards its event. -/
theorem bitPulsed_eds_bit {s : State} {p : Nat} (hp : p < s.params.nports) (b' : Bank) :
    (regWord (bitPulsed .eds p s) b' (p / 32)).getLsbD (p % 32) =
      if b' = .eds then false else (regWord s b' (p / 32)).getLsbD (p % 32) := by
  unfold bitPulsed
  rw [regWord_pulseEds hp]
  by_cases h : b' = .eds
  · subst h; rw [if_pos ⟨rfl, rfl⟩, if_pos rfl]; exact andNot_portBit_self _ _
  · rw [if_neg (fun hc => h hc.1), if_neg h]

/-- With its enables clear a port gets no event from the write of its function (43_edge_watch.md R211). -/
theorem fieldWritten_edsBit {s : State} {p : Nat} (hp : p < s.params.nports) (code : BitVec 3)
    (hr : renBit s p = false) (hf : fenBit s p = false) : edsBit (fieldWritten code p s) p = edsBit s p := by
  unfold fieldWritten
  rw [edsBit_writeWord s.nextDraw _ _ _ _ hp]
  have h1 : renBit s.nextDraw p = false := hr
  have h2 : fenBit s.nextDraw p = false := hf
  simp only [enabledEdge, h1, h2, Bool.and_false, Bool.or_false]
  rfl

/-! ### Checks that pass -/

theorem codecError_none {s : State} {b : Bool} {p : Port} (hb : b = true) (hw : s.win = .mapped)
    (hp : p.toNat < s.params.nports) : codecError s b p = none := by
  simp [codecError, hb, hw, rangeCheck_none.2 hp]

theorem handleError_none {s : State} {p : Port} {m : Mode} (hw : s.win = .mapped) (hp : p.toNat < s.params.nports)
    (hh : s.handle.lookup p.toNat = some m) (hb : s.busy.has p.toNat = false) : handleError s p m = none := by
  have ho : openCheck s p = none := openCheck_none.2 (by simp [isOpen, hh, hb])
  simp [handleError, hw, rangeCheck_none.2 hp, ho, modeCheck, hh]

theorem accessError_none {s : State} {off : BitVec 12} (hw : s.win = .mapped) (ha : off.toNat % 4 = 0)
    (hr : off.toNat + 4 ≤ s.params.windowSize) : accessError s off = none := by
  simp [accessError, hw, offsetOk, ha, hr]

/-! ### One-step commands -/

theorem exec_rd32 {off : BitVec 12} {s : State} (hp : s.position (.rd32 off) = .start) (hw : s.win = .mapped)
    (ha : off.toNat % 4 = 0) (hr : off.toNat + 4 ≤ s.params.windowSize) :
    exec (.rd32 off) s = .next (finish (.rd32 off) (memRead s off.toNat) s.nextDraw) := by
  change execRd32 off s = _
  unfold execRd32
  rw [oneStep_start hp, accessError_none hw ha hr, checked_none]

theorem exec_wr32 {off : BitVec 12} {data : Word} {s : State} {b : Bank} {i : Nat} (hl : s.params.legal)
    (hp : s.position (.wr32 off data) = .start) (hw : s.win = .mapped)
    (hd : decodeOffset s.params off.toNat = some (b, i)) :
    exec (.wr32 off data) s = .next (finish (.wr32 off data) 0 (writeWord s b i data)) := by
  obtain ⟨h1, h2⟩ := decodeOffset_some hd
  have hb := legal_base hl b
  change execWr32 off data s = _
  unfold execWr32
  rw [oneStep_start hp, accessError_none hw (by omega) (by omega), checked_none]
  simp only [memWrite, hd, afterWrite_some]

theorem exec_locate {b : Bank} {p : Port} {s : State} (hl : s.params.legal) (hp : s.position (.locate b p) = .start)
    (hr : p.toNat < s.params.nports) :
    exec (.locate b p) s =
      .next (finish (.locate b p) (locateValue (wordOff s.params b p.toNat) (bitIdx b p.toNat)) s) := by
  have hwin := wordOff_in_window hl hr b
  change execLocate b p s = _
  unfold execLocate
  rw [oneStep_start hp]
  simp only [rangeCheck_none.2 hr, hwin, decide_true, check_true, firstError_none, firstError_nil, checked_none]

theorem exec_setbit {b : Bank} {p : Port} {s : State} (hl : s.params.legal) (hp : s.position (.setbit b p) = .start)
    (hb : b.acceptsBitWrite = true) (hw : s.win = .mapped) (hr : p.toNat < s.params.nports) :
    exec (.setbit b p) s = .next (finish (.setbit b p) 0 (bitSet b p.toNat s)) := by
  change execSetbit b p s = _
  unfold execSetbit
  rw [oneStep_start hp, codecError_none hb hw hr, checked_none, setPortBit_eq hl hr hb, afterWrite_some]
  rfl

theorem exec_clrbit {b : Bank} {p : Port} {s : State} (hl : s.params.legal) (hp : s.position (.clrbit b p) = .start)
    (hb : b.acceptsBitWrite = true) (hw : s.win = .mapped) (hr : p.toNat < s.params.nports) :
    exec (.clrbit b p) s = .next (finish (.clrbit b p) 0 (bitCleared b p.toNat s)) := by
  change execClrbit b p s = _
  unfold execClrbit
  rw [oneStep_start hp, codecError_none hb hw hr, checked_none, clearPortBit_eq hl hr hb, afterWrite_some]
  rfl

theorem exec_rdbit {b : Bank} {p : Port} {s : State} (hp : s.position (.rdbit b p) = .start)
    (hb : b.acceptsBitRead = true) (hw : s.win = .mapped) (hr : p.toNat < s.params.nports) :
    exec (.rdbit b p) s = .next (finish (.rdbit b p)
      (bitValue ((memRead s (wordOff s.params b p.toNat)).getLsbD (bitIdx b p.toNat))) s.nextDraw) := by
  change execRdbit b p s = _
  unfold execRdbit
  rw [oneStep_start hp, codecError_none hb hw hr, checked_none]

theorem exec_pulse {b : Bank} {p : Port} {s : State} (hl : s.params.legal) (hp : s.position (.pulse b p) = .start)
    (hb : b.acceptsPulse = true) (hw : s.win = .mapped) (hr : p.toNat < s.params.nports) :
    exec (.pulse b p) s = .next (finish (.pulse b p) 0 (bitPulsed b p.toNat s)) := by
  change execPulse b p s = _
  unfold execPulse
  rw [oneStep_start hp, codecError_none hb hw hr, checked_none, pulsePortBit_eq hl hr hb, afterWrite_some]
  rfl

theorem exec_setfn {fn : BitVec 3} {p : Port} {s : State} (hl : s.params.legal)
    (hp : s.position (.setfn fn p) = .start) (hw : s.win = .mapped) (hr : p.toNat < s.params.nports) :
    exec (.setfn fn p) s = .next (finish (.setfn fn p) 0 (fieldWritten fn p.toNat s)) := by
  change execSetfn fn p s = _
  unfold execSetfn
  rw [oneStep_start hp, codecError_none rfl hw hr, checked_none, writeField_eq hl hr, afterWrite_some]
  rfl

theorem exec_getfn {p : Port} {s : State} (hl : s.params.legal) (hp : s.position (.getfn p) = .start)
    (hw : s.win = .mapped) (hr : p.toNat < s.params.nports) :
    exec (.getfn p) s = .next (finish (.getfn p) ((field s p.toNat).setWidth 32) s.nextDraw) := by
  change execGetfn p s = _
  unfold execGetfn
  rw [oneStep_start hp, codecError_none rfl hw hr, checked_none, memRead_field hl hr]

theorem exec_setPin {p : Port} {s : State} (hl : s.params.legal) (hp : s.position (.setPin p) = .start)
    (he : handleError s p .output = none) (hr : p.toNat < s.params.nports) :
    exec (.setPin p) s = .next (finish (.setPin p) 0 (bitPulsed .set p.toNat s)) := by
  change execSet p s = _
  unfold execSet
  rw [oneStep_start hp, he, checked_none, pulsePortBit_eq hl hr rfl, afterWrite_some]
  rfl

theorem exec_clrPin {p : Port} {s : State} (hl : s.params.legal) (hp : s.position (.clrPin p) = .start)
    (he : handleError s p .output = none) (hr : p.toNat < s.params.nports) :
    exec (.clrPin p) s = .next (finish (.clrPin p) 0 (bitPulsed .clr p.toNat s)) := by
  change execClr p s = _
  unfold execClr
  rw [oneStep_start hp, he, checked_none, pulsePortBit_eq hl hr rfl, afterWrite_some]
  rfl

theorem exec_readPin {p : Port} {s : State} (hl : s.params.legal) (hp : s.position (.readPin p) = .start)
    (he : handleError s p .input = none) (hr : p.toNat < s.params.nports) :
    exec (.readPin p) s = .next (finish (.readPin p) (bitValue (pad s p.toNat)) s.nextDraw) := by
  change execRead p s = _
  unfold execRead
  rw [oneStep_start hp, he, checked_none]
  show Host.Outcome.next (finish (.readPin p)
    (bitValue ((memRead s (wordOff s.params .lev p.toNat)).getLsbD (p.toNat % 32))) s.nextDraw) = _
  rw [memRead_level hl hr]

/-! ### Micro-steps of OPEN, CLOSE, BEGINWATCH and ENDWATCH -/

theorem exec_open_o1 {m : Mode} {p : Port} {s : State} (hp : s.position (.openPin m p) = .start)
    (hw : (mapIfUnmapped s).win = .mapped) (hr : p.toNat < s.params.nports) (hh : s.handle.lookup p.toNat = none) :
    exec (.openPin m p) s = .next
      ((((mapIfUnmapped s).setHandle p.toNat (some m)).setBusy p.toNat true).goto (.openPin m p) .o2 Locals.none) := by
  have he : openError (mapIfUnmapped s) p = none := by
    have hr' : rangeCheck (mapIfUnmapped s) p = none := rangeCheck_none.2 (by simpa using hr)
    simp [openError, hw, hr', hh]
  change execOpen m p s = _
  unfold execOpen
  simp only [hp, openReserve, he]

theorem exec_open_o2 {m : Mode} {p : Port} {s : State} {loc : Locals} (hl : s.params.legal)
    (hp : s.position (.openPin m p) = .running .o2 loc) (hw : s.win = .mapped) (hr : p.toNat < s.params.nports) :
    exec (.openPin m p) s = .next (finish (.openPin m p) 0
      ((fieldWritten (functionCode s.params m) p.toNat s).setBusy p.toNat false)) := by
  change execOpen m p s = _
  unfold execOpen
  simp only [hp, openProgram, hw, windowError_mapped]
  rw [writeField_eq hl hr, afterWrite_some]
  rfl

theorem tryAccess_mapped {access : State → Option State} {err : Status} {s u : State} {k : Status → State → State}
    (hw : s.win = .mapped) (hu : access s = some u) : tryAccess access err s k = .next (k err u) := by
  simp [tryAccess, hw, hu]

theorem tryAccess_failed {access : State → Option State} {err : Status} {s : State} {k : Status → State → State}
    {e : Status} (hw : windowError s.win = some e) :
    tryAccess access err s k = .next (k (if err = .ok then e else err) s) := by
  simp [tryAccess, hw]

theorem disableRising_mapped {i : Instr} {p : Nat} {loc : Locals} {s : State} (hl : s.params.legal)
    (hw : s.win = .mapped) (hr : p < s.params.nports) :
    disableRising i p loc s = .next ((bitCleared .ren p s).goto i .d2 loc) :=
  tryAccess_mapped hw (clearPortBit_eq hl hr rfl)

theorem disableFalling_mapped {i : Instr} {p : Nat} {loc : Locals} {s : State} (hl : s.params.legal)
    (hw : s.win = .mapped) (hr : p < s.params.nports) :
    disableFalling i p loc s = .next ((bitCleared .fen p s).goto i .d3 loc) :=
  tryAccess_mapped hw (clearPortBit_eq hl hr rfl)

theorem discardEvent_mapped {i : Instr} {p : Nat} {loc : Locals} {k : MicroStep} {s : State} (hl : s.params.legal)
    (hw : s.win = .mapped) (hr : p < s.params.nports) :
    discardEvent i p loc k s = .next ((bitPulsed .eds p s).goto i k loc) :=
  tryAccess_mapped hw (pulsePortBit_eq hl hr rfl)

/-- A CLOSE in a command carries out the micro-step it stands at. -/
theorem exec_close_running {p : Port} {s : State} {k : MicroStep} {loc : Locals} :
    s.position (.closePin p) = .running k loc → exec (.closePin p) s =
      match k with
      | .stop => stopWatch p.toNat s fun t => t.goto (.closePin p) .d1 loc
      | .d1 => disableRising (.closePin p) p.toNat loc s
      | .d2 => disableFalling (.closePin p) p.toNat loc s
      | .d3 => discardEvent (.closePin p) p.toNat loc (if loc.hadWatch then .remove else .k5) s
      | .remove => .next ((removeWatch p.toNat s).goto (.closePin p) .k5 loc)
      | .k5 => closeToInput p loc s
      | .k6 => .next (closeRelease p loc s)
      | .o2 | .b2 | .b3 | .b4 | .b5 => .fault .badMicroStep := by
  intro hp
  change execClose p s = _
  unfold execClose
  rw [hp]
  cases k <;> rfl

/-- An ENDWATCH in a command carries out the micro-step it stands at. -/
theorem exec_endWatch_running {p : Port} {s : State} {k : MicroStep} {loc : Locals} :
    s.position (.endWatch p) = .running k loc → exec (.endWatch p) s =
      match k with
      | .stop => stopWatch p.toNat s fun t => t.goto (.endWatch p) .d1 loc
      | .d1 => disableRising (.endWatch p) p.toNat loc s
      | .d2 => disableFalling (.endWatch p) p.toNat loc s
      | .d3 => discardEvent (.endWatch p) p.toNat loc .remove s
      | .remove => .next ((removeWatch p.toNat s).respond (encodeWord (.endWatch p)) loc.err 0)
      | .o2 | .k5 | .k6 | .b2 | .b3 | .b4 | .b5 => .fault .badMicroStep := by
  intro hp
  change execEndWatch p s = _
  unfold execEndWatch
  rw [hp]
  cases k <;> rfl

theorem closeToInput_mapped {p : Port} {loc : Locals} {s : State} (hl : s.params.legal) (hw : s.win = .mapped)
    (hr : p.toNat < s.params.nports) :
    closeToInput p loc s = .next ((fieldWritten s.params.fselInput p.toNat s).goto (.closePin p) .k6 loc) :=
  tryAccess_mapped hw (writeField_eq hl hr _)

/-- A BEGINWATCH in a command carries out the micro-step it stands at, on a mapped window. -/
theorem exec_beginWatch_running {k : EdgeKind} {p : Port} {cb : Word} {s : State} {m : MicroStep} {loc : Locals}
    (hl : s.params.legal) (hw : s.win = .mapped) (hr : p.toNat < s.params.nports) :
    s.position (.beginWatch k p cb) = .running m loc → exec (.beginWatch k p cb) s =
      match m with
      | .b2 => .next ((bitPulsed .eds p.toNat s).goto (.beginWatch k p cb) (afterDiscard k) loc)
      | .b3 => .next ((bitSet .ren p.toNat s).goto (.beginWatch k p cb) (afterRising k) loc)
      | .b4 => .next ((bitSet .fen p.toNat s).goto (.beginWatch k p cb) .b5 loc)
      | .b5 => .next (watchStart k p cb s)
      | .o2 | .stop | .d1 | .d2 | .d3 | .remove | .k5 | .k6 => .fault .badMicroStep := by
  intro hp
  change execBeginWatch k p cb s = _
  unfold execBeginWatch
  rw [hp]
  cases m <;> simp only [watchAccess, hw, windowError_mapped]
  · rw [pulsePortBit_eq hl hr rfl]; rfl
  · rw [setPortBit_eq hl hr rfl]; rfl
  · rw [setPortBit_eq hl hr rfl]; rfl

theorem exec_beginWatch_b1 {k : EdgeKind} {p : Port} {cb : Word} {s : State}
    (hp : s.position (.beginWatch k p cb) = .start) (hw : s.win = .mapped) (hr : p.toNat < s.params.nports)
    (hh : s.handle.lookup p.toNat = some .input) (hb : s.busy.has p.toNat = false)
    (hn : s.watch.lookup p.toNat = none) :
    exec (.beginWatch k p cb) s = .next
      ((s.setWatch p.toNat (some ⟨k, cb, .starting, false, 0⟩)).goto (.beginWatch k p cb) .b2 Locals.none) := by
  have ho : openCheck s p = none := openCheck_none.2 (by simp [isOpen, hh, hb])
  have he : beginWatchError s p = none := by
    simp [beginWatchError, hw, rangeCheck_none.2 hr, ho, modeCheck, hh, hn]
  change execBeginWatch k p cb s = _
  unfold execBeginWatch
  simp only [hp, watchCreate, he]

theorem exec_close_k1 {p : Port} {s : State} (hp : s.position (.closePin p) = .start) (hw : s.win ≠ .unmapped)
    (hr : p.toNat < s.params.nports) (hh : s.handle.lookup p.toNat ≠ none) (hb : s.busy.has p.toNat = false) :
    exec (.closePin p) s = .next
      (if (s.watch.lookup p.toNat).isSome
        then (signalStop p.toNat (s.setBusy p.toNat true)).goto (.closePin p) .stop ⟨true, .ok⟩
        else (s.setBusy p.toNat true).goto (.closePin p) .d1 ⟨false, .ok⟩) := by
  have ho : openCheck s p = none := openCheck_none.2 (by simp [isOpen, hb, Option.isSome_iff_ne_none, hh])
  change execClose p s = _
  unfold execClose
  simp only [hp, closeBegin, unmappedCheck_none.2 hw, rangeCheck_none.2 hr, ho, firstError_none, firstError_nil]

theorem exec_endWatch_e1 {p : Port} {s : State} (hp : s.position (.endWatch p) = .start) (hw : s.win ≠ .unmapped)
    (hr : p.toNat < s.params.nports) (hh : s.handle.lookup p.toNat ≠ none) (hb : s.busy.has p.toNat = false)
    (hn : s.watch.lookup p.toNat ≠ none) :
    exec (.endWatch p) s = .next ((signalStop p.toNat s).goto (.endWatch p) .stop ⟨true, .ok⟩) := by
  have ho : openCheck s p = none := openCheck_none.2 (by simp [isOpen, hb, Option.isSome_iff_ne_none, hh])
  have hs : (s.watch.lookup p.toNat).isSome = true := Option.isSome_iff_ne_none.2 hn
  change execEndWatch p s = _
  unfold execEndWatch
  simp only [hp, watchEnd, endWatchError, unmappedCheck_none.2 hw, rangeCheck_none.2 hr, ho, hs, check_true,
    firstError_none, firstError_nil]

end Sys2Proof.Machine
end

