-- ==== Sys2Proof/Laws/Steps.lean ====
section
/-! SUPPORT. What a step does, said once: the choice that is taken, and the micro-step of the agent it names
(20_memory.md R70). -/

namespace Sys2Proof.Machine

section
variable (s : State)
@[simp] theorem takeInput_params : s.takeInput.params = s.params := by unfold State.takeInput; split <;> rfl
@[simp] theorem takeInput_regs : s.takeInput.regs = s.regs := by unfold State.takeInput; split <;> rfl
@[simp] theorem takeInput_ext : s.takeInput.ext = s.ext := by unfold State.takeInput; split <;> rfl
@[simp] theorem takeInput_win : s.takeInput.win = s.win := by unfold State.takeInput; split <;> rfl
@[simp] theorem takeInput_handle : s.takeInput.handle = s.handle := by unfold State.takeInput; split <;> rfl
@[simp] theorem takeInput_busy : s.takeInput.busy = s.busy := by unfold State.takeInput; split <;> rfl
@[simp] theorem takeInput_watch : s.takeInput.watch = s.watch := by unfold State.takeInput; split <;> rfl
@[simp] theorem takeInput_main : s.takeInput.main = s.main := by unfold State.takeInput; split <;> rfl
@[simp] theorem takeInput_callbacks : s.takeInput.callbacks = s.callbacks := by
  unfold State.takeInput; split <;> rfl
@[simp] theorem takeInput_log : s.takeInput.log = s.log := by unfold State.takeInput; split <;> rfl
@[simp] theorem takeInput_mapAnswers : s.takeInput.mapAnswers = s.mapAnswers := by
  unfold State.takeInput; split <;> rfl
@[simp] theorem takeInput_active : s.takeInput.active = s.active := by unfold State.takeInput; split <;> rfl
@[simp] theorem takeInput_caller (c : CallerId) : s.takeInput.caller c = s.caller c :=
  caller_congr (takeInput_main s) (takeInput_callbacks s) c
@[simp] theorem setActive_caller (c d : CallerId) : (s.setActive c).caller d = s.caller d :=
  caller_congr rfl rfl d
end

/-- The step of a legal parameter set. -/
theorem step_of_legal {s : State} (h : s.params.legal) : step s = runInput s.nextInput s.takeInput := if_pos h

/-- A step that answers a next state carries out the choice taken. -/
theorem step_next {s t : State} (h : step s = .next t) :
    s.params.legal ∧ runInput s.nextInput s.takeInput = .next t := by
  unfold step at h
  split at h
  · rename_i hl; exact ⟨hl, h⟩
  · cases h

/-- What the micro-step of an agent can do: `a` is the choice, `s` the state once it has been taken. -/
inductive AgentStep (a : Input) (s : State) : State → Prop where
  /-- The choice is not enabled (log 6). -/
  | none : AgentStep a s s
  /-- A caller's micro-step: the first of a command it issues, or the next of the one it carries out. -/
  | command (c : CallerId) (i : Instr) (t : State)
      (hc : (∃ cmd, a = .issue c cmd ∧ s.caller c = some .idle ∧ decode cmd = .ok i) ∨
        (a = .resume c ∧ ∃ k loc, s.caller c = some (.busy i k loc)))
      (ht : CommandStep i (s.setActive c) t) : AgentStep a s t
  /-- An illegal command (30_encoding.md R103). -/
  | illegal (c : CallerId) (cmd : Command) (ha : a = .issue c cmd) (hc : s.caller c = some .idle) :
      AgentStep a s (illegalCommand cmd (s.setActive c))
  /-- `@watch p`. -/
  | watcher (p : Nat) (t : State) (ha : a = .watcher p) (ht : WatcherStep p s t) : AgentStep a s t
  /-- `@pad p, v`. -/
  | pad (p : Nat) (v : Bool) (ha : a = .pad p v) (hp : p < s.params.nports) :
      AgentStep a s (edgeLatch s (s.setExt (s.ext.mark p v)))
  /-- `@ret p`. -/
  | ret (p n : Nat) (w : WatchState) (ha : a = .ret p) (hw : s.watch.lookup p = some w) (hp : w.phase = .inCallback n)
      (hc : s.callbacks.lookup p = some .idle) :
      AgentStep a s ((s.setCallback p none).setWatch p (some { w with phase := .clearing }))
  /-- `@unmap`. -/
  | unmap (ha : a = .unmap) (hw : s.win = .mapped) : AgentStep a s (s.setWin (.failed .unsupportedPlatform))

theorem runInput_next {a : Input} {s t : State} (h : runInput a s = .next t) : AgentStep a s t := by
  cases a with
  | issue c cmd =>
    simp only [runInput, issueCommand] at h
    split at h
    · rename_i hc
      split at h
      · rename_i i hd
        exact .command c i t (.inl ⟨cmd, rfl, hc, hd⟩) (exec_next h)
      · cases h
        exact .illegal c cmd rfl hc
    · cases h
      exact .none
  | resume c =>
    simp only [runInput, resumeCaller] at h
    split at h
    · rename_i i k loc hc
      exact .command c i t (.inr ⟨rfl, k, loc, hc⟩) (exec_next h)
    · cases h
      exact .none
    · cases h
      exact .none
  | watcher p => exact .watcher p t rfl (watcherStep_next h)
  | pad p v =>
    cases h
    unfold padStep
    split
    · rename_i hp; exact .pad p v rfl hp
    · exact .none
  | ret p =>
    cases h
    unfold callbackReturn
    split
    · rename_i w hw
      split
      · rename_i n hp
        split
        · rename_i hc; exact .ret p n w rfl hw hp hc
        · exact .none
      all_goals exact .none
    · exact .none
  | unmap =>
    cases h
    unfold unmapStep
    split
    · rename_i hw; exact .unmap rfl hw
    · exact .none

/-- Everything a step can do. -/
theorem step_cases {s t : State} (h : step s = .next t) :
    s.params.legal ∧ AgentStep s.nextInput s.takeInput t :=
  ⟨(step_next h).1, runInput_next (step_next h).2⟩

end Sys2Proof.Machine
end

