-- ==== Sys2Proof/Laws/Lifecycle.lean ====
section
/-! SUPPORT. What the condition on a busy caller reads, and when it survives what another agent does to the port
(10_state.md R44; 42_pin_handle.md R186; 43_edge_watch.md R221 to R224). -/

namespace Sys2Proof.Machine

theorem watchStopped_congr {s t : State} {p : Nat} (h : t.watch.lookup p = s.watch.lookup p) :
    watchStopped t p = watchStopped s p := by
  unfold watchStopped; rw [h]

theorem closeOk_congr {s t : State} {p : Nat} {loc : Locals} {k : MicroStep}
    (h : t.watch.lookup p = s.watch.lookup p) (hc : closeOk s p loc k) : closeOk t p loc k := by
  cases k <;> simp only [closeOk, h, watchStopped_congr h] at hc ⊢ <;> exact hc

/-- A busy caller's condition reads the parameters and the tables at the port it opens, closes or begins to watch. -/
theorem callerOk_congr {s t : State} {y : CallerState} (hp : t.params = s.params)
    (h : ∀ q, (transitionOf y = some q ∨ beginningOf y = some q) → t.handle.lookup q = s.handle.lookup q ∧
      t.busy.has q = s.busy.has q ∧ t.watch.lookup q = s.watch.lookup q) (hc : callerOk s y) : callerOk t y := by
  cases y with
  | idle => trivial
  | busy i k loc =>
    cases i <;> try exact hc
    case openPin m p =>
      obtain ⟨h1, h2, h3⟩ := h p.toNat (.inl rfl)
      cases k <;> simp only [callerOk, h1, h2, h3] at hc ⊢
      exact hc
    case closePin p =>
      obtain ⟨-, h2, h3⟩ := h p.toNat (.inl rfl)
      simp only [callerOk, h2] at hc ⊢
      exact ⟨hc.1, closeOk_congr h3 hc.2⟩
    case beginWatch kk p cb =>
      obtain ⟨-, -, h3⟩ := h p.toNat (.inr rfl)
      simp only [callerOk, h3] at hc ⊢
      exact hc
    case endWatch p =>
      simp only [callerOk, hp] at hc ⊢
      exact hc

/-- A port whose OPEN or CLOSE is in progress is in transition. -/
theorem busy_of_transition {s : State} {y : CallerState} {p : Nat} (h : callerOk s y) (ht : transitionOf y = some p) :
    s.busy.has p = true := by
  cases y with
  | idle => cases ht
  | busy i k loc =>
    cases i <;> simp [transitionOf] at ht
    · subst ht; cases k <;> simp [callerOk] at h; exact h.2.1
    · subst ht; simp [callerOk] at h; exact h.1

/-- A port whose BEGINWATCH is in progress has a watch, in phase Starting. -/
theorem starting_of_beginning {s : State} {y : CallerState} {p : Nat} (h : callerOk s y)
    (ht : beginningOf y = some p) : ∃ w, s.watch.lookup p = some w ∧ w.phase = .starting := by
  cases y with
  | idle => cases ht
  | busy i k loc =>
    cases i <;> simp [beginningOf] at ht
    subst ht
    simp [callerOk] at h
    obtain ⟨⟨w, hw, -, -, hs⟩, -⟩ := h
    exact ⟨w, hw, hs⟩

/-- The watch of a port in transition may go. -/
theorem callerOk_of_gone {s t : State} {p : Nat} {y : CallerState} (hh : t.handle = s.handle) (hb : t.busy = s.busy)
    (hw : t.watch.lookup p = none) (hok : callerOk s y) (ht : transitionOf y = some p) : callerOk t y := by
  cases y with
  | idle => cases ht
  | busy i k loc =>
    cases i <;> simp [transitionOf] at ht
    · subst ht
      cases k <;> simp only [callerOk, hh, hb, hw] at hok ⊢
      exact ⟨hok.1, hok.2.1, trivial⟩
    · subst ht
      simp only [callerOk, hb] at hok ⊢
      refine ⟨hok.1, ?_⟩
      have hc := hok.2
      cases k <;> simp only [closeOk, watchStopped, hw] at hc ⊢ <;>
        first | exact hc | exact ⟨hc.1, trivial⟩ | simp

/-- The watch of a port in transition may change while it is not stopped: its OPEN has none, and its CLOSE waits. -/
theorem callerOk_of_live {s t : State} {p : Nat} {y : CallerState} {w : WatchState} (hb : t.busy = s.busy)
    (hw : s.watch.lookup p = some w) (hs : w.phase ≠ .stopped) (hok : callerOk s y) (ht : transitionOf y = some p) :
    callerOk t y := by
  have hn : watchStopped s p = false := by simp [watchStopped, hw, hs]
  cases y with
  | idle => cases ht
  | busy i k loc =>
    cases i <;> simp [transitionOf] at ht
    · subst ht; cases k <;> simp only [callerOk] at hok; simp_all
    · subst ht
      simp only [callerOk, hb] at hok ⊢
      refine ⟨hok.1, ?_⟩
      have hc := hok.2
      cases k <;> simp only [closeOk] at hc ⊢ <;> simp_all

/-- What changes the tables at port `p` alone keeps the condition of every caller but those in transition on `p` or
beginning its watch. -/
theorem callerOk_off_port {s t : State} {p : Nat} {y : CallerState} (hp : t.params = s.params)
    (hq : ∀ q, q ≠ p → t.handle.lookup q = s.handle.lookup q ∧ t.busy.has q = s.busy.has q ∧
      t.watch.lookup q = s.watch.lookup q) (h1 : transitionOf y ≠ some p) (h2 : beginningOf y ≠ some p)
    (hok : callerOk s y) : callerOk t y := by
  refine callerOk_congr hp (fun q h => hq q ?_) hok
  rintro rfl
  exact h.elim h1 h2

/-- The invariants read the parameters, the window, the tables and the callers. -/
theorem Lifecycle.congr {s t : State} (h : Lifecycle s) (hp : t.params = s.params)
    (hw : t.win = s.win) (hh : t.handle = s.handle) (hb : t.busy = s.busy) (hwa : t.watch = s.watch)
    (hm : t.main = s.main) (hc : t.callbacks = s.callbacks) : Lifecycle t := by
  have hcall : ∀ c, t.caller c = s.caller c := caller_congr hm hc
  refine ⟨hp ▸ h.legal, ?_, ?_, ?_, ?_, ?_, ?_, ?_, ?_, ?_⟩
  · rw [hh, hw]; exact h.handle_window
  · rw [hwa, hh]; exact h.watch_handle
  · rw [hp, hh]; exact h.handle_range
  · rw [hb, hh]; exact h.busy_handle
  · rw [hc, hwa]; exact h.callback_watch
  · rw [hwa]; exact h.callback_count
  · intro c x hx
    rw [hcall] at hx
    exact callerOk_congr hp (fun q _ => by rw [hh, hb, hwa]; exact ⟨rfl, rfl, rfl⟩) (h.callers c x hx)
  · intro c d x y p hx hy
    rw [hcall] at hx hy
    exact h.one_transition c d x y p hx hy
  · intro c d x y p hx hy
    rw [hcall] at hx hy
    exact h.one_beginning c d x y p hx hy

end Sys2Proof.Machine
end

