-- ==== Sys2Proof/Laws/PerInstr.lean ====
section
/-! SUPPORT. A statement about every command as syntax, one lemma per constructor: its command word has the opcode of its
row in the opcode map and passes the row's mask (30_encoding.md R96, R103). -/

namespace Sys2Proof

/-- The mnemonic of a command (30_encoding.md R96). -/
def Instr.opcode : Instr → Opcode
  | .rd32 _ => .rd32
  | .wr32 _ _ => .wr32
  | .winclose => .winclose
  | .locate _ _ => .locate
  | .setbit _ _ => .setbit
  | .clrbit _ _ => .clrbit
  | .rdbit _ _ => .rdbit
  | .pulse _ _ => .pulse
  | .setfn _ _ => .setfn
  | .getfn _ => .getfn
  | .openPin _ _ => .openPin
  | .setPin _ => .setPin
  | .clrPin _ => .clrPin
  | .readPin _ => .readPin
  | .closePin _ => .closePin
  | .beginWatch _ _ _ => .beginWatch
  | .endWatch _ => .endWatch

/-- The command word passes the row of the opcode map that carries the command's mnemonic. -/
def Laws.RowMatch.Statement (i : Instr) : Prop :=
  ∃ r, rowOf (encodeWord i) = some r ∧ r.op = i.opcode ∧ encodeWord i &&& r.mask = r.value

/-- The rows whose operands are the argument code and the port, the port alone, or the offset alone: the row is found by
its opcode, and the mask leaves the value. -/
theorem rowMatch_of_arg (op : BitVec 6) (a : BitVec 3) (port : Port) {r : OpcodeRow}
    (h : opcodeMap.find? (fun r => opField r.value == op) = some r)
    (hm : r.mask = commandWord 63 0 0xFFF 0 ||| rsvMask) (hv : r.value = commandWord op 0 0 0) :
    rowOf (commandWord op a 0 port) = some r ∧ commandWord op a 0 port &&& r.mask = r.value := by
  refine ⟨by unfold rowOf; rw [opField_commandWord]; exact h, ?_⟩
  rw [hm, hv, commandWord_and_rsv, show op &&& 63 = op from BitVec.and_allOnes, show a &&& 0 = 0 from BitVec.and_zero,
    show port &&& 0 = 0 from BitVec.and_zero]
  rfl

theorem rowMatch_of_port (op : BitVec 6) (port : Port) {r : OpcodeRow}
    (h : opcodeMap.find? (fun r => opField r.value == op) = some r)
    (hm : r.mask = commandWord 63 7 0xFFF 0 ||| rsvMask) (hv : r.value = commandWord op 0 0 0) :
    rowOf (commandWord op 0 0 port) = some r ∧ commandWord op 0 0 port &&& r.mask = r.value := by
  refine ⟨by unfold rowOf; rw [opField_commandWord]; exact h, ?_⟩
  rw [hm, hv, commandWord_and_rsv, show op &&& 63 = op from BitVec.and_allOnes,
    show port &&& 0 = 0 from BitVec.and_zero]
  rfl

theorem rowMatch_of_off (op : BitVec 6) (off : BitVec 12) {r : OpcodeRow}
    (h : opcodeMap.find? (fun r => opField r.value == op) = some r)
    (hm : r.mask = commandWord 63 7 0 0xFF ||| rsvMask) (hv : r.value = commandWord op 0 0 0) :
    rowOf (commandWord op 0 off 0) = some r ∧ commandWord op 0 off 0 &&& r.mask = r.value := by
  refine ⟨by unfold rowOf; rw [opField_commandWord]; exact h, ?_⟩
  rw [hm, hv, commandWord_and_rsv, show op &&& 63 = op from BitVec.and_allOnes, show off &&& 0 = 0 from BitVec.and_zero]
  rfl

namespace Laws.RowMatch

theorem rd32 (off : BitVec 12) : Statement (.rd32 off) := by
  obtain ⟨h1, h2⟩ := rowMatch_of_off 0x01 off (r := ⟨.rd32, 0x04000000, 0xFFF000FF⟩) (by decide) (by decide) (by decide)
  exact ⟨_, h1, rfl, h2⟩

theorem wr32 (off : BitVec 12) (data : Word) : Statement (.wr32 off data) := by
  obtain ⟨h1, h2⟩ := rowMatch_of_off 0x02 off (r := ⟨.wr32, 0x08000000, 0xFFF000FF⟩) (by decide) (by decide) (by decide)
  exact ⟨_, h1, rfl, h2⟩

theorem winclose : Statement .winclose := ⟨⟨.winclose, 0x0C000000, 0xFFFFFFFF⟩, by decide, rfl, by decide⟩

theorem locate (b : Bank) (p : Port) : Statement (.locate b p) := by
  obtain ⟨h1, h2⟩ := rowMatch_of_arg 0x08 b.code p (r := ⟨.locate, 0x20000000, 0xFC7FFF00⟩) (by decide) (by decide)
    (by decide)
  exact ⟨_, h1, rfl, h2⟩

theorem setbit (b : Bank) (p : Port) : Statement (.setbit b p) := by
  obtain ⟨h1, h2⟩ := rowMatch_of_arg 0x09 b.code p (r := ⟨.setbit, 0x24000000, 0xFC7FFF00⟩) (by decide) (by decide)
    (by decide)
  exact ⟨_, h1, rfl, h2⟩

theorem clrbit (b : Bank) (p : Port) : Statement (.clrbit b p) := by
  obtain ⟨h1, h2⟩ := rowMatch_of_arg 0x0A b.code p (r := ⟨.clrbit, 0x28000000, 0xFC7FFF00⟩) (by decide) (by decide)
    (by decide)
  exact ⟨_, h1, rfl, h2⟩

theorem rdbit (b : Bank) (p : Port) : Statement (.rdbit b p) := by
  obtain ⟨h1, h2⟩ := rowMatch_of_arg 0x0B b.code p (r := ⟨.rdbit, 0x2C000000, 0xFC7FFF00⟩) (by decide) (by decide)
    (by decide)
  exact ⟨_, h1, rfl, h2⟩

theorem pulse (b : Bank) (p : Port) : Statement (.pulse b p) := by
  obtain ⟨h1, h2⟩ := rowMatch_of_arg 0x0C b.code p (r := ⟨.pulse, 0x30000000, 0xFC7FFF00⟩) (by decide) (by decide)
    (by decide)
  exact ⟨_, h1, rfl, h2⟩

theorem setfn (fn : BitVec 3) (p : Port) : Statement (.setfn fn p) := by
  obtain ⟨h1, h2⟩ := rowMatch_of_arg 0x0D fn p (r := ⟨.setfn, 0x34000000, 0xFC7FFF00⟩) (by decide) (by decide)
    (by decide)
  exact ⟨_, h1, rfl, h2⟩

theorem getfn (p : Port) : Statement (.getfn p) := by
  obtain ⟨h1, h2⟩ := rowMatch_of_port 0x0E p (r := ⟨.getfn, 0x38000000, 0xFFFFFF00⟩) (by decide) (by decide)
    (by decide)
  exact ⟨_, h1, rfl, h2⟩

theorem openPin (m : Mode) (p : Port) : Statement (.openPin m p) := by
  obtain ⟨h1, h2⟩ := rowMatch_of_arg 0x10 m.argCode p (r := ⟨.openPin, 0x40000000, 0xFC7FFF00⟩) (by decide) (by decide)
    (by decide)
  exact ⟨_, h1, rfl, h2⟩

theorem setPin (p : Port) : Statement (.setPin p) := by
  obtain ⟨h1, h2⟩ := rowMatch_of_port 0x11 p (r := ⟨.setPin, 0x44000000, 0xFFFFFF00⟩) (by decide) (by decide)
    (by decide)
  exact ⟨_, h1, rfl, h2⟩

theorem clrPin (p : Port) : Statement (.clrPin p) := by
  obtain ⟨h1, h2⟩ := rowMatch_of_port 0x12 p (r := ⟨.clrPin, 0x48000000, 0xFFFFFF00⟩) (by decide) (by decide)
    (by decide)
  exact ⟨_, h1, rfl, h2⟩

theorem readPin (p : Port) : Statement (.readPin p) := by
  obtain ⟨h1, h2⟩ := rowMatch_of_port 0x13 p (r := ⟨.readPin, 0x4C000000, 0xFFFFFF00⟩) (by decide) (by decide)
    (by decide)
  exact ⟨_, h1, rfl, h2⟩

theorem closePin (p : Port) : Statement (.closePin p) := by
  obtain ⟨h1, h2⟩ := rowMatch_of_port 0x14 p (r := ⟨.closePin, 0x50000000, 0xFFFFFF00⟩) (by decide) (by decide)
    (by decide)
  exact ⟨_, h1, rfl, h2⟩

theorem beginWatch (k : EdgeKind) (p : Port) (cb : Word) : Statement (.beginWatch k p cb) := by
  obtain ⟨h1, h2⟩ := rowMatch_of_arg 0x18 k.argCode p (r := ⟨.beginWatch, 0x60000000, 0xFC7FFF00⟩) (by decide)
    (by decide) (by decide)
  exact ⟨_, h1, rfl, h2⟩

theorem endWatch (p : Port) : Statement (.endWatch p) := by
  obtain ⟨h1, h2⟩ := rowMatch_of_port 0x19 p (r := ⟨.endWatch, 0x64000000, 0xFFFFFF00⟩) (by decide) (by decide)
    (by decide)
  exact ⟨_, h1, rfl, h2⟩

end Laws.RowMatch

end Sys2Proof
end

