-- ==== Sys2Proof/Tests/Slice0.lean ====
section
/-! SUPPORT. Tests: the vectors of 95_test_vectors.md on single steps, and for every obligation with hypotheses a named
state and operands that meet them. -/

namespace Sys2Proof.Tests

open Sys2Proof.Machine

set_option maxRecDepth 4000

/-! ### Decoding (95_test_vectors.md §2.1 to §2.7) -/

theorem test_decode_rd32 : decode ⟨0x04003400, 0⟩ = .ok (.rd32 0x034) := by decide
theorem test_decode_wr32 : decode ⟨0x08004000, 0x20⟩ = .ok (.wr32 0x040 0x20) := by decide
theorem test_decode_winclose : decode ⟨0x0C000000, 0⟩ = .ok .winclose := by decide
theorem test_decode_locate : decode ⟨0x23000039, 0⟩ = .ok (.locate .fen 57) := by decide
theorem test_decode_setbit : decode ⟨0x2680001F, 0⟩ = .ok (.setbit .ren 31) := by decide
theorem test_decode_clrbit : decode ⟨0x2A80001F, 0⟩ = .ok (.clrbit .ren 31) := by decide
theorem test_decode_rdbit : decode ⟨0x2E000005, 0⟩ = .ok (.rdbit .eds 5) := by decide
theorem test_decode_pulse : decode ⟨0x31000016, 0⟩ = .ok (.pulse .clr 22) := by decide
theorem test_decode_setfn : decode ⟨0x34800009, 0⟩ = .ok (.setfn 1 9) := by decide
theorem test_decode_getfn : decode ⟨0x38000016, 0⟩ = .ok (.getfn 22) := by decide
theorem test_decode_open : decode ⟨0x40800016, 0⟩ = .ok (.openPin .output 22) := by decide
theorem test_decode_set : decode ⟨0x44000016, 0⟩ = .ok (.setPin 22) := by decide
theorem test_decode_clr : decode ⟨0x48000016, 0⟩ = .ok (.clrPin 22) := by decide
theorem test_decode_read : decode ⟨0x4C00001F, 0⟩ = .ok (.readPin 31) := by decide
theorem test_decode_close : decode ⟨0x5000001F, 0⟩ = .ok (.closePin 31) := by decide
theorem test_decode_beginWatch : decode ⟨0x61000005, 1⟩ = .ok (.beginWatch .falling 5 1) := by decide
theorem test_decode_beginWatch_both : decode ⟨0x61800007, 2⟩ = .ok (.beginWatch .both 7 2) := by decide
theorem test_decode_endWatch : decode ⟨0x64000005, 0⟩ = .ok (.endWatch 5) := by decide

theorem test_reserved_opcodes :
    decode ⟨0x00000000, 0⟩ = .error .unknownOpcode ∧ decode ⟨0x10000000, 0⟩ = .error .unknownOpcode ∧
    decode ⟨0xFC000000, 0⟩ = .error .unknownOpcode := by decide

theorem test_must_be_zero :
    decode ⟨0x04103400, 0⟩ = .error .mustBeZero ∧ decode ⟨0x04003405, 0⟩ = .error .mustBeZero ∧
    decode ⟨0x0C000001, 0⟩ = .error .mustBeZero ∧ decode ⟨0x44800016, 0⟩ = .error .mustBeZero ∧
    decode ⟨0x26801005, 0⟩ = .error .mustBeZero := by decide

theorem test_reserved_arguments :
    decode ⟨0x23800005, 0⟩ = .error .reservedArgument ∧ decode ⟨0x41000005, 0⟩ = .error .reservedArgument ∧
    decode ⟨0x60000005, 0⟩ = .error .reservedArgument ∧ decode ⟨0x62000005, 0⟩ = .error .reservedArgument := by decide

theorem test_banks_not_accepted :
    decode ⟨0x32800005, 0⟩ = .error .bankNotAccepted ∧ decode ⟨0x24000005, 0⟩ = .error .bankNotAccepted ∧
    decode ⟨0x2C800005, 0⟩ = .error .bankNotAccepted := by decide

theorem test_table_word : decodeTableWord 32 0x40800016 = some (.openPin .output 22) := by decide

/-! ### WellFormed: a term that each check refuses (41_codec.md R152) -/

theorem test_ill_formed_setbit : (Instr.setbit .lev 5).wellFormed = false := by decide
theorem test_ill_formed_clrbit : (Instr.clrbit .eds 5).wellFormed = false := by decide
theorem test_ill_formed_rdbit : (Instr.rdbit .fsel 5).wellFormed = false := by decide
theorem test_ill_formed_pulse : (Instr.pulse .ren 5).wellFormed = false := by decide

/-! ### Small states -/

/-- What an outcome leaves. -/
def after (r : Result) : State :=
  match r with
  | .next t => t
  | .fault _ => State.reset
  | .refused _ => State.reset

/-- The reset state with the window mapped. -/
def mapped : State := State.reset.setWin .mapped

/-- The reset state with the window failed. -/
def failed : State := State.reset.setWin (.failed .permissionDenied)

/-- Mapped, and port 5 open. -/
def opened (m : Mode) : State := mapped.setHandle 5 (some m)

/-- A falling watch in phase `ph`. -/
def watchIn (ph : Phase) (stop : Bool) (seq : Nat) : WatchState := ⟨.falling, 1, ph, stop, seq⟩

/-- Mapped, port 5 open as Input, with a watch. -/
def watched (w : WatchState) : State := (opened .input).setWatch 5 (some w)

/-- Mapped, port 5 watched and in its callback, whose caller is in state `x`. -/
def inCallback (x : CallerState) : State := (watched (watchIn (.inCallback 1) false 1)).setCallback 5 (some x)

/-- Words 0 and 1 of a bank. -/
def eds (w : Word) (s : State) : State := s.setRegs { s.regs with eds := [(0, w)] }
def lat (w : Word) (s : State) : State := s.setRegs { s.regs with lat := [(0, w)] }
def fen (w : Word) (s : State) : State := s.setRegs { s.regs with fen := [(0, w)] }
def ren (w : Word) (s : State) : State := s.setRegs { s.regs with ren := [(0, w)] }
def fsel (i : Nat) (w : Word) (s : State) : State := s.setRegs { s.regs with fsel := [(i, w)] }

/-- A small window, so that an aligned offset can lie outside it. -/
def smallWindow (s : State) : State := { s with params := { s.params with windowSize := 256 } }

/-! ### One step each (95_test_vectors.md §2) -/

/-- V-WIN-2: port 22 an output, its latch bit 1. -/
theorem test_rd32_level : ∃ v t, exec (.rd32 0x34) (fsel 2 0x40 (lat 0x00400000 mapped)) = .next t ∧
    t.log = [.resp .main 0x04003400 .ok v] ∧ v.getLsbD 22 = true ∧ v.getLsbD 21 = false :=
  ⟨_, _, exec_rd32 (by decide) (by decide) (by decide) (by decide), rfl,
    (memRead_level (s := fsel 2 0x40 (lat 0x00400000 mapped)) (by decide) (p := 22) (by decide)).trans (by decide),
    (memRead_level (s := fsel 2 0x40 (lat 0x00400000 mapped)) (by decide) (p := 21) (by decide)).trans (by decide)⟩

/-- The table of 30_encoding.md R101: the numbers of the statuses, 7 not used. -/
theorem test_status_codes : [Status.ok, .permissionDenied, .unsupportedPlatform, .alreadyOpen, .alreadyWatching,
      .invalidOperation, .outOfRange].map (fun e => e.code.toNat) = [0, 1, 2, 3, 4, 5, 6] ∧
    Status.ofCode 7 = none := by decide

/-- 60_exceptions.md R252 and R256: an OPEN of a port that does not exist leaves the window as it was. -/
theorem test_open_range_unmapped : (after (exec (.openPin .input 58) (State.reset.setMapAnswers [.ok]))).win = .unmapped ∧
    (after (exec (.openPin .input 58) (State.reset.setMapAnswers [.ok]))).log =
      [.resp .main 0x4000003A .outOfRange 0] := by decide

/-- V-WIN-3. -/
theorem test_rd32_misaligned : exec (.rd32 0x02) mapped = .next (raise (.rd32 0x02) .outOfRange mapped) := by rfl

/-- V-WIN-8. -/
theorem test_wr32_eds : (after (exec (.wr32 0x40 0x20) (eds 0x21 mapped))).regs.eds.word 0 = 1 := by decide

/-- V-WIN-14. -/
theorem test_wr32_unbanked : exec (.wr32 0xFFC 1) mapped = .refused .unbankedWrite := by rfl

/-- V-WIN-18. -/
theorem test_winclose : (after (exec .winclose mapped)).win = .unmapped := by decide

/-- V-WIN-17. -/
theorem test_winclose_open : exec .winclose (opened .input) = .next (raise .winclose .invalidOperation (opened .input)) := by
  rfl

/-- V-LOC: FSEL 22 and FEN 57. -/
theorem test_locate : (after (exec (.locate .fsel 22) State.reset)).log = [.resp .main 0x20000016 .ok 0x00060008] ∧
    (after (exec (.locate .fen 57) State.reset)).log = [.resp .main 0x23000039 .ok 0x0019005C] := by decide

/-- V-LOC: port 58, in decimal. -/
theorem test_locate_range : (after (exec (.locate .lev 58) mapped)).log = [.resp .main 0x2180003A .outOfRange 0] := by
  decide

/-- V-COD-1. -/
theorem test_setbit : ∃ t, exec (.setbit .ren 31) mapped = .next t ∧ t.regs.ren.word 0 = 0x80000000 :=
  ⟨_, exec_setbit (by decide) (by decide) (by decide) (by decide) (by decide), by decide⟩

/-- V-COD-5. -/
theorem test_setbit_fen : ∃ t, exec (.setbit .fen 1) (fen 5 mapped) = .next t ∧ t.regs.fen.word 0 = 7 :=
  ⟨_, exec_setbit (by decide) (by decide) (by decide) (by decide) (by decide), by decide⟩

/-- V-COD-4. -/
theorem test_clrbit : ∃ t, exec (.clrbit .ren 20) (ren 0xFFFF0000 mapped) = .next t ∧
    t.regs.ren.word 0 = 0xFFEF0000 :=
  ⟨_, exec_clrbit (by decide) (by decide) (by decide) (by decide) (by decide), by decide⟩

/-- P2 step 8, before the clear step. -/
theorem test_rdbit : ∃ v t, exec (.rdbit .eds 5) (eds 0x20 mapped) = .next t ∧
    t.log = [.resp .main 0x2E000005 .ok (bitValue v)] ∧ v = true :=
  ⟨_, _, exec_rdbit (by decide) (by decide) (by decide) (by decide), rfl,
    (memRead_bit (s := eds 0x20 mapped) (by decide) (p := 5) (by decide) (b := .eds) (by decide)).trans (by decide)⟩

/-- V-COD-9. -/
theorem test_pulse_eds : (after (exec (.pulse .eds 0) (eds 0xFFFFFFFF mapped))).regs.eds.word 0 = 0xFFFFFFFE := by decide

/-- V-COD-10. -/
theorem test_pulse_set : (after (exec (.pulse .set 22) mapped)).regs.lat.word 0 = 0x00400000 := by decide

/-- V-COD-12. -/
theorem test_setfn : ∃ t, exec (.setfn 1 9) mapped = .next t ∧ t.regs.fsel.word 0 = 0x08000000 :=
  ⟨_, exec_setfn (by decide) (by decide) (by decide) (by decide), by decide⟩

/-- V-COD-14. -/
theorem test_setfn_clears : ∃ t, exec (.setfn 0 22) (fsel 2 0x3FFFFFFF mapped) = .next t ∧
    t.regs.fsel.word 2 = 0x3FFFFE3F :=
  ⟨_, exec_setfn (by decide) (by decide) (by decide) (by decide), by decide⟩

/-- GETFN of the field V-COD-12 writes. -/
theorem test_getfn : ∃ t, exec (.getfn 9) (fsel 0 0x08000000 mapped) = .next t ∧
    t.log = [.resp .main 0x38000009 .ok 1] :=
  ⟨_, exec_getfn (by decide) (by decide) (by decide) (by decide), by decide⟩

/-- P1 step 1, O1: the host's answer maps the window. -/
theorem test_open_reserves : (after (exec (.openPin .output 22) (State.reset.setMapAnswers [.ok]))).win = .mapped ∧
    (after (exec (.openPin .output 22) (State.reset.setMapAnswers [.ok]))).handle.lookup 22 = some .output ∧
    (after (exec (.openPin .output 22) (State.reset.setMapAnswers [.ok]))).busy.has 22 = true := by decide

/-- P1 step 1, O2. -/
theorem test_open_programs : ∃ t, exec (.openPin .output 22)
      (mapped.setMain (.busy (.openPin .output 22) .o2 Locals.none)) = .next t ∧ t.regs.fsel.word 2 = 0x40 ∧
    t.main = .idle :=
  ⟨_, exec_open_o2 (loc := Locals.none) (by decide) (by decide) (by decide) (by decide), by decide, by decide⟩

/-- P3 step 4. -/
theorem test_set : (after (exec (.setPin 31) (mapped.setHandle 31 (some .output)))).regs.lat.word 0 = 0x80000000 := by
  decide

/-- P1 step 4. -/
theorem test_clr : (after (exec (.clrPin 22) (lat 0x00400000 (mapped.setHandle 22 (some .output))))).regs.lat.word 0 = 0
    := by decide

/-- P1 step 9: the level is the outside level. -/
theorem test_read : ∃ t, exec (.readPin 22) ((mapped.setHandle 22 (some .input)).setExt [(22, ())]) = .next t ∧
    t.log = [.resp .main 0x4C000016 .ok 1] :=
  ⟨_, exec_readPin (by decide) (by decide) (by decide) (by decide), by decide⟩

/-- P3 step 23. -/
theorem test_read_output : exec (.readPin 5) (opened .output) =
    .next (raise (.readPin 5) .invalidOperation (opened .output)) := by rfl

/-- P5 step 18: K1 marks the port and signals the stop. -/
theorem test_close_k1 : (after (exec (.closePin 5) (watched (watchIn .poll false 0)))).busy.has 5 = true ∧
    (after (exec (.closePin 5) (watched (watchIn .poll false 0)))).watch.lookup 5 = some (watchIn .poll true 0) := by
  decide

/-- V-WAT-19: K6 after a window failure. -/
theorem test_close_k6 : (after (exec (.closePin 5)
      ((opened .input).setMain (.busy (.closePin 5) .k6 ⟨false, .unsupportedPlatform⟩)))).log =
    [.resp .main 0x50000005 .unsupportedPlatform 0] := by decide

/-- P2 step 2, B1. -/
theorem test_beginWatch_b1 : (after (exec (.beginWatch .falling 5 1) (opened .input))).watch.lookup 5 =
    some ⟨.falling, 1, .starting, false, 0⟩ := by decide

/-- P2 step 2, B4. -/
theorem test_beginWatch_b4 : ∃ t, exec (.beginWatch .falling 5 1)
      ((watched (watchIn .starting false 0)).setMain (.busy (.beginWatch .falling 5 1) .b4 Locals.none)) = .next t ∧
    t.regs.fen.word 0 = 0x20 :=
  ⟨_, exec_beginWatch_running (m := .b4) (loc := Locals.none) (by decide) (by decide) (by decide) (by decide), by decide⟩

/-- P2 step 9: E1. -/
theorem test_endWatch_e1 : (after (exec (.endWatch 5) (watched (watchIn .poll false 0)))).watch.lookup 5 =
    some (watchIn .poll true 0) := by decide

/-- P2 step 11, its last micro-step. -/
theorem test_endWatch_removes : (after (exec (.endWatch 5)
      ((watched (watchIn .stopped true 1)).setMain (.busy (.endWatch 5) .remove ⟨true, .ok⟩)))).watch.lookup 5 = none ∧
    (after (exec (.endWatch 5)
      ((watched (watchIn .stopped true 1)).setMain (.busy (.endWatch 5) .remove ⟨true, .ok⟩)))).log =
      [.resp .main 0x64000005 .ok 0] := by decide

/-! ### The watcher, the pads and the host -/

/-- P2 step 4: a falling edge on an enabled line. -/
theorem test_pad_falling : (padStep 5 false ((fen 0x20 (opened .input)).setExt [(5, ())])).regs.eds.word 0 = 0x20 := by
  decide

/-- P5 step 21: with no enable set nothing is latched. -/
theorem test_pad_disabled : (padStep 5 false ((opened .input).setExt [(5, ())])).regs.eds.word 0 = 0 := by decide

/-- P2 step 5: the dispatch. -/
theorem test_dispatch : (dispatchCallback 5 (watchIn .poll false 0) (watched (watchIn .poll false 0))).log =
      [.callback 5 1 1] ∧
    (dispatchCallback 5 (watchIn .poll false 0) (watched (watchIn .poll false 0))).caller (.cb 5) = some .idle := by decide

/-- P2 step 6: the return. -/
theorem test_callback_return : (callbackReturn 5 (inCallback .idle)).watch.lookup 5 = some (watchIn .clearing false 1) ∧
    (callbackReturn 5 (inCallback .idle)).caller (.cb 5) = none := by decide

/-- P2 step 7: the clear step. -/
theorem test_clear_step : (after (watcherStep 5 (eds 0x20 (watched (watchIn .clearing false 1))))).regs.eds.word 0 = 0 := by
  decide

/-- P2 step 10: the stop step. -/
theorem test_stop_step : (after (watcherStep 5 (eds 0x20 (watched (watchIn .poll true 1))))).watch.lookup 5 =
    some (watchIn .stopped true 1) := by decide

/-- V-WAT-18: a watch fails with the window. -/
theorem test_watch_fails : (after (watcherStep 5 ((watched (watchIn .poll false 0)).setWin
      (.failed .unsupportedPlatform)))).log = [.watchFailed 5] := by decide

/-- V-WIN-23. -/
theorem test_unmap : (unmapStep mapped).win = .failed .unsupportedPlatform := by decide

/-! ### Witnesses: a state and operands that meet the hypotheses of each obligation, clause by clause -/

theorem mayIssue (i : Instr) {s : State} (h1 : s.params = Params.rpi4) (h2 : s.caller s.active = some .idle) :
    MayIssue i s :=
  ⟨by rw [h1]; decide, position_start.2 h2⟩

theorem mayIssue_mapped (i : Instr) : MayIssue i mapped := mayIssue i rfl rfl

theorem witness_DecodeOfEncode : (Instr.rd32 0xFFF).wellFormed = true ∧ (Instr.setbit .fen 255).wellFormed = true ∧
    (Instr.rdbit .lev 255).wellFormed = true ∧ (Instr.pulse .eds 255).wellFormed = true := by decide

theorem witness_EncodeOfDecode : decode ⟨0x040FFF00, 0xFFFFFFFF⟩ = .ok (.rd32 0xFFF) ∧
    decode ⟨0x218000FF, 0⟩ = .ok (.locate .lev 255) := by decide

theorem witness_OpcodeRowsDisjoint : ⟨.rd32, 0x04000000, 0xFFF000FF⟩ ∈ opcodeMap ∧
    (0x040FFF00 : Word) &&& 0xFFF000FF = 0x04000000 := by decide

/-- The state with a choice before it. -/
def choose (a : Input) (s : State) : State := s.setInputs [a]

theorem witness_IllegalCommandResponds : (choose (.issue .main ⟨0, 0⟩) mapped).params.legal ∧
    (choose (.issue .main ⟨0, 0⟩) mapped).nextInput = .issue .main ⟨0, 0⟩ ∧
    (choose (.issue .main ⟨0, 0⟩) mapped).caller .main = some .idle ∧ decode ⟨0, 0⟩ = .error .unknownOpcode := by decide

theorem witness_StepRunsDecodedInstruction : (choose (.issue (.cb 5) ⟨0x4C000005, 0⟩) (inCallback .idle)).params.legal ∧
    (choose (.issue (.cb 5) ⟨0x4C000005, 0⟩) (inCallback .idle)).nextInput = .issue (.cb 5) ⟨0x4C000005, 0⟩ ∧
    (choose (.issue (.cb 5) ⟨0x4C000005, 0⟩) (inCallback .idle)).caller (.cb 5) = some .idle ∧
    decode ⟨0x4C000005, 0⟩ = .ok (.readPin 5) := by decide

/-- Port 5 closing, its K6 next. -/
def closing (k : MicroStep) (loc : Locals) (s : State) : State := (s.setBusy 5 true).setMain (.busy (.closePin 5) k loc)

theorem witness_StepResumesCommand : (choose (.resume .main) (closing .k6 ⟨false, .ok⟩ (opened .input))).params.legal ∧
    (choose (.resume .main) (closing .k6 ⟨false, .ok⟩ (opened .input))).nextInput = .resume .main ∧
    (choose (.resume .main) (closing .k6 ⟨false, .ok⟩ (opened .input))).caller .main =
      some (.busy (.closePin 5) .k6 ⟨false, .ok⟩) := by decide

theorem witness_PlacedWordRunsNext : State.reset.params.legal ∧
    decodeTableWord 32 0x20000016 = some (.locate .fsel 22) := by decide

/-! Memory Window. -/

theorem witness_Rd32ReturnsWord : MayIssue (.rd32 0x14) mapped ∧ mapped.win = .mapped ∧
    (0x14 : BitVec 12).toNat % 4 = 0 ∧ (0x14 : BitVec 12).toNat + 4 ≤ mapped.params.windowSize ∧
    (0xFFC : BitVec 12).toNat + 4 ≤ mapped.params.windowSize ∧
    decodeOffset mapped.params 0x14 = some (.fsel, 5) ∧ 10 * 5 + 23 / 3 < mapped.params.nports ∧
    decodeOffset mapped.params 0x38 = some (.lev, 1) ∧ 32 * 1 + 25 < mapped.params.nports ∧
    decodeOffset mapped.params 0x44 = some (.eds, 1) :=
  ⟨mayIssue_mapped _, by decide, by decide, by decide, by decide, by decide, by decide, by decide, by decide, by decide⟩

theorem witness_Wr32WritesWord (data : Word) : MayIssue (.wr32 0x14 data) mapped ∧ mapped.win = .mapped ∧
    decodeOffset mapped.params 0x14 = some (.fsel, 5) ∧ decodeOffset mapped.params 0x20 = some (.set, 1) ∧
    decodeOffset mapped.params 0x2C = some (.clr, 1) ∧ decodeOffset mapped.params 0x38 = some (.lev, 1) ∧
    decodeOffset mapped.params 0x44 = some (.eds, 1) ∧ decodeOffset mapped.params 0x50 = some (.ren, 1) ∧
    decodeOffset mapped.params 0x5C = some (.fen, 1) :=
  ⟨mayIssue_mapped _, by decide, by decide, by decide, by decide, by decide, by decide, by decide, by decide⟩

theorem witness_UnbankedWriteRefused (data : Word) : MayIssue (.wr32 0xFFC data) mapped ∧ mapped.win = .mapped ∧
    (0xFFC : BitVec 12).toNat % 4 = 0 ∧ (0xFFC : BitVec 12).toNat + 4 ≤ mapped.params.windowSize ∧
    decodeOffset mapped.params 0xFFC = none ∧ decodeOffset mapped.params 0x18 = none :=
  ⟨mayIssue_mapped _, by decide, by decide, by decide, by decide, by decide⟩

theorem witness_BadOffsetsRaiseOutOfRange (data : Word) : mapped.win = .mapped ∧ (0xFFD : BitVec 12).toNat % 4 ≠ 0 ∧
    MayIssue (.rd32 0xFFD) mapped ∧ MayIssue (.wr32 0xFFD data) mapped :=
  ⟨by decide, by decide, mayIssue_mapped _, mayIssue_mapped _⟩

theorem witness_BadOffsetsRaiseOutOfRange_outside (data : Word) : (smallWindow mapped).win = .mapped ∧
    (smallWindow mapped).params.windowSize < (0x100 : BitVec 12).toNat + 4 ∧
    MayIssue (.rd32 0x100) (smallWindow mapped) ∧ MayIssue (.wr32 0x100 data) (smallWindow mapped) :=
  ⟨by decide, by decide, ⟨by decide, position_start.2 rfl⟩, ⟨by decide, position_start.2 rfl⟩⟩

theorem witness_WincloseUnmaps : MayIssue .winclose mapped ∧ mapped.win = .mapped ∧
    ∀ p, mapped.handle.lookup p = none :=
  ⟨mayIssue_mapped _, rfl, fun _ => rfl⟩

theorem witness_WincloseRaises_open : MayIssue .winclose (opened .output) ∧ (opened .output).win = .mapped ∧
    ∃ p, (opened .output).handle.lookup p ≠ none :=
  ⟨mayIssue _ rfl rfl, rfl, 5, by decide⟩

theorem witness_WincloseRaises_unmapped : MayIssue .winclose State.reset ∧ State.reset.win = .unmapped :=
  ⟨mayIssue _ rfl rfl, rfl⟩

theorem witness_WincloseRaises_failed : MayIssue .winclose failed ∧ failed.win = .failed .permissionDenied ∧
    MayIssue .winclose (failed.setWin (.failed .unsupportedPlatform)) :=
  ⟨mayIssue _ rfl rfl, rfl, mayIssue _ rfl rfl⟩

theorem witness_WindowGateRaises : MayIssue (.setbit .ren 57) State.reset ∧ (Instr.setbit .ren 57).wellFormed = true ∧
    State.reset.win = .unmapped ∧ MayIssue (.rd32 0x34) failed ∧ failed.win = .failed .permissionDenied ∧
    MayIssue (.beginWatch .both 5 1) (failed.setWin (.failed .unsupportedPlatform)) :=
  ⟨mayIssue _ rfl rfl, by decide, rfl, mayIssue _ rfl rfl, rfl, mayIssue _ rfl rfl⟩

/-! Register Codec: the last port, and the first that does not exist. -/

theorem witness_LocateReturnsPosition : MayIssue (.locate .fsel 57) State.reset ∧
    (57 : Port).toNat < State.reset.params.nports ∧ MayIssue (.locate .fen 57) failed ∧
    MayIssue (.locate .lev 58) State.reset ∧ State.reset.params.nports ≤ (58 : Port).toNat :=
  ⟨mayIssue _ rfl rfl, by decide, mayIssue _ rfl rfl, mayIssue _ rfl rfl, by decide⟩

theorem witness_SetbitSetsEnable : MayIssue (.setbit .ren 57) mapped ∧ mapped.win = .mapped ∧
    Bank.ren ∈ [Bank.ren, Bank.fen] ∧ (57 : Port).toNat < mapped.params.nports :=
  ⟨mayIssue_mapped _, rfl, by decide, by decide⟩

theorem witness_ClrbitClearsEnable : MayIssue (.clrbit .fen 31) mapped ∧ mapped.win = .mapped ∧
    Bank.fen ∈ [Bank.ren, Bank.fen] ∧ (31 : Port).toNat < mapped.params.nports :=
  ⟨mayIssue_mapped _, rfl, by decide, by decide⟩

theorem witness_RdbitReturnsBit : MayIssue (.rdbit .lev 57) mapped ∧ MayIssue (.rdbit .eds 57) mapped ∧
    MayIssue (.rdbit .ren 57) mapped ∧ MayIssue (.rdbit .fen 57) mapped ∧ mapped.win = .mapped ∧
    (57 : Port).toNat < mapped.params.nports :=
  ⟨mayIssue_mapped _, mayIssue_mapped _, mayIssue_mapped _, mayIssue_mapped _, rfl, by decide⟩

theorem witness_PulseActsOnPort : MayIssue (.pulse .set 57) mapped ∧ MayIssue (.pulse .clr 57) mapped ∧
    MayIssue (.pulse .eds 57) mapped ∧ mapped.win = .mapped ∧ (57 : Port).toNat < mapped.params.nports :=
  ⟨mayIssue_mapped _, mayIssue_mapped _, mayIssue_mapped _, rfl, by decide⟩

theorem witness_SetfnWritesField : MayIssue (.setfn 7 57) mapped ∧ mapped.win = .mapped ∧
    (57 : Port).toNat < mapped.params.nports :=
  ⟨mayIssue_mapped _, rfl, by decide⟩

theorem witness_GetfnReturnsField : MayIssue (.getfn 57) mapped ∧ mapped.win = .mapped ∧
    (57 : Port).toNat < mapped.params.nports :=
  ⟨mayIssue_mapped _, rfl, by decide⟩

theorem witness_CodecPortOutOfRange : MayIssue (.setbit .ren 58) mapped ∧ MayIssue (.getfn 58) mapped ∧
    (Instr.setbit .ren 58).wellFormed = true ∧ mapped.win = .mapped ∧ mapped.params.nports ≤ (58 : Port).toNat :=
  ⟨mayIssue_mapped _, mayIssue_mapped _, by decide, rfl, by decide⟩

theorem witness_BitIsolation : mapped.params.legal ∧ 30 < mapped.params.nports ∧ 30 ≠ (31 : Port).toNat ∧
    (∃ t, exec (.setbit .ren 31) mapped = .next t) ∧ (∃ t, exec (.clrbit .fen 31) mapped = .next t) ∧
    (∃ t, exec (.pulse .set 31) mapped = .next t) ∧ ∃ t, exec (.setfn 1 31) mapped = .next t :=
  ⟨by decide, by decide, by decide,
    ⟨_, exec_setbit (by decide) (by decide) (by decide) (by decide) (by decide)⟩,
    ⟨_, exec_clrbit (by decide) (by decide) (by decide) (by decide) (by decide)⟩,
    ⟨_, exec_pulse (by decide) (by decide) (by decide) (by decide) (by decide)⟩,
    ⟨_, exec_setfn (by decide) (by decide) (by decide) (by decide)⟩⟩

/-! Pin Handle. -/

theorem witness_OpenCompletes : MayIssue (.openPin .output 57) mapped ∧ (57 : Port).toNat < mapped.params.nports ∧
    mapped.handle.lookup (57 : Port).toNat = none ∧ mapped.win = .mapped :=
  ⟨mayIssue_mapped _, by decide, rfl, rfl⟩

theorem witness_OpenCompletes_maps : MayIssue (.openPin .input 5) (State.reset.setMapAnswers [.ok]) ∧
    (State.reset.setMapAnswers [.ok]).win = .unmapped ∧ MapOk (State.reset.setMapAnswers [.ok]) :=
  ⟨mayIssue _ rfl rfl, rfl, rfl⟩

theorem witness_OpenRaises : MayIssue (.openPin .input 4) failed ∧ failed.win = .failed .permissionDenied ∧
    MayIssue (.openPin .input 4) (State.reset.setMapAnswers [.failed .permissionDenied]) ∧
    (State.reset.setMapAnswers [.failed .permissionDenied]).mapAnswers.head? = some (.failed .permissionDenied) ∧
    MayIssue (.openPin .output 58) mapped ∧ mapped.params.nports ≤ (58 : Port).toNat ∧
    MayIssue (.openPin .output 58) (State.reset.setMapAnswers [.ok]) ∧ MapOk (State.reset.setMapAnswers [.ok]) ∧
    MayIssue (.openPin .input 5) (opened .output) ∧ (opened .output).handle.lookup (5 : Port).toNat ≠ none :=
  ⟨mayIssue _ rfl rfl, rfl, mayIssue _ rfl rfl, rfl, mayIssue_mapped _, by decide, mayIssue _ rfl rfl, rfl, mayIssue _ rfl rfl,
    by decide⟩

/-- Port 5 opening, its O2 next. -/
def opening (s : State) : State := (s.setBusy 5 true).setMain (.busy (.openPin .input 5) .o2 Locals.none)

theorem witness_OpenUndone :
    IsAt (.openPin .input 5) .o2 Locals.none (opening ((opened .input).setWin (.failed .unsupportedPlatform))) ∧
    (opening ((opened .input).setWin (.failed .unsupportedPlatform))).win ≠ .mapped :=
  ⟨⟨by decide, by decide⟩, by decide⟩

theorem witness_SetDrivesHigh : MayIssue (.setPin 5) (fsel 0 0x8000 (opened .output)) ∧
    (fsel 0 0x8000 (opened .output)).win = .mapped ∧ (5 : Port).toNat < mapped.params.nports ∧
    (fsel 0 0x8000 (opened .output)).handle.lookup (5 : Port).toNat = some .output ∧
    (fsel 0 0x8000 (opened .output)).busy.has (5 : Port).toNat = false ∧
    field (fsel 0 0x8000 (opened .output)) (5 : Port).toNat = mapped.params.fselOutput :=
  ⟨mayIssue _ rfl rfl, rfl, by decide, by decide, by decide, by decide⟩

theorem witness_ClrDrivesLow : MayIssue (.clrPin 5) (fsel 0 0x8000 (opened .output)) ∧
    (fsel 0 0x8000 (opened .output)).win = .mapped ∧
    (fsel 0 0x8000 (opened .output)).handle.lookup (5 : Port).toNat = some .output ∧
    (fsel 0 0x8000 (opened .output)).busy.has (5 : Port).toNat = false ∧
    field (fsel 0 0x8000 (opened .output)) (5 : Port).toNat = mapped.params.fselOutput :=
  ⟨mayIssue _ rfl rfl, rfl, by decide, by decide, by decide⟩

theorem witness_ReadReturnsLevel : MayIssue (.readPin 5) (opened .input) ∧ (opened .input).win = .mapped ∧
    (5 : Port).toNat < (opened .input).params.nports ∧
    (opened .input).handle.lookup (5 : Port).toNat = some .input ∧
    (opened .input).busy.has (5 : Port).toNat = false :=
  ⟨mayIssue _ rfl rfl, rfl, by decide, by decide, by decide⟩

theorem witness_PinCommandsRaise : MayIssue (.setPin 58) mapped ∧ mapped.win = .mapped ∧
    mapped.params.nports ≤ (58 : Port).toNat ∧ MayIssue (.readPin 57) mapped ∧
    (57 : Port).toNat < mapped.params.nports ∧ mapped.handle.lookup (57 : Port).toNat ≠ some .input ∧
    MayIssue (.clrPin 5) ((opened .output).setBusy 5 true) ∧
    ((opened .output).setBusy 5 true).busy.has (5 : Port).toNat = true :=
  ⟨mayIssue_mapped _, rfl, by decide, mayIssue_mapped _, by decide, by decide, mayIssue _ rfl rfl, by decide⟩

theorem witness_CloseCompletes : MayIssue (.closePin 5) (opened .output) ∧ (opened .output).win = .mapped ∧
    (5 : Port).toNat < (opened .output).params.nports ∧ (opened .output).handle.lookup (5 : Port).toNat ≠ none ∧
    (opened .output).busy.has (5 : Port).toNat = false ∧ (opened .output).watch.lookup (5 : Port).toNat = none :=
  ⟨mayIssue _ rfl rfl, rfl, by decide, by decide, by decide, by decide⟩

theorem witness_CloseStopsWatch (ph : Phase) : MayIssue (.closePin 5) (watched (watchIn ph false 1)) ∧
    (watched (watchIn ph false 1)).win = .mapped ∧
    (watched (watchIn ph false 1)).handle.lookup (5 : Port).toNat ≠ none ∧
    (watched (watchIn ph false 1)).busy.has (5 : Port).toNat = false ∧
    (watched (watchIn ph false 1)).watch.lookup (5 : Port).toNat = some (watchIn ph false 1) ∧
    stepsToStop Phase.stopped = some 0 ∧ stepsToStop Phase.poll = some 1 ∧ stepsToStop Phase.clearing = some 2 :=
  ⟨mayIssue _ rfl rfl, rfl, Option.some_ne_none _, rfl, rfl, rfl, rfl, rfl⟩

theorem witness_CloseAndEndWatchWithFailedWindow :
    MayIssue (.closePin 5) ((opened .input).setWin (.failed .permissionDenied)) ∧
    ((opened .input).setWin (.failed .permissionDenied)).win = .failed .permissionDenied ∧
    ((opened .input).setWin (.failed .permissionDenied)).handle.lookup (5 : Port).toNat ≠ none ∧
    ((opened .input).setWin (.failed .permissionDenied)).busy.has (5 : Port).toNat = false ∧
    ((opened .input).setWin (.failed .permissionDenied)).watch.lookup (5 : Port).toNat = none ∧
    MayIssue (.endWatch 5) ((watched (watchIn .poll false 0)).setWin (.failed .unsupportedPlatform)) ∧
    MayIssue (.closePin 5) ((watched (watchIn .poll false 0)).setWin (.failed .unsupportedPlatform)) ∧
    ((watched (watchIn .poll false 0)).setWin (.failed .unsupportedPlatform)).watch.lookup (5 : Port).toNat =
      some (watchIn .poll false 0) ∧ stepsToStop Phase.poll = some 1 ∧ stepsToStop Phase.stopped = some 0 :=
  ⟨mayIssue _ rfl rfl, rfl, by decide, by decide, by decide, mayIssue _ rfl rfl, mayIssue _ rfl rfl, by decide, rfl, rfl⟩

/-! Watch commands. -/

theorem witness_BeginWatchCompletes (k : EdgeKind) : MayIssue (.beginWatch k 5 1) (opened .input) ∧
    (opened .input).win = .mapped ∧ (5 : Port).toNat < (opened .input).params.nports ∧
    (opened .input).handle.lookup (5 : Port).toNat = some .input ∧
    (opened .input).busy.has (5 : Port).toNat = false ∧ (opened .input).watch.lookup (5 : Port).toNat = none :=
  ⟨mayIssue _ rfl rfl, rfl, by decide, by decide, by decide, by decide⟩

theorem witness_BeginWatchRaises (k : EdgeKind) : MayIssue (.beginWatch k 58 1) mapped ∧ mapped.win = .mapped ∧
    mapped.params.nports ≤ (58 : Port).toNat ∧ MayIssue (.beginWatch k 5 1) (opened .output) ∧
    (opened .output).handle.lookup (5 : Port).toNat ≠ some .input ∧
    MayIssue (.beginWatch k 5 1) (watched (watchIn .poll false 0)) ∧
    (watched (watchIn .poll false 0)).handle.lookup (5 : Port).toNat = some .input ∧
    (watched (watchIn .poll false 0)).busy.has (5 : Port).toNat = false ∧
    (watched (watchIn .poll false 0)).watch.lookup (5 : Port).toNat ≠ none :=
  ⟨mayIssue_mapped _, rfl, by decide, mayIssue _ rfl rfl, by decide, mayIssue _ rfl rfl, by decide, by decide, by decide⟩

/-- Port 5 beginning a watch, with the window failed. -/
def beginning (m : MicroStep) : State :=
  ((watched (watchIn .starting false 0)).setMain (.busy (.beginWatch .falling 5 1) m Locals.none)).setWin
    (.failed .unsupportedPlatform)

theorem witness_BeginWatchUndone : IsAt (.beginWatch .falling 5 1) .b2 Locals.none (beginning .b2) ∧
    IsAt (.beginWatch .falling 5 1) .b3 Locals.none (beginning .b3) ∧
    IsAt (.beginWatch .falling 5 1) .b4 Locals.none (beginning .b4) ∧ (beginning .b2).win ≠ .mapped :=
  ⟨⟨by decide, by decide⟩, ⟨by decide, by decide⟩, ⟨by decide, by decide⟩, by decide⟩

theorem witness_EndWatchCompletes (ph : Phase) : MayIssue (.endWatch 5) (watched (watchIn ph false 1)) ∧
    (watched (watchIn ph false 1)).win = .mapped ∧
    (watched (watchIn ph false 1)).handle.lookup (5 : Port).toNat ≠ none ∧
    (watched (watchIn ph false 1)).busy.has (5 : Port).toNat = false ∧
    (watched (watchIn ph false 1)).watch.lookup (5 : Port).toNat = some (watchIn ph false 1) ∧
    stepsToStop Phase.stopped = some 0 ∧ stepsToStop Phase.poll = some 1 ∧ stepsToStop Phase.clearing = some 2 :=
  ⟨mayIssue _ rfl rfl, rfl, Option.some_ne_none _, rfl, rfl, rfl, rfl, rfl⟩

theorem witness_CloseAndEndWatchRaise : MayIssue (.closePin 5) State.reset ∧ State.reset.win = .unmapped ∧
    MayIssue (.endWatch 58) mapped ∧ mapped.win ≠ .unmapped ∧ mapped.params.nports ≤ (58 : Port).toNat ∧
    MayIssue (.closePin 57) mapped ∧ mapped.handle.lookup (57 : Port).toNat = none ∧
    MayIssue (.endWatch 5) (opened .input) ∧ (opened .input).watch.lookup (5 : Port).toNat = none :=
  ⟨mayIssue _ rfl rfl, rfl, mayIssue_mapped _, by decide, by decide, mayIssue_mapped _, rfl, mayIssue _ rfl rfl, rfl⟩

/-- Port 5 watched, and Main in StopWatch of ENDWATCH. -/
def ending (w : WatchState) : State := (watched w).setMain (.busy (.endWatch 5) .stop ⟨true, .ok⟩)

theorem witness_StopWatchHoldsCaller : IsAt (.endWatch 5) .stop ⟨true, .ok⟩ (ending (watchIn .stopped true 0)) ∧
    (ending (watchIn .stopped true 0)).watch.lookup (5 : Port).toNat = some (watchIn .stopped true 0) ∧
    IsAt (.endWatch 5) .stop ⟨true, .ok⟩ (ending (watchIn .poll true 0)) ∧
    (ending (watchIn .poll true 0)).watch.lookup (5 : Port).toNat = some (watchIn .poll true 0) :=
  ⟨⟨by decide, by decide⟩, by decide, ⟨by decide, by decide⟩, by decide⟩

/-! Agents. -/

theorem witness_WatcherStopStep : (choose (.watcher 5) (watched (watchIn .poll true 0))).params.legal ∧
    (choose (.watcher 5) (watched (watchIn .poll true 0))).nextInput = .watcher 5 ∧
    (choose (.watcher 5) (watched (watchIn .poll true 0))).watch.lookup 5 = some (watchIn .poll true 0) := by decide

theorem witness_WatcherPollStep : (choose (.watcher 5) (eds 0x20 (watched (watchIn .poll false 0)))).params.legal ∧
    5 < mapped.params.nports ∧
    (choose (.watcher 5) (eds 0x20 (watched (watchIn .poll false 0)))).nextInput = .watcher 5 ∧
    (choose (.watcher 5) (eds 0x20 (watched (watchIn .poll false 0)))).watch.lookup 5 = some (watchIn .poll false 0) ∧
    (choose (.watcher 5) (eds 0x20 (watched (watchIn .poll false 0)))).win = .mapped ∧
    edsBit (choose (.watcher 5) (eds 0x20 (watched (watchIn .poll false 0)))) 5 = true ∧
    edsBit (choose (.watcher 5) (watched (watchIn .poll false 0))) 5 = false := by decide

theorem witness_WatcherClearStep : (choose (.watcher 5) (watched (watchIn .clearing true 1))).params.legal ∧
    (choose (.watcher 5) (watched (watchIn .clearing true 1))).nextInput = .watcher 5 ∧
    (choose (.watcher 5) (watched (watchIn .clearing true 1))).watch.lookup 5 = some (watchIn .clearing true 1) ∧
    (choose (.watcher 5) (watched (watchIn .clearing true 1))).win = .mapped ∧
    ((choose (.watcher 5) (watched (watchIn .clearing true 1))).setWin (.failed .unsupportedPlatform)).win ≠ .mapped := by
  decide

theorem witness_CallbackReturnStep : (choose (.ret 5) (inCallback .idle)).params.legal ∧
    (choose (.ret 5) (inCallback .idle)).nextInput = .ret 5 ∧
    (choose (.ret 5) (inCallback .idle)).watch.lookup 5 = some (watchIn (.inCallback 1) false 1) ∧
    (choose (.ret 5) (inCallback .idle)).caller (.cb 5) = some .idle := by decide

theorem witness_PadStepLatchesEdges : (choose (.pad 57 true) mapped).params.legal ∧ 57 < mapped.params.nports ∧
    (choose (.pad 57 true) mapped).nextInput = .pad 57 true ∧
    field (choose (.pad 57 true) mapped) 57 ≠ mapped.params.fselOutput ∧
    field (choose (.pad 57 true) (fsel 5 0x00200000 mapped)) 57 = mapped.params.fselOutput := by decide

theorem witness_UnmapFailsWindow : (choose .unmap mapped).params.legal ∧ (choose .unmap mapped).nextInput = .unmap ∧
    (choose .unmap mapped).win = .mapped := by decide

/-! Rules over every step. -/

theorem witness_RegisterMapNeverChanges : ∃ t, step (choose (.pad 5 true) mapped) = .next t := ⟨_, rfl⟩

theorem witness_LogOnlyGrows : ∃ t, step (choose (.issue .main ⟨0, 0⟩) mapped) = .next t := ⟨_, rfl⟩

theorem witness_FailedWindowStays : failed.win = .failed .permissionDenied ∧
    ∃ t, step (choose (.issue .main ⟨0x40000004, 0⟩) failed) = .next t := ⟨rfl, _, rfl⟩

theorem witness_EdsSetOnlyByEdges : 5 < mapped.params.nports ∧ edsBit (choose (.pad 5 true) (ren 0x20 mapped)) 5 = false ∧
    step (choose (.pad 5 true) (ren 0x20 mapped)) = .next (after (step (choose (.pad 5 true) (ren 0x20 mapped)))) ∧
    edsBit (after (step (choose (.pad 5 true) (ren 0x20 mapped)))) 5 = true :=
  ⟨by decide, by decide, rfl, by decide⟩

/-- P1 step 11: Main has had the response to WINCLOSE, the last command of its list. -/
def ended (a : Input) : State := choose a (State.reset.emit (.resp .main 0x0C000000 .ok 0))

theorem witness_QuiescentStepsChangeNothing : (ended (.watcher 5)).params.legal ∧
    Quiescent [⟨0x0C000000, 0⟩] (ended (.watcher 5)) ∧ Admits [⟨0x0C000000, 0⟩] (ended (.watcher 5)) (.watcher 5) ∧
    (ended (.watcher 5)).nextInput = .watcher 5 :=
  ⟨by decide, ⟨⟨rfl, by decide⟩, fun _ => rfl, fun _ => rfl⟩, trivial, rfl⟩

theorem witness_CallbackOnlyFromPoll : ∃ t, 5 < mapped.params.nports ∧
    step (choose (.watcher 5) (eds 0x20 (watched (watchIn .poll false 0)))) = .next t ∧
    t.log = (choose (.watcher 5) (eds 0x20 (watched (watchIn .poll false 0)))).log ++ [.callback 5 1 1] := by
  have hb := memRead_bit (s := (choose (.watcher 5) (eds 0x20 (watched (watchIn .poll false 0)))).takeInput) (by decide)
    (p := 5) (by decide) (b := .eds) (by decide)
  have h1 : (regWord (choose (.watcher 5) (eds 0x20 (watched (watchIn .poll false 0)))).takeInput .eds (5 / 32)).getLsbD
      (5 % 32) = true := by decide
  refine ⟨dispatchCallback 5 (watchIn .poll false 0)
    (choose (.watcher 5) (eds 0x20 (watched (watchIn .poll false 0)))).takeInput.nextDraw, by decide, ?_, by decide⟩
  rw [step_of_legal (by decide)]
  exact congrArg Host.Outcome.next (if_pos (hb.trans h1))

theorem witness_EveryStepKeepsCanonical : Canonical (eds 0x20 mapped) ∧ ∃ t, step (choose .unmap (eds 0x20 mapped)) = .next t :=
  ⟨by unfold Canonical; decide, _, rfl⟩

/-- Port 5 open as Input and watched, with or without a callback caller, and Main Idle. -/
theorem lifecycle_watched {s : State} {w : WatchState} (h1 : s.params = Params.rpi4) (h2 : s.win = .mapped)
    (h3 : s.handle = [(5, .input)]) (h4 : s.busy = []) (h5 : s.watch = [(5, w)]) (h6 : s.main = .idle)
    (h7 : (s.callbacks = [] ∧ ∀ n, w.phase ≠ .inCallback n) ∨
      ∃ x, s.callbacks = [(5, x)] ∧ w.phase = .inCallback w.seq ∧ callerOk s x ∧ transitionOf x = none ∧
        beginningOf x = none) : Lifecycle s := by
  have hl : ∀ {α : Type} (v : α) p, Table.lookup [(5, v)] p = if 5 = p then some v else none := fun _ _ => rfl
  have hc : ∀ c x, s.caller c = some x → x = .idle ∨ (callerOk s x ∧ transitionOf x = none ∧ beginningOf x = none) := by
    intro c x hx
    cases c with
    | main => left; simp only [State.caller, h6] at hx; cases hx; rfl
    | cb p =>
      simp only [State.caller] at hx
      rcases h7 with ⟨h, -⟩ | ⟨y, h, -, hy⟩
      · rw [h] at hx; cases hx
      · rw [h, hl] at hx
        split at hx
        · cases hx; exact .inr hy
        · cases hx
  have ht : ∀ c x, s.caller c = some x → transitionOf x = none ∧ beginningOf x = none := by
    intro c x hx
    rcases hc c x hx with rfl | h
    · exact ⟨rfl, rfl⟩
    · exact h.2
  refine ⟨by rw [h1]; decide, ?_, ?_, ?_, ?_, ?_, ?_, ?_, ?_, ?_⟩
  · intro p _; rw [h2]; decide
  · intro p hp
    rw [h5, hl] at hp
    rw [h3, hl]
    split <;> simp_all
  · intro p hp
    rw [h3, hl, if_neg]
    rintro rfl
    rw [h1] at hp
    exact absurd hp (by decide)
  · intro p hp; rw [h4] at hp; cases hp
  · intro p
    rw [h5, hl]
    rcases h7 with ⟨h, hn⟩ | ⟨y, h, hp, -⟩
    · rw [h]
      simp only [Table.lookup_nil, ne_eq, not_true_eq_false, false_iff]
      rintro ⟨v, hv, hp⟩
      split at hv
      · cases hv; exact hn _ hp
      · cases hv
    · rw [h, hl]
      split
      · simpa using hp
      · simp
  · intro p v n hv hn
    rw [h5, hl] at hv
    split at hv
    · cases hv
      rcases h7 with ⟨-, hx⟩ | ⟨y, -, hp, -⟩
      · exact absurd hn (hx n)
      · rw [hp] at hn; cases hn; rfl
    · cases hv
  · intro c x hx
    rcases hc c x hx with rfl | h
    · trivial
    · exact h.1
  · intro c d x y p hx _ hp
    rw [(ht c x hx).1] at hp; cases hp
  · intro c d x y p hx _ hp
    rw [(ht c x hx).2] at hp; cases hp

/-- V-WAT-15: CB(5) has issued ENDWATCH 5. -/
def stuck : State := (watched (watchIn (.inCallback 1) true 1)).setCallback 5 (some (.busy (.endWatch 5) .stop ⟨true, .ok⟩))

theorem witness_OwnCallbackStuck : Lifecycle (choose (.resume (.cb 5)) stuck) ∧
    (choose (.resume (.cb 5)) stuck).caller (.cb (5 : Port).toNat) = some (.busy (.endWatch 5) .stop ⟨true, .ok⟩) ∧
    (choose (.resume (.cb 5)) stuck).watch.lookup (5 : Port).toNat = some (watchIn (.inCallback 1) true 1) ∧
    ∃ t, step (choose (.resume (.cb 5)) stuck) = .next t := by
  refine ⟨lifecycle_watched (w := watchIn (.inCallback 1) true 1) rfl rfl rfl rfl rfl rfl (.inr ⟨_, rfl, rfl, ?_, rfl, rfl⟩),
    by decide, by decide, _, rfl⟩
  simp only [callerOk]
  decide

theorem witness_StoppedWatchStaysStopped : Lifecycle (choose (.watcher 5) (watched (watchIn .stopped true 1))) ∧
    (choose (.watcher 5) (watched (watchIn .stopped true 1))).watch.lookup 5 = some (watchIn .stopped true 1) ∧
    ∃ t, step (choose (.watcher 5) (watched (watchIn .stopped true 1))) = .next t :=
  ⟨lifecycle_watched (w := watchIn .stopped true 1) rfl rfl rfl rfl rfl rfl (.inl ⟨rfl, fun _ h => by cases h⟩), by decide, _, rfl⟩

theorem witness_EveryStepKeepsLifecycle : Lifecycle (choose (.watcher 5) (watched (watchIn .poll true 1))) ∧
    ∃ t, step (choose (.watcher 5) (watched (watchIn .poll true 1))) = .next t :=
  ⟨lifecycle_watched (w := watchIn .poll true 1) rfl rfl rfl rfl rfl rfl (.inl ⟨rfl, fun _ h => by cases h⟩), _, rfl⟩

/-- V-WIN-14, as a step. -/
theorem witness_StepStopsOnlyOnUnbankedWrite :
    Lifecycle (choose (.issue .main ⟨0x080FFC00, 1⟩) (watched (watchIn .poll false 0))) ∧
    step (choose (.issue .main ⟨0x080FFC00, 1⟩) (watched (watchIn .poll false 0))) = .refused .unbankedWrite :=
  ⟨lifecycle_watched (w := watchIn .poll false 0) rfl rfl rfl rfl rfl rfl (.inl ⟨rfl, fun _ h => by cases h⟩), rfl⟩

end Sys2Proof.Tests
end

section
/-! PROOF. O51, the Register Map (00_scope.md R9): the parameter record through each kind of micro-step. The edge latch,
the map, the undo and RemoveWatch have their rules in Laws; the other operations on a watch, and the answers, have theirs
here. -/

namespace Sys2Proof.Machine

/-! ### Operations -/

section
variable (s : State)

@[simp] theorem finish_params (i : Instr) (v : Word) : (finish i v s).params = s.params := State.respond_params ..
@[simp] theorem raise_params (i : Instr) (e : Status) : (raise i e s).params = s.params := State.respond_params ..
@[simp] theorem illegalCommand_params (cmd : Command) : (illegalCommand cmd s).params = s.params := State.respond_params ..
@[simp] theorem signalStop_params (p : Nat) : (signalStop p s).params = s.params := State.modifyWatch_params ..
@[simp] theorem watcherStop_params (p : Nat) : (watcherStop p s).params = s.params := State.modifyWatch_params ..
@[simp] theorem failWatch_params (p : Nat) : (failWatch p s).params = s.params := rfl
@[simp] theorem dispatchCallback_params (p : Nat) (w : WatchState) : (dispatchCallback p w s).params = s.params := rfl
end

/-! ### Micro-steps -/

theorem Answered.params {i : Instr} {s t : State} (h : Answered i s t) : t.params = s.params := by
  obtain ⟨u, hu, e, v⟩ := h
  simp [hu.params]

/-- No micro-step of a command changes the parameters: it makes a register access, moves the tables, or both. -/
theorem CommandStep.params {i : Instr} {s t : State} (h : CommandStep i s t) : t.params = s.params := by
  cases h with
  | answer _ ha => exact ha.params
  | openProgram _ _ _ _ _ _ _ hu | disable _ _ _ _ _ _ _ _ _ hu | closeInput _ _ _ _ _ _ hu
  | watchArm _ _ _ _ _ _ _ _ _ _ _ _ hu => simp [hu.params]
  | winclose | openRaise | openReserve | openUndo | closeStop | closeBegin | endStop | held | stopped | closeRemove
  | endRemove | closeRelease | watchCreate | watchUndo | watchStart => simp

theorem WatcherStep.params {p : Nat} {s t : State} (h : WatcherStep p s t) : t.params = s.params := by
  cases h with
  | clear _ _ _ _ _ _ hu => simp [hu.params]
  | idle | stop | fail | sample | dispatch => simp

/-- No micro-step of any agent changes the parameters. -/
theorem AgentStep.params {a : Input} {s t : State} (h : AgentStep a s t) : t.params = s.params := by
  cases h with
  | command _ _ _ _ ht => simpa using ht.params
  | watcher _ _ _ ht => exact ht.params
  | none | illegal | pad | ret | unmap => simp

/-- Settles O51: the choice taken leaves the parameters, and so does the micro-step of the agent it names. -/
theorem registerMapNeverChanges : Obligations.RegisterMapNeverChanges := by
  intro s t h
  calc t.params = s.takeInput.params := (step_cases h).2.params
    _ = s.params := takeInput_params s

end Sys2Proof.Machine
end

section
/-! PROOF. O58, the canonical form of the stored data (log 19): each update of the state keeps it, so each micro-step,
which is made of these updates, keeps it. -/

namespace Sys2Proof.Machine

/-! ### Updates -/

section
variable {s : State}

theorem Canonical.regStep {u : State} (h : Canonical s) (hu : RegStep s u) : Canonical u := by
  unfold Canonical
  rw [hu.params, hu.ext, hu.handle, hu.busy, hu.watch, hu.callbacks]
  exact ⟨hu.wf h.1, h.2⟩

/-- A pad step: the level of a port that exists, and the edge latch. -/
theorem Canonical.edgeLatch_setExt (h : Canonical s) {p : Nat} (hp : p < s.params.nports) (v : Bool) :
    Canonical (edgeLatch s (s.setExt (s.ext.mark p v))) := by
  obtain ⟨hr, he, hen, htables⟩ := h
  exact ⟨edgeLatch_wf s (s.setExt (s.ext.mark p v)) hr, Table.rising_mark _ _ _ he, Table.below_mark _ _ _ _ hp hen,
    htables⟩

theorem Canonical.setHandle_some (h : Canonical s) {p : Nat} (hp : p < s.params.nports) (m : Mode) :
    Canonical (s.setHandle p (some m)) := by
  obtain ⟨hr, he, hen, hh, hhn, hrest⟩ := h
  exact ⟨hr, he, hen, Table.rising_put _ p (some m) hh, Table.below_put _ p _ (some m) hp hhn, hrest⟩

theorem Canonical.setHandle_none (h : Canonical s) (p : Nat) : Canonical (s.setHandle p none) := by
  obtain ⟨hr, he, hen, hh, hhn, hrest⟩ := h
  exact ⟨hr, he, hen, Table.rising_put _ p none hh, Table.below_erase _ p _ hhn, hrest⟩

theorem Canonical.setBusy (h : Canonical s) (p : Nat) (b : Bool) : Canonical (s.setBusy p b) := by
  obtain ⟨hr, he, hen, hh, hhn, hb, hw, hc⟩ := h
  exact ⟨hr, he, hen, hh, hhn, Table.rising_mark _ _ _ hb, hw, hc⟩

theorem Canonical.setWatch (h : Canonical s) (p : Nat) (o : Option WatchState) : Canonical (s.setWatch p o) := by
  obtain ⟨hr, he, hen, hh, hhn, hb, hw, hc⟩ := h
  exact ⟨hr, he, hen, hh, hhn, hb, Table.rising_put _ _ _ hw, hc⟩

theorem Canonical.modifyWatch (h : Canonical s) (p : Nat) (f : WatchState → WatchState) :
    Canonical (s.modifyWatch p f) :=
  h.setWatch p _

theorem Canonical.setCallback (h : Canonical s) (p : Nat) (x : Option CallerState) : Canonical (s.setCallback p x) := by
  obtain ⟨hr, he, hen, hh, hhn, hb, hw, hc⟩ := h
  exact ⟨hr, he, hen, hh, hhn, hb, hw, Table.rising_put _ _ _ hc⟩

theorem Canonical.emit (h : Canonical s) (ev : Event) : Canonical (s.emit ev) := h

theorem Canonical.goto (h : Canonical s) (i : Instr) (k : MicroStep) (loc : Locals) : Canonical (s.goto i k loc) := by
  unfold State.goto
  cases s.active with
  | main => exact h
  | cb p => exact h.setCallback p _

theorem Canonical.respond (h : Canonical s) (w : Word) (e : Status) (v : Word) : Canonical (s.respond w e v) := by
  unfold State.respond
  cases s.active with
  | main => exact h
  | cb p => exact (h.emit _).setCallback p _

theorem Canonical.removeWatch (h : Canonical s) (p : Nat) : Canonical (removeWatch p s) := by
  unfold Machine.removeWatch
  split
  · split
    · exact h.setWatch p none
    · exact h
  · exact h

theorem Canonical.mapIfUnmapped (h : Canonical s) : Canonical (mapIfUnmapped s) := by
  simpa [Canonical] using h

theorem Canonical.undoMapping (h : Canonical s) : Canonical (undoMapping s) := by
  simpa [Canonical] using h

theorem Canonical.takeInput (h : Canonical s) : Canonical s.takeInput := by
  simpa [Canonical] using h

end

/-! ### Micro-steps -/

theorem CommandStep.canonical {i : Instr} {s t : State} (ht : CommandStep i s t) (h : Canonical s) : Canonical t := by
  cases ht with
  | answer _ ha => obtain ⟨u, hu, e, v⟩ := ha; exact (h.regStep hu).respond _ _ _
  | winclose => exact Canonical.respond (s := s.setWin .unmapped) h _ _ _
  | openRaise => exact h.undoMapping.respond _ _ _
  | openReserve m p _ _ _ hr =>
    exact ((h.mapIfUnmapped.setHandle_some (by simpa using hr) m).setBusy _ _).goto _ _ _
  | openProgram _ _ _ _ _ _ _ hu => exact ((h.regStep hu).setBusy _ _).respond _ _ _
  | openUndo | closeRelease => exact ((h.setHandle_none _).setBusy _ _).respond _ _ _
  | closeStop => exact ((h.setBusy _ _).modifyWatch _ _).goto _ _ _
  | closeBegin => exact (h.setBusy _ _).goto _ _ _
  | endStop => exact (h.modifyWatch _ _).goto _ _ _
  | held => exact h
  | stopped => exact h.goto _ _ _
  | disable _ _ _ _ _ _ _ _ _ hu | closeInput _ _ _ _ _ _ hu | watchArm _ _ _ _ _ _ _ _ _ _ _ _ hu =>
    exact (h.regStep hu).goto _ _ _
  | closeRemove => exact (h.removeWatch _).goto _ _ _
  | endRemove => exact (h.removeWatch _).respond _ _ _
  | watchCreate => exact (h.setWatch _ _).goto _ _ _
  | watchUndo => exact (h.setWatch _ _).respond _ _ _
  | watchStart => exact (h.modifyWatch _ _).respond _ _ _

theorem WatcherStep.canonical {p : Nat} {s t : State} (ht : WatcherStep p s t) (h : Canonical s) : Canonical t := by
  cases ht with
  | idle | sample => exact h
  | stop => exact h.modifyWatch _ _
  | fail => exact (h.emit _).setWatch _ _
  | dispatch w => exact (((h.regStep (.nextDraw s)).setWatch p _).emit _).setCallback p _
  | clear _ _ _ _ _ _ hu => exact (h.regStep hu).modifyWatch _ _

theorem AgentStep.canonical {a : Input} {s t : State} (ht : AgentStep a s t) (h : Canonical s) : Canonical t := by
  cases ht with
  | none => exact h
  | command c _ _ _ ht => exact ht.canonical (s := s.setActive c) h
  | illegal c => exact Canonical.respond (s := s.setActive c) h _ _ _
  | watcher _ _ _ ht => exact ht.canonical h
  | pad _ v _ hp => exact h.edgeLatch_setExt hp v
  | ret => exact (h.setCallback _ _).setWatch _ _
  | unmap => exact h

/-- Settles O58: the choice taken leaves the data, and the micro-step of the agent it names keeps its form. -/
theorem everyStepKeepsCanonical : Obligations.EveryStepKeepsCanonical := by
  intro s t h hstep
  exact (step_cases hstep).2.canonical h.takeInput

end Sys2Proof.Machine
end

section
/-! PROOF. O59, the lifecycle invariants (10_state.md R44). They are split by port (`PortOk`): an operation on the
tables keeps them if it keeps them at the port it acts on, and with them the condition of every caller that opens,
closes or begins to watch that port. A micro-step is one or two such operations and a move of the acting caller. -/

namespace Sys2Proof.Machine

/-! ### The invariants at one port -/

/-- The invariants of `Lifecycle` on the tables at port `p`. -/
structure PortOk (s : State) (p : Nat) : Prop where
  window : s.handle.lookup p ≠ none → s.win ≠ .unmapped
  watch : s.watch.lookup p ≠ none → s.handle.lookup p = some .input
  range : s.params.nports ≤ p → s.handle.lookup p = none
  busy : s.busy.has p = true → s.handle.lookup p ≠ none
  callback : s.callbacks.lookup p ≠ none ↔ ∃ w, s.watch.lookup p = some w ∧ w.phase = .inCallback w.seq
  count : ∀ w n, s.watch.lookup p = some w → w.phase = .inCallback n → n = w.seq

section
variable {s : State}

theorem Lifecycle.portOk (h : Lifecycle s) (p : Nat) : PortOk s p :=
  ⟨h.handle_window p, h.watch_handle p, h.handle_range p, h.busy_handle p, h.callback_watch p, h.callback_count p⟩

theorem PortOk.congr {t : State} {p : Nat} (h : PortOk s p) (hp : t.params = s.params) (hw : t.win = s.win)
    (hh : t.handle.lookup p = s.handle.lookup p) (hb : t.busy.has p = s.busy.has p)
    (hwa : t.watch.lookup p = s.watch.lookup p) (hc : t.callbacks.lookup p = none ↔ s.callbacks.lookup p = none) :
    PortOk t p := by
  obtain ⟨h1, h2, h3, h4, h5, h6⟩ := h
  constructor <;> simpa only [hp, hw, hh, hb, hwa, ne_eq, hc]

/-- At most one caller is at each port, where `f` gives the port that a caller is at. -/
def AtMostOne (f : CallerState → Option Nat) (s : State) : Prop :=
  ∀ c d x y p, s.caller c = some x → s.caller d = some y → f x = some p → f y = some p → c = d

theorem AtMostOne.of_callers {f : CallerState → Option Nat} {t : State} (h : AtMostOne f s) (hf : f .idle = none)
    (hcall : ∀ c x, t.caller c = some x → x = .idle ∨ s.caller c = some x) : AtMostOne f t := by
  intro c d x y p hx hy hxp hyp
  obtain rfl | hx := hcall c x hx
  · rw [hf] at hxp; cases hxp
  obtain rfl | hy := hcall d y hy
  · rw [hf] at hyp; cases hyp
  exact h c d x y p hx hy hxp hyp

theorem AtMostOne.setCaller {f : CallerState → Option Nat} (h : AtMostOne f s) {c : CallerId} {x : CallerState}
    (hx : ∀ p d z, f x = some p → d ≠ c → s.caller d = some z → f z ≠ some p) : AtMostOne f (s.setCaller c x) := by
  intro d e z z' p hz hz' hp hp'
  rw [caller_setCaller] at hz hz'
  split at hz <;> split at hz'
  · rename_i hd he; rw [hd, he]
  · rename_i hd he; cases hz; exact absurd hp' (hx p e z' hp he hz')
  · rename_i hd he; cases hz'; exact absurd hp (hx p d z hp' hd hz)
  · exact h d e z z' p hz hz' hp hp'

/-- What acts on the tables at port `p`, and creates Idle callers at most, keeps the invariants if it keeps those at `p`
and the conditions of the callers that open, close or begin to watch `p`. -/
theorem Lifecycle.of_port {t : State} (h : Lifecycle s) (p : Nat) (hpar : t.params = s.params) (hwin : t.win = s.win)
    (hoff : SameOtherPorts p s t) (hcb : ∀ q, q ≠ p → (t.callbacks.lookup q = none ↔ s.callbacks.lookup q = none))
    (hp : PortOk t p) (hcall : ∀ c x, t.caller c = some x → x = .idle ∨ s.caller c = some x)
    (hon : ∀ c x, s.caller c = some x → transitionOf x = some p ∨ beginningOf x = some p → callerOk t x) :
    Lifecycle t := by
  have hport : ∀ q, PortOk t q := by
    intro q
    by_cases hq : q = p
    · exact hq ▸ hp
    · obtain ⟨h1, h2, h3⟩ := hoff q hq
      exact (h.portOk q).congr hpar hwin h1 h2 h3 (hcb q hq)
  refine ⟨hpar ▸ h.legal, fun q => (hport q).window, fun q => (hport q).watch, fun q => (hport q).range,
    fun q => (hport q).busy, fun q => (hport q).callback, fun q => (hport q).count, ?_,
    AtMostOne.of_callers h.one_transition rfl hcall, AtMostOne.of_callers h.one_beginning rfl hcall⟩
  intro c x hx
  obtain rfl | hs := hcall c x hx
  · trivial
  · by_cases hop : transitionOf x = some p ∨ beginningOf x = some p
    · exact hon c x hs hop
    · obtain ⟨h1, h2⟩ := not_or.1 hop
      exact callerOk_off_port hpar hoff h1 h2 (h.callers c x hs)

/-- No caller opens or closes a port that is not in transition. -/
theorem Lifecycle.not_transition (h : Lifecycle s) {p : Nat} (hb : s.busy.has p = false) {c : CallerId}
    {x : CallerState} (hx : s.caller c = some x) : transitionOf x ≠ some p := by
  intro hp
  rw [busy_of_transition (h.callers c x hx) hp] at hb
  cases hb

/-- No caller begins the watch of a port that has none in phase Starting. -/
theorem Lifecycle.not_beginning (h : Lifecycle s) {p : Nat}
    (hw : ∀ w, s.watch.lookup p = some w → w.phase ≠ .starting) {c : CallerId} {x : CallerState}
    (hx : s.caller c = some x) : beginningOf x ≠ some p := by
  intro hp
  obtain ⟨w, h1, h2⟩ := starting_of_beginning (h.callers c x hx) hp
  exact hw w h1 h2

theorem Lifecycle.not_beginning_of_none (h : Lifecycle s) {p : Nat} (hw : s.watch.lookup p = none) {c : CallerId}
    {x : CallerState} (hx : s.caller c = some x) : beginningOf x ≠ some p :=
  h.not_beginning (fun w hw' => by rw [hw] at hw'; cases hw') hx

theorem Lifecycle.busy_of_no_handle (h : Lifecycle s) {p : Nat} (hh : s.handle.lookup p = none) :
    s.busy.has p = false := by
  cases hb : s.busy.has p
  · rfl
  · exact absurd hh (h.busy_handle p hb)

theorem Lifecycle.watch_of_no_handle (h : Lifecycle s) {p : Nat} (hh : s.handle.lookup p = none) :
    s.watch.lookup p = none := by
  by_contra hw
  rw [h.watch_handle p hw] at hh
  cases hh

theorem Lifecycle.regStep {u : State} (h : Lifecycle s) (hu : RegStep s u) : Lifecycle u :=
  h.congr hu.params hu.win hu.handle hu.busy hu.watch hu.main hu.callbacks

/-! ### Operations on the window and the tables -/

/-- The window may become what it may be: Unmapped while no handle is open, else anything. -/
theorem Lifecycle.setWin (h : Lifecycle s) {w : WindowState} (hw : w = .unmapped → ∀ p, s.handle.lookup p = none) :
    Lifecycle (s.setWin w) := by
  refine ⟨h.legal, fun p hp hu => hp (hw hu p), h.watch_handle, h.handle_range, h.busy_handle, h.callback_watch,
    h.callback_count, fun c x hx => ?_, h.one_transition, h.one_beginning⟩
  exact callerOk_congr (s := s) rfl (fun _ _ => ⟨rfl, rfl, rfl⟩) (h.callers c x hx)

/-- OPEN's reservation of a port without a handle. -/
theorem Lifecycle.reserve (h : Lifecycle s) {p : Nat} (m : Mode) (hw : s.win ≠ .unmapped) (hr : p < s.params.nports)
    (hh : s.handle.lookup p = none) : Lifecycle ((s.setHandle p (some m)).setBusy p true) := by
  have hn := h.watch_of_no_handle hh
  obtain ⟨-, h2, -, -, h5, h6⟩ := h.portOk p
  refine h.of_port p rfl rfl (fun q hq => by simp [hq]) (fun _ _ => Iff.rfl) ?_ (fun _ _ => .inr) ?_
  · constructor
    case window => exact fun _ => hw
    case watch => exact fun hc => absurd hn hc
    case range => exact fun hc => absurd hr (by simpa using hc)
    case busy => simp
    case callback => exact h5
    case count => exact h6
  · rintro c x hx (ht | hb)
    · exact absurd ht (h.not_transition (h.busy_of_no_handle hh) hx)
    · exact absurd hb (h.not_beginning_of_none hn hx)

/-- What a caller that begins a watch stands on is the watch alone. -/
theorem callerOk_of_beginning {t : State} {p : Nat} {x : CallerState} (hb : beginningOf x = some p)
    (hw : t.watch.lookup p = s.watch.lookup p) (hok : callerOk s x) : callerOk t x := by
  cases x with
  | idle => cases hb
  | busy i k loc =>
    cases i <;> simp [beginningOf] at hb
    subst hb
    simpa only [callerOk, hw] using hok

/-- A port's transition may begin or end while no caller is in it. -/
theorem Lifecycle.setBusy (h : Lifecycle s) {p : Nat} {b : Bool} (hh : b = true → s.handle.lookup p ≠ none)
    (hn : ∀ c x, s.caller c = some x → transitionOf x ≠ some p) : Lifecycle (s.setBusy p b) := by
  obtain ⟨h1, h2, h3, h4, h5, h6⟩ := h.portOk p
  refine h.of_port p rfl rfl (fun q hq => by simp [hq]) (fun _ _ => Iff.rfl) ⟨h1, h2, h3, ?_, h5, h6⟩
    (fun _ _ => .inr) ?_
  · simpa using hh
  · rintro c x hx (ht | hb)
    · exact absurd ht (hn c x hx)
    · exact callerOk_of_beginning (s := s) hb rfl (h.callers c x hx)

/-- A port's handle may go when the port is not in transition and has no watch. -/
theorem Lifecycle.setHandle_none (h : Lifecycle s) {p : Nat} (hb : s.busy.has p = false)
    (hw : s.watch.lookup p = none) : Lifecycle (s.setHandle p none) := by
  obtain ⟨h1, h2, h3, h4, h5, h6⟩ := h.portOk p
  refine h.of_port p rfl rfl (fun q hq => by simp [hq]) (fun _ _ => Iff.rfl) ?_ (fun _ _ => .inr) ?_
  · constructor
    case window => simp
    case watch => exact fun hc => absurd hw hc
    case range => simp
    case busy => exact fun hc => absurd hc (by simp [hb])
    case callback => exact h5
    case count => exact h6
  · rintro c x hx (ht | hbeg)
    · exact absurd ht (h.not_transition hb hx)
    · exact absurd hbeg (h.not_beginning_of_none hw hx)

/-! ### Operations on a watch -/

/-- A watch outside a callback may be replaced by one outside a callback, or removed, if the callers that open, close or
begin to watch the port can go on. -/
theorem Lifecycle.setWatch (h : Lifecycle s) {p : Nat} {o : Option WatchState}
    (hh : o ≠ none → s.handle.lookup p = some .input)
    (hs : ∀ n, (s.watch.lookup p).map (·.phase) ≠ some (.inCallback n))
    (ho : ∀ n, o.map (·.phase) ≠ some (.inCallback n))
    (hon : ∀ c x, s.caller c = some x → transitionOf x = some p ∨ beginningOf x = some p →
      callerOk (s.setWatch p o) x) : Lifecycle (s.setWatch p o) := by
  obtain ⟨h1, -, h3, h4, h5, -⟩ := h.portOk p
  refine h.of_port p rfl rfl (fun q hq => by simp [hq]) (fun _ _ => Iff.rfl) ⟨h1, ?_, h3, h4, ?_, ?_⟩
    (fun _ _ => .inr) hon
  · simpa using hh
  · have hnow : ¬ ∃ w, s.watch.lookup p = some w ∧ w.phase = .inCallback w.seq := fun ⟨w, hw, hp⟩ =>
      hs w.seq (by simp [hw, hp])
    have hthen : ¬ ∃ w, o = some w ∧ w.phase = .inCallback w.seq := fun ⟨w, hw, hp⟩ =>
      ho w.seq (by simp [hw, hp])
    simpa [iff_false_intro hthen] using h5.trans (iff_false_intro hnow)
  · intro w n hw hp
    have hw : o = some w := by simpa using hw
    exact absurd (by simp [hw, hp]) (ho n)

/-- A watch may be created, in phase Starting, for an open Input handle. -/
theorem Lifecycle.watchCreate (h : Lifecycle s) {p : Nat} (k : EdgeKind) (cb : Word)
    (hh : s.handle.lookup p = some .input) (hb : s.busy.has p = false) (hw : s.watch.lookup p = none) :
    Lifecycle (s.setWatch p (some ⟨k, cb, .starting, false, 0⟩)) := by
  refine h.setWatch (fun _ => hh) (by simp [hw]) (by simp) ?_
  rintro c x hx (ht | hbeg)
  · exact absurd ht (h.not_transition hb hx)
  · exact absurd hbeg (h.not_beginning_of_none hw hx)

/-- A watch may be removed outside a callback, when no caller begins it. -/
theorem Lifecycle.watchRemove (h : Lifecycle s) {p : Nat} {w : WatchState} (hw : s.watch.lookup p = some w)
    (hc : ∀ n, w.phase ≠ .inCallback n) (hb : ∀ c x, s.caller c = some x → beginningOf x ≠ some p) :
    Lifecycle (s.setWatch p none) := by
  refine h.setWatch (fun hn => absurd rfl hn) (by simpa [hw] using hc) (by simp) ?_
  rintro c x hx (ht | hbeg)
  · exact callerOk_of_gone (s := s) rfl rfl (by simp) (h.callers c x hx) ht
  · exact absurd hbeg (hb c x hx)

/-- A watch may go from one phase to another, neither Stopped before nor in a callback, when no caller begins it. -/
theorem Lifecycle.setPhase (h : Lifecycle s) {p : Nat} {w : WatchState} {x : Phase} (hw : s.watch.lookup p = some w)
    (hs : w.phase ≠ .stopped) (hc : ∀ n, w.phase ≠ .inCallback n) (hx : ∀ n, x ≠ .inCallback n)
    (hb : ∀ c y, s.caller c = some y → beginningOf y ≠ some p) :
    Lifecycle (s.modifyWatch p fun w => { w with phase := x }) := by
  have hh := h.watch_handle p (by simp [hw])
  refine h.setWatch (fun _ => hh) (by simpa [hw] using hc) (by simpa [hw] using hx) ?_
  rintro c y hy (ht | hbeg)
  · exact callerOk_of_live (s := s) rfl hw hs (h.callers c y hy) ht
  · exact absurd hbeg (hb c y hy)

/-- The stop signal changes nothing that a caller's condition reads. -/
theorem callerOk_signalStop {p : Nat} {x : CallerState} (hok : callerOk s x) : callerOk (signalStop p s) x := by
  have hstop : ∀ q, watchStopped (signalStop p s) q = watchStopped s q := by
    intro q
    by_cases hq : q = p
    · subst hq; cases hw : s.watch.lookup q <;> simp [watchStopped, signalStop, hw]
    · exact watchStopped_congr (by simp [signalStop, hq])
  have hnone : ∀ q, (signalStop p s).watch.lookup q = none ↔ s.watch.lookup q = none := by
    intro q
    by_cases hq : q = p <;> simp [signalStop, hq]
  cases x with
  | idle => trivial
  | busy i k loc =>
    cases i <;> try exact hok
    case openPin m q => cases k <;> simp only [callerOk, hnone] at hok ⊢; exact hok
    case closePin q =>
      refine ⟨hok.1, ?_⟩
      have hc := hok.2
      cases k <;> simp only [closeOk, hstop, hnone] at hc ⊢ <;> exact hc
    case beginWatch kk q cb =>
      obtain ⟨⟨w, hw, hk, hcb, hph⟩, hm⟩ := hok
      refine ⟨?_, hm⟩
      by_cases hq : q.toNat = p
      · subst hq; exact ⟨{ w with stop := true }, by simp [signalStop, hw], hk, hcb, hph⟩
      · exact ⟨w, by simp [signalStop, hq, hw], hk, hcb, hph⟩

theorem Lifecycle.signalStop (h : Lifecycle s) (p : Nat) : Lifecycle (signalStop p s) := by
  obtain ⟨h1, h2, h3, h4, h5, h6⟩ := h.portOk p
  refine h.of_port p rfl rfl (fun q hq => by simp [Machine.signalStop, hq]) (fun _ _ => Iff.rfl)
    ⟨h1, ?_, h3, h4, ?_, ?_⟩ (fun _ _ => .inr) (fun c x hx _ => callerOk_signalStop (h.callers c x hx))
  · simpa [Machine.signalStop] using h2
  · cases hw : s.watch.lookup p <;> simpa [Machine.signalStop, hw] using h5
  · intro v n hv hn
    obtain ⟨w, hw, rfl⟩ : ∃ w, s.watch.lookup p = some w ∧ { w with stop := true } = v := by
      simpa [Machine.signalStop] using hv
    exact h6 w n hw hn

theorem Lifecycle.removeWatch (h : Lifecycle s) (p : Nat) : Lifecycle (removeWatch p s) := by
  unfold Machine.removeWatch
  split
  · rename_i w hw
    split
    · rename_i hs
      exact h.watchRemove hw (by simp [hs]) fun c x hx =>
        h.not_beginning (fun v hv => by rw [hw] at hv; cases hv; simp [hs]) hx
    · exact h
  · exact h

/-! ### Moves of the acting caller -/

theorem Lifecycle.setCaller (h : Lifecycle s) {c : CallerId} {x y : CallerState} (hy : s.caller c = some y)
    (hx : callerOk s x)
    (ht : ∀ p d z, transitionOf x = some p → d ≠ c → s.caller d = some z → transitionOf z ≠ some p)
    (hb : ∀ p d z, beginningOf x = some p → d ≠ c → s.caller d = some z → beginningOf z ≠ some p) :
    Lifecycle (s.setCaller c x) := by
  refine ⟨by simpa using h.legal, by simpa using h.handle_window, by simpa using h.watch_handle,
    by simpa using h.handle_range, by simpa using h.busy_handle, fun p => ?_, by simpa using h.callback_count, ?_,
    AtMostOne.setCaller h.one_transition ht, AtMostOne.setCaller h.one_beginning hb⟩
  · rw [ne_eq, callbacks_setCaller s hy, State.setCaller_watch]
    exact h.callback_watch p
  · intro d z hz
    refine callerOk_congr (s := s) (by simp) (by simp) ?_
    rw [caller_setCaller] at hz
    split at hz
    · cases hz; exact hx
    · exact h.callers d z hz

/-- A response: the acting caller becomes Idle. -/
theorem Lifecycle.respond (h : Lifecycle s) {y : CallerState} (hy : s.caller s.active = some y) (w : Word) (e : Status)
    (v : Word) : Lifecycle (s.respond w e v) := by
  have hemit : Lifecycle (s.emit (.resp s.active w e v)) := h.congr rfl rfl rfl rfl rfl rfl rfl
  have hcaller : (s.emit (.resp s.active w e v)).caller s.active = some y := by
    rw [← hy]; exact caller_congr rfl rfl _
  exact hemit.setCaller hcaller trivial (fun _ _ _ hc => by cases hc) (fun _ _ _ hc => by cases hc)

/-- The port that a caller opens or closes is one of its command, not of the micro-step. -/
theorem transitionOf_busy (i : Instr) (k k' : MicroStep) (loc loc' : Locals) :
    transitionOf (.busy i k loc) = transitionOf (.busy i k' loc') := by cases i <;> rfl

theorem beginningOf_busy (i : Instr) (k k' : MicroStep) (loc loc' : Locals) :
    beginningOf (.busy i k loc) = beginningOf (.busy i k' loc') := by cases i <;> rfl

/-- The acting caller goes on with the command it carries out. -/
theorem Lifecycle.goto_running (h : Lifecycle s) {i : Instr} {k k' : MicroStep} {loc loc' : Locals}
    (hp : s.position i = .running k loc) (hok : callerOk s (.busy i k' loc')) : Lifecycle (s.goto i k' loc') := by
  have hy := position_running.1 hp
  refine h.setCaller hy hok (fun p d z hx hd hz hzp => hd ?_) (fun p d z hx hd hz hzp => hd ?_)
  · exact h.one_transition d s.active z _ p hz hy hzp (by rwa [transitionOf_busy i k k' loc loc'])
  · exact h.one_beginning d s.active z _ p hz hy hzp (by rwa [beginningOf_busy i k k' loc loc'])

/-- The acting caller begins a command that no other carries out on the same port. -/
theorem Lifecycle.goto_start (h : Lifecycle s) {i : Instr} {k : MicroStep} {loc : Locals}
    (hp : s.position i = .start) (hok : callerOk s (.busy i k loc))
    (ht : ∀ p, transitionOf (.busy i k loc) = some p → ∀ d z, s.caller d = some z → transitionOf z ≠ some p)
    (hb : ∀ p, beginningOf (.busy i k loc) = some p → ∀ d z, s.caller d = some z → beginningOf z ≠ some p) :
    Lifecycle (s.goto i k loc) :=
  h.setCaller (position_start.1 hp) hok (fun p d z hx _ => ht p hx d z) (fun p d z hx _ => hb p hx d z)

/-! ### Responses, the mapping and register accesses -/

/-- The response and the updates of the tables at one port do not see each other. -/
theorem respond_setBusy (p : Nat) (b : Bool) (w : Word) (e : Status) (v : Word) :
    (s.setBusy p b).respond w e v = (s.respond w e v).setBusy p b := by
  unfold State.respond; cases h : s.active <;> simp only [State.setBusy, State.emit, h] <;> rfl

theorem respond_setHandle (p : Nat) (m : Option Mode) (w : Word) (e : Status) (v : Word) :
    (s.setHandle p m).respond w e v = (s.respond w e v).setHandle p m := by
  unfold State.respond; cases h : s.active <;> simp only [State.setHandle, State.emit, h] <;> rfl

theorem respond_setWatch (p : Nat) (o : Option WatchState) (w : Word) (e : Status) (v : Word) :
    (s.setWatch p o).respond w e v = (s.respond w e v).setWatch p o := by
  unfold State.respond; cases h : s.active <;> simp only [State.setWatch, State.emit, h] <;> rfl

theorem respond_modifyWatch (p : Nat) (f : WatchState → WatchState) (w : Word) (e : Status) (v : Word) :
    (s.modifyWatch p f).respond w e v = (s.respond w e v).modifyWatch p f := by
  unfold State.respond; cases h : s.active <;> simp only [State.modifyWatch, State.emit, h] <;> rfl

/-- Once the caller that opens or closes a port has its response, none does. -/
theorem Lifecycle.not_transition_respond (h : Lifecycle s) {x : CallerState} {p : Nat}
    (hx : s.caller s.active = some x) (hp : transitionOf x = some p) (w : Word) (e : Status) (v : Word) {c : CallerId}
    {y : CallerState} (hy : (s.respond w e v).caller c = some y) : transitionOf y ≠ some p := by
  rw [caller_respond] at hy
  split at hy
  · cases hy; simp [transitionOf]
  · rename_i hc
    exact fun hyp => hc (h.one_transition c s.active y x p hy hx hyp hp)

/-- Once the caller that begins a port's watch has its response, none does. -/
theorem Lifecycle.not_beginning_respond (h : Lifecycle s) {x : CallerState} {p : Nat}
    (hx : s.caller s.active = some x) (hp : beginningOf x = some p) (w : Word) (e : Status) (v : Word) {c : CallerId}
    {y : CallerState} (hy : (s.respond w e v).caller c = some y) : beginningOf y ≠ some p := by
  rw [caller_respond] at hy
  split at hy
  · cases hy; simp [beginningOf]
  · rename_i hc
    exact fun hyp => hc (h.one_beginning c s.active y x p hy hx hyp hp)

theorem Lifecycle.mapIfUnmapped (h : Lifecycle s) : Lifecycle (mapIfUnmapped s) :=
  (h.setWin (w := (Machine.mapIfUnmapped s).win) fun hw => absurd hw (mapIfUnmapped_win s).1).congr
    (by simp) rfl (by simp) (by simp) (by simp) (by simp) (by simp)

theorem Lifecycle.undoMapping (h : Lifecycle s) : Lifecycle (undoMapping s) := by
  refine (h.setWin (w := (Machine.undoMapping s).win) fun hw p => ?_).congr
    (by simp) rfl (by simp) (by simp) (by simp) (by simp) (by simp)
  obtain hsame | ⟨e, -, he⟩ := undoMapping_win s
  · by_contra hp
    exact h.handle_window p hp (hsame.symm.trans hw)
  · rw [he] at hw; cases hw

theorem RegStep.position {u : State} (hu : RegStep s u) (i : Instr) : u.position i = s.position i :=
  position_congr hu.main hu.callbacks hu.active i

@[simp] theorem mapIfUnmapped_position (i : Instr) : (mapIfUnmapped s).position i = s.position i :=
  position_congr (by simp) (by simp) (by simp) i

@[simp] theorem undoMapping_position (i : Instr) : (undoMapping s).position i = s.position i :=
  position_congr (by simp) (by simp) (by simp) i

@[simp] theorem removeWatch_position (p : Nat) (i : Instr) : (removeWatch p s).position i = s.position i :=
  position_congr (by simp) (by simp) (by simp) i

/-- An open port has a handle and is not in transition (10_state.md R37). -/
theorem isOpen_iff {p : Nat} : isOpen s p = true ↔ s.handle.lookup p ≠ none ∧ s.busy.has p = false := by
  simp [isOpen, Option.isSome_iff_ne_none]

/-! ### Micro-steps of commands -/

/-- O1 of OPEN (42_pin_handle.md R182). -/
theorem Lifecycle.openReserve (h : Lifecycle s) {m : Mode} {p : Port}
    (hp : s.position (.openPin m p) = .start) (hw : s.win ≠ .unmapped) (hr : p.toNat < s.params.nports)
    (hh : s.handle.lookup p.toNat = none) :
    Lifecycle (((s.setHandle p.toNat (some m)).setBusy p.toNat true).goto (.openPin m p) .o2 Locals.none) := by
  have hwa := h.watch_of_no_handle hh
  refine (h.reserve m hw hr hh).goto_start (by rwa [position_congr rfl rfl rfl]) (by simp [callerOk, hwa]) ?_ ?_
  · rintro _ ⟨⟩ d z hz
    exact h.not_transition (h.busy_of_no_handle hh) ((caller_congr rfl rfl d).symm.trans hz)
  · rintro _ ⟨⟩

/-- The response that ends a transition. -/
theorem Lifecycle.transitionDone (h : Lifecycle s) {x : CallerState} {p : Nat} (hx : s.caller s.active = some x)
    (hp : transitionOf x = some p) (w : Word) (e : Status) (v : Word) :
    Lifecycle ((s.setBusy p false).respond w e v) := by
  rw [respond_setBusy]
  exact (h.respond hx w e v).setBusy (by simp) fun c y hy => h.not_transition_respond hx hp w e v hy

/-- The response that ends a transition and takes the handle away. -/
theorem Lifecycle.release (h : Lifecycle s) {x : CallerState} {p : Nat} (hx : s.caller s.active = some x)
    (hp : transitionOf x = some p) (hw : s.watch.lookup p = none) (w : Word) (e : Status) (v : Word) :
    Lifecycle (((s.setHandle p none).setBusy p false).respond w e v) := by
  have hdone := (h.transitionDone hx hp w e v).setHandle_none (p := p) (by simp) (by simpa using hw)
  rwa [← respond_setHandle] at hdone

/-- K1 of CLOSE (42_pin_handle.md R186), on the port whose watch has had its stop signal, where it has one. -/
theorem Lifecycle.closeBegin (h : Lifecycle s) {p : Port} {k : MicroStep} {loc : Locals}
    (hp : s.position (.closePin p) = .start) (ho : isOpen s p.toNat = true) (hok : closeOk s p.toNat loc k) :
    Lifecycle ((s.setBusy p.toNat true).goto (.closePin p) k loc) := by
  obtain ⟨hh, hb⟩ := isOpen_iff.1 ho
  have hfree : ∀ c x, s.caller c = some x → transitionOf x ≠ some p.toNat := fun c x => h.not_transition hb
  refine (h.setBusy (fun _ => hh) hfree).goto_start (by rwa [position_congr rfl rfl rfl])
    ⟨by simp, closeOk_congr (s := s) rfl hok⟩ ?_ ?_
  · rintro _ ⟨⟩ d z hz
    exact hfree d z ((caller_congr rfl rfl d).symm.trans hz)
  · rintro _ ⟨⟩

/-- E1 of ENDWATCH (43_edge_watch.md R223). -/
theorem Lifecycle.endBegin (h : Lifecycle s) {p : Port} {loc : Locals} (hp : s.position (.endWatch p) = .start)
    (hr : p.toNat < s.params.nports) : Lifecycle ((Machine.signalStop p.toNat s).goto (.endWatch p) .stop loc) := by
  refine (h.signalStop p.toNat).goto_start (by rwa [position_congr rfl rfl rfl]) ⟨hr, .inl rfl⟩ ?_ ?_ <;>
    rintro _ ⟨⟩

/-- B1 of BEGINWATCH (43_edge_watch.md R221). -/
theorem Lifecycle.watchBegin (h : Lifecycle s) {k : EdgeKind} {p : Port} {cb : Word}
    (hp : s.position (.beginWatch k p cb) = .start) (ho : isOpen s p.toNat = true)
    (hh : s.handle.lookup p.toNat = some .input) (hw : s.watch.lookup p.toNat = none) :
    Lifecycle ((s.setWatch p.toNat (some ⟨k, cb, .starting, false, 0⟩)).goto (.beginWatch k p cb) .b2 Locals.none) := by
  obtain ⟨-, hb⟩ := isOpen_iff.1 ho
  refine (h.watchCreate k cb hh hb hw).goto_start (by rwa [position_congr rfl rfl rfl]) (by simp [callerOk]) ?_ ?_
  · rintro _ ⟨⟩
  · rintro _ ⟨⟩ d z hz
    exact h.not_beginning_of_none hw ((caller_congr rfl rfl d).symm.trans hz)

/-- What a caller in a command stands on. -/
theorem Lifecycle.running (h : Lifecycle s) {i : Instr} {k : MicroStep} {loc : Locals}
    (hp : s.position i = .running k loc) : callerOk s (.busy i k loc) :=
  h.callers _ _ (position_running.1 hp)

/-- StopWatch goes on to D1, where the watch is stopped or gone (43_edge_watch.md R224). -/
theorem Lifecycle.stopped (h : Lifecycle s) {i : Instr} {p : Port} {loc : Locals}
    (hi : i = .closePin p ∨ i = .endWatch p) (hp : s.position i = .running .stop loc)
    (hw : watchStopped s p.toNat = true) : Lifecycle (s.goto i .d1 loc) := by
  have hok := h.running hp
  obtain rfl | rfl := hi
  · obtain ⟨hb, hc⟩ := hok
    exact h.goto_running hp ⟨hb, hw, fun hn => by rw [hc] at hn; cases hn⟩
  · exact h.goto_running hp ⟨hok.1, .inr (.inl rfl)⟩

/-- D1, D2 and D3 of DisableDetect go on (43_edge_watch.md R225). -/
theorem Lifecycle.disable (h : Lifecycle s) {i : Instr} {p : Port} {k k' : MicroStep} {loc : Locals} (e : Status)
    (hi : i = .closePin p ∨ i = .endWatch p) (hp : s.position i = .running k loc)
    (hk : (k = .d1 ∧ k' = .d2) ∨ (k = .d2 ∧ k' = .d3) ∨
      (k = .d3 ∧ k' = if i = .closePin p ∧ loc.hadWatch = false then .k5 else .remove)) :
    Lifecycle (s.goto i k' { loc with err := e }) := by
  have hok := h.running hp
  obtain rfl | rfl := hi
  · refine h.goto_running hp ⟨hok.1, ?_⟩
    have hc := hok.2
    obtain ⟨rfl, rfl⟩ | ⟨rfl, rfl⟩ | ⟨rfl, rfl⟩ := hk
    · exact hc
    · exact hc
    · cases hh : loc.hadWatch
      · simpa [hh, closeOk] using hc.2 hh
      · simpa [hh, closeOk] using hc.1
  · refine h.goto_running hp ⟨hok.1, ?_⟩
    obtain ⟨-, rfl⟩ | ⟨-, rfl⟩ | ⟨-, rfl⟩ := hk <;> simp

/-- RemoveWatch in CLOSE leaves the port without a watch (43_edge_watch.md R224). -/
theorem Lifecycle.closeRemove (h : Lifecycle s) {p : Port} {loc : Locals}
    (hp : s.position (.closePin p) = .running .remove loc) :
    Lifecycle ((Machine.removeWatch p.toNat s).goto (.closePin p) .k5 loc) := by
  obtain ⟨hb, -, hw⟩ := h.running hp
  refine (h.removeWatch p.toNat).goto_running ((removeWatch_position _ _).trans hp) ⟨by simpa using hb, ?_⟩
  simp [closeOk, removeWatch_lookup, hw]

/-- B2 to B4 of BEGINWATCH go on. -/
theorem Lifecycle.watchArm (h : Lifecycle s) {k : EdgeKind} {p : Port} {cb : Word} {m m' : MicroStep} {loc : Locals}
    (hp : s.position (.beginWatch k p cb) = .running m loc) (hm : m' = .b3 ∨ m' = .b4 ∨ m' = .b5) :
    Lifecycle (s.goto (.beginWatch k p cb) m' loc) :=
  h.goto_running hp ⟨(h.running hp).1, .inr hm⟩

/-- B2 to B4 of BEGINWATCH with the window gone: the watch is removed. -/
theorem Lifecycle.watchUndo (h : Lifecycle s) {k : EdgeKind} {p : Port} {cb : Word} {m : MicroStep} {loc : Locals}
    (hp : s.position (.beginWatch k p cb) = .running m loc) (w : Word) (e : Status) (v : Word) :
    Lifecycle ((s.setWatch p.toNat none).respond w e v) := by
  have hx := position_running.1 hp
  obtain ⟨⟨u, hu, -, -, hph⟩, -⟩ := h.running hp
  rw [respond_setWatch]
  exact (h.respond hx w e v).watchRemove (by simpa using hu) (by simp [hph]) fun c y hy =>
    h.not_beginning_respond hx rfl w e v hy

/-- B5 of BEGINWATCH: the watch goes from Starting to Poll. -/
theorem Lifecycle.watchStart (h : Lifecycle s) {k : EdgeKind} {p : Port} {cb : Word} {m : MicroStep} {loc : Locals}
    (hp : s.position (.beginWatch k p cb) = .running m loc) (w : Word) (e : Status) (v : Word) :
    Lifecycle ((s.modifyWatch p.toNat fun w => { w with phase := .poll }).respond w e v) := by
  have hx := position_running.1 hp
  obtain ⟨⟨u, hu, -, -, hph⟩, -⟩ := h.running hp
  rw [respond_modifyWatch]
  exact (h.respond hx w e v).setPhase (by simpa using hu) (by simp [hph]) (by simp [hph]) (by simp) fun c y hy =>
    h.not_beginning_respond hx rfl w e v hy

end

theorem CommandStep.lifecycle {i : Instr} {s t : State} (ht : CommandStep i s t) (h : Lifecycle s) : Lifecycle t := by
  cases ht with
  | answer hp ha =>
    obtain ⟨u, hu, e, v⟩ := ha
    exact (h.regStep hu).respond (position_start.1 ((hu.position i).trans hp)) _ _ _
  | winclose _ hp _ hh =>
    have hactive := position_start.1 ((position_congr (t := s.setWin .unmapped) rfl rfl rfl i).trans hp)
    exact (h.setWin fun _ => hh).respond hactive _ _ _
  | openRaise _ _ _ _ hp =>
    exact h.undoMapping.respond (position_start.1 ((undoMapping_position i).trans hp)) _ _ _
  | openReserve m p hi hp hw hr hh =>
    subst hi
    exact h.mapIfUnmapped.openReserve (by simpa using hp) (by simp [hw]) (by simpa using hr) (by simpa using hh)
  | openProgram m p loc u hi hp _ hu =>
    subst hi
    exact (h.regStep hu).transitionDone (position_running.1 ((hu.position _).trans hp)) rfl _ _ _
  | openUndo m p loc e hi hp _ =>
    subst hi
    obtain ⟨-, -, hw⟩ := h.running hp
    exact h.release (position_running.1 hp) rfl hw _ _ _
  | closeStop p hi hp _ _ ho _ =>
    subst hi
    exact (h.signalStop p.toNat).closeBegin (by rwa [position_congr rfl rfl rfl]) ho rfl
  | closeBegin p hi hp _ _ ho hh =>
    subst hi
    exact h.closeBegin hp ho (by simp [closeOk, watchStopped, hh])
  | endStop p hi hp _ hr _ _ => subst hi; exact h.endBegin hp hr
  | held => exact h
  | stopped p loc hi hp hw => exact h.stopped hi hp hw
  | disable p k k' loc e u hi hp hk hu => exact (h.regStep hu).disable e hi ((hu.position i).trans hp) hk
  | closeRemove p loc hi hp => subst hi; exact h.closeRemove hp
  | endRemove p loc hi hp =>
    exact (h.removeWatch p.toNat).respond (position_running.1 ((removeWatch_position _ i).trans hp)) _ _ _
  | closeInput p loc e u hi hp hu =>
    subst hi
    have hp' := (hu.position _).trans hp
    exact (h.regStep hu).goto_running hp' ((h.regStep hu).running (k := .k5) hp')
  | closeRelease p loc hi hp =>
    subst hi
    obtain ⟨-, hw⟩ := h.running hp
    exact h.release (position_running.1 hp) rfl hw _ _ _
  | watchCreate k p cb hi hp _ _ ho hm hh => subst hi; exact h.watchBegin hp ho hm hh
  | watchUndo k p cb m loc e hi hp => subst hi; exact h.watchUndo hp _ _ _
  | watchArm k p cb m m' loc u hi hp _ hm' _ hu =>
    subst hi; exact (h.regStep hu).watchArm ((hu.position _).trans hp) hm'
  | watchStart k p cb loc hi hp => subst hi; exact h.watchStart hp _ _ _

/-! ### Watchers and the host -/

/-- The dispatch of a callback creates its caller, Idle (43_edge_watch.md R228). -/
theorem Lifecycle.dispatch {s : State} (h : Lifecycle s) {p : Nat} {w : WatchState} (hw : s.watch.lookup p = some w)
    (hp : w.phase = .poll) : Lifecycle (dispatchCallback p w s) := by
  obtain ⟨h1, h2, h3, h4, -, -⟩ := h.portOk p
  refine h.of_port p rfl rfl (fun q hq => by simp [dispatchCallback, hq]) (fun q hq => by simp [dispatchCallback, hq])
    ⟨h1, fun _ => h2 (by simp [hw]), h3, h4, ?_, ?_⟩ ?_ ?_
  · simp [dispatchCallback]
  · rintro v n hv hn
    obtain rfl : { w with seq := w.seq + 1, phase := .inCallback (w.seq + 1) } = v := by
      simpa [dispatchCallback] using hv
    cases hn
    rfl
  · intro c x hx
    cases c with
    | main => exact .inr hx
    | cb q =>
      by_cases hq : q = p
      · subst hq
        exact .inl (by simpa [State.caller, dispatchCallback, eq_comm] using hx)
      · exact .inr (by simpa [State.caller, dispatchCallback, hq] using hx)
  · rintro c x hx (ht | hb)
    · exact callerOk_of_live (s := s) rfl hw (by simp [hp]) (h.callers c x hx) ht
    · exact absurd hb (h.not_beginning (fun v hv => by rw [hw] at hv; cases hv; simp [hp]) hx)

/-- The return from a callback removes its caller (43_edge_watch.md R232). -/
theorem Lifecycle.callbackReturn {s : State} (h : Lifecycle s) {p n : Nat} {w : WatchState}
    (hw : s.watch.lookup p = some w) (hp : w.phase = .inCallback n) :
    Lifecycle ((s.setCallback p none).setWatch p (some { w with phase := .clearing })) := by
  obtain ⟨h1, h2, h3, h4, -, -⟩ := h.portOk p
  refine h.of_port p rfl rfl (fun q hq => by simp [hq]) (fun q hq => by simp [hq])
    ⟨h1, fun _ => h2 (by simp [hw]), h3, h4, by simp, ?_⟩ ?_ ?_
  · rintro v n hv hn
    obtain rfl : { w with phase := .clearing } = v := by simpa using hv
    cases hn
  · intro c x hx
    cases c with
    | main => exact .inr hx
    | cb q =>
      by_cases hq : q = p
      · subst hq; simp [State.caller] at hx
      · exact .inr (by simpa [State.caller, hq] using hx)
  · rintro c x hx (ht | hb)
    · exact callerOk_of_live (s := s) rfl hw (by simp [hp]) (h.callers c x hx) ht
    · exact absurd hb (h.not_beginning (fun v hv => by rw [hw] at hv; cases hv; simp [hp]) hx)

theorem WatcherStep.lifecycle {p : Nat} {s t : State} (ht : WatcherStep p s t) (h : Lifecycle s) : Lifecycle t := by
  have hbegin : ∀ w, s.watch.lookup p = some w → w.phase ≠ .starting → ∀ c x, s.caller c = some x →
      beginningOf x ≠ some p := fun w hw hp c x hx =>
    h.not_beginning (fun v hv => by rw [hw] at hv; cases hv; exact hp) hx
  cases ht with
  | idle => exact h
  | stop w hw hp => exact h.setPhase hw (by simp [hp]) (by simp [hp]) (by simp) (hbegin w hw (by simp [hp]))
  | fail w hw hp =>
    have hph : w.phase = .poll ∨ w.phase = .clearing := hp.imp And.left id
    have hremoved := h.watchRemove hw (by rcases hph with hph | hph <;> simp [hph])
      (hbegin w hw (by rcases hph with hph | hph <;> simp [hph]))
    exact hremoved.congr rfl rfl rfl rfl rfl rfl rfl
  | sample => exact h.regStep (.nextDraw s)
  | dispatch w hw hp => exact (h.regStep (.nextDraw s)).dispatch hw hp
  | clear w hw hp _ u _ hu =>
    refine (h.regStep hu).setPhase (by rwa [hu.watch]) (by simp [hp]) (by simp [hp]) (by simp) fun c x hx => ?_
    exact hbegin w hw (by simp [hp]) c x ((caller_congr hu.main hu.callbacks c).symm.trans hx)

theorem AgentStep.lifecycle {a : Input} {s t : State} (ht : AgentStep a s t) (h : Lifecycle s) : Lifecycle t := by
  have hactive : ∀ c, Lifecycle (s.setActive c) := fun c => h.congr rfl rfl rfl rfl rfl rfl rfl
  cases ht with
  | none => exact h
  | command c i t _ ht => exact ht.lifecycle (hactive c)
  | illegal c cmd _ hc => exact (hactive c).respond ((setActive_caller s c c).trans hc) _ _ _
  | watcher _ _ _ ht => exact ht.lifecycle h
  | pad => exact h.congr rfl rfl rfl rfl rfl rfl rfl
  | ret p n w _ hw hp _ => exact h.callbackReturn hw hp
  | unmap => exact h.setWin (by simp)

theorem Lifecycle.takeInput {s : State} (h : Lifecycle s) : Lifecycle s.takeInput :=
  h.congr (by simp) (by simp) (by simp) (by simp) (by simp) (by simp) (by simp)

/-- Settles O59: the choice taken leaves the invariants, and the micro-step of the agent it names keeps them. -/
theorem everyStepKeepsLifecycle : Obligations.EveryStepKeepsLifecycle := by
  intro s t h hstep
  exact (step_cases hstep).2.lifecycle h.takeInput

end Sys2Proof.Machine
end

section
/-! PROOF. O52 to O55: what every step does to the log, to a failed window, to the EDS bits and to a watch that its own
watcher runs. -/

namespace Sys2Proof.Machine

/-! ### The log (10_state.md R41) -/

theorem response_logged {s u : State} (hu : u.log = s.log) (w : Word) (e : Status) (v : Word) :
    ∃ c w' e' v', (u.respond w e v).log = s.log ++ [.resp c w' e' v'] :=
  ⟨u.active, w, e, v, by rw [State.respond_log, hu]⟩

/-- A micro-step of a command logs its response, or nothing. -/
theorem CommandStep.log {i : Instr} {s t : State} (ht : CommandStep i s t) :
    t.log = s.log ∨ ∃ c w e v, t.log = s.log ++ [.resp c w e v] := by
  cases ht with
  | held => exact .inl rfl
  | openReserve | closeStop | closeBegin | endStop | stopped | closeRemove | watchCreate =>
    exact .inl (by simp [signalStop])
  | disable _ _ _ _ _ _ _ _ _ hu | closeInput _ _ _ _ _ _ hu | watchArm _ _ _ _ _ _ _ _ _ _ _ _ hu =>
    exact .inl (by simp [hu.log])
  | answer _ ha => obtain ⟨u, hu, _, _⟩ := ha; exact .inr (response_logged hu.log ..)
  | openProgram _ _ _ _ _ _ _ hu => exact .inr (response_logged (by simp [hu.log]) ..)
  | winclose | openRaise | openUndo | endRemove | closeRelease | watchUndo | watchStart =>
    exact .inr (response_logged (by simp) ..)

/-- What one step adds to the log: nothing, a response, a watch failure, or the callback that a poll step dispatches. -/
inductive Logs (a : Input) (s t : State) : Prop where
  | nothing (h : t.log = s.log)
  | response (c : CallerId) (w : Word) (e : Status) (v : Word) (h : t.log = s.log ++ [.resp c w e v])
  | failure (p : Nat) (h : t.log = s.log ++ [.watchFailed p])
  | callback (p : Nat) (w : WatchState) (h : t.log = s.log ++ [.callback p w.cb (w.seq + 1)]) (ha : a = .watcher p)
      (hw : s.watch.lookup p = some w) (hp : w.phase = .poll) (hs : w.stop = false) (hm : s.win = .mapped)
      (hb : (memRead s (wordOff s.params .eds p)).getLsbD (bitIdx .eds p) = true)
      (ht : t = dispatchCallback p w s.nextDraw)

theorem AgentStep.logs {a : Input} {s t : State} (ht : AgentStep a s t) : Logs a s t := by
  cases ht with
  | none | pad | ret | unmap => exact .nothing rfl
  | command c i t _ ht =>
    obtain h | ⟨d, w, e, v, h⟩ := ht.log
    · exact .nothing h
    · exact .response d w e v h
  | illegal c cmd => exact .response c _ _ _ (State.respond_log ..)
  | watcher p t ha ht =>
    cases ht with
    | idle | stop | sample => exact .nothing rfl
    | clear _ _ _ _ u _ hu => exact .nothing (by simp [hu.log])
    | fail => exact .failure p rfl
    | dispatch w hw hp hs hm hb => exact .callback p w rfl ha hw hp hs hm hb rfl

/-- Settles O52: a step logs nothing or one event. -/
theorem logOnlyGrows : Obligations.LogOnlyGrows := by
  intro s t hstep
  have hlog := (step_cases hstep).2.logs
  cases hlog with
  | nothing h => exact ⟨[], by simpa using h, by simp⟩
  | response _ _ _ _ h | failure _ h | callback _ _ h => exact ⟨_, by simpa using h, by simp⟩

/-! ### The window (10_state.md R36) -/

theorem CommandStep.win_failed {i : Instr} {s t : State} {e : WindowError} (ht : CommandStep i s t)
    (hf : s.win = .failed e) : t.win = .failed e := by
  have hmapped : s.win ≠ .mapped := by simp [hf]
  have hunmapped : s.win ≠ .unmapped := by simp [hf]
  cases ht with
  | winclose _ _ hw | openProgram _ _ _ _ _ _ hw | watchArm _ _ _ _ _ _ _ _ _ _ _ hw => exact absurd hw hmapped
  | openReserve _ _ _ _ hw => rw [(mapIfUnmapped_win s).2 hunmapped] at hw; exact absurd hw hmapped
  | openRaise => simpa [raise, undoMapping_of_not_unmapped s hunmapped] using hf
  | answer _ ha => obtain ⟨u, hu, _, _⟩ := ha; simpa [hu.win] using hf
  | disable _ _ _ _ _ _ _ _ _ hu | closeInput _ _ _ _ _ _ hu => simpa [hu.win] using hf
  | openUndo | closeStop | closeBegin | endStop | held | stopped | closeRemove | endRemove | closeRelease | watchCreate
  | watchUndo | watchStart => simpa [raise, finish, signalStop] using hf

theorem AgentStep.win_failed {a : Input} {s t : State} {e : WindowError} (ht : AgentStep a s t)
    (hf : s.win = .failed e) : t.win = .failed e := by
  cases ht with
  | none | pad | ret => exact hf
  | command c _ _ _ ht => exact ht.win_failed (s := s.setActive c) hf
  | illegal => simpa [illegalCommand] using hf
  | watcher _ _ _ ht =>
    cases ht with
    | idle | stop | sample | fail | dispatch => exact hf
    | clear _ _ _ _ _ _ hu => simpa [hu.win] using hf
  | unmap _ hw => rw [hf] at hw; cases hw

/-- Settles O53: the window moves from Unmapped and Mapped alone. -/
theorem failedWindowStays : Obligations.FailedWindowStays := by
  intro s t e hf hstep
  exact (step_cases hstep).2.win_failed (by simpa using hf)

/-! ### The EDS bits (10_state.md R29) -/

/-- An EDS bit that is set after the step from `s` to `t` was set before it, or the port had an enabled edge. -/
def EdsFromEdges (s t : State) : Prop :=
  ∀ p < s.params.nports, edsBit t p = true → edsBit s p = true ∨ enabledEdge s t p = true

/-- `EdsFromEdges` reads the registers, the outside levels and the parameters alone. -/
theorem EdsFromEdges.congr {s t s' t' : State} (h : EdsFromEdges s t) (hs1 : s'.regs = s.regs) (hs2 : s'.ext = s.ext)
    (hs3 : s'.params = s.params) (ht1 : t'.regs = t.regs) (ht2 : t'.ext = t.ext) (ht3 : t'.params = t.params) :
    EdsFromEdges s' t' := by
  unfold EdsFromEdges enabledEdge pad field latBit edsBit renBit fenBit at h ⊢
  rw [hs1, hs2, hs3, ht1, ht2, ht3]
  exact h

theorem EdsFromEdges.of_regs {s t : State} (h : t.regs = s.regs) : EdsFromEdges s t := by
  intro p _ hp
  unfold edsBit at hp ⊢
  exact .inl (h ▸ hp)

/-- Everything but its register access leaves a micro-step's registers alone. -/
theorem EdsFromEdges.of_regStep {s u t : State} (hu : RegStep s u) (h1 : t.regs = u.regs) (h2 : t.ext = u.ext)
    (h3 : t.params = u.params) : EdsFromEdges s t :=
  EdsFromEdges.congr hu.edges rfl rfl rfl h1 h2 h3

/-- A pad step sets the EDS bits of the edge latch (43_edge_watch.md R210, R211). -/
theorem edsFromEdges_pad (s : State) (e : PortSet) : EdsFromEdges s (edgeLatch s (s.setExt e)) := by
  intro p hp h
  rw [edsBit_edgeLatch s (s.setExt e) p hp, Bool.or_eq_true] at h
  exact h

theorem CommandStep.edsFromEdges {i : Instr} {s t : State} (ht : CommandStep i s t) : EdsFromEdges s t := by
  cases ht with
  | answer _ ha => obtain ⟨u, hu, _, _⟩ := ha; exact .of_regStep hu (by simp) (by simp) (by simp)
  | openProgram _ _ _ _ _ _ _ hu | disable _ _ _ _ _ _ _ _ _ hu | closeInput _ _ _ _ _ _ hu
  | watchArm _ _ _ _ _ _ _ _ _ _ _ _ hu => exact .of_regStep hu (by simp [finish]) (by simp [finish]) (by simp)
  | winclose | openRaise | openReserve | openUndo | closeStop | closeBegin | endStop | held | stopped | closeRemove
  | endRemove | closeRelease | watchCreate | watchUndo | watchStart =>
    exact .of_regs (by simp [finish, raise, signalStop])

theorem AgentStep.edsFromEdges {a : Input} {s t : State} (ht : AgentStep a s t) : EdsFromEdges s t := by
  cases ht with
  | none | ret | unmap => exact .of_regs rfl
  | illegal => exact .of_regs (by simp [illegalCommand])
  | command _ _ _ _ ht => exact ht.edsFromEdges.congr rfl rfl rfl rfl rfl rfl
  | watcher _ _ _ ht =>
    cases ht with
    | idle | stop | sample | fail | dispatch => exact .of_regs rfl
    | clear _ _ _ _ _ _ hu => exact .of_regStep hu rfl rfl rfl
  | pad => exact edsFromEdges_pad s _

/-- Settles O54: only the edge latch sets an EDS bit. -/
theorem edsSetOnlyByEdges : Obligations.EdsSetOnlyByEdges := by
  intro s t p hp hstep h0 h1
  have hedges : EdsFromEdges s t :=
    (step_cases hstep).2.edsFromEdges.congr (by simp) (by simp) (by simp) rfl rfl rfl
  obtain h | h := hedges p hp h1
  · rw [h0] at h; cases h
  · simpa [enabledEdge, and_assoc] using h

/-! ### The callbacks of a port (10_state.md R39, 43_edge_watch.md R228 to R232) -/

/-- The watch of port `p` goes on in its phase, with its count and its callback. -/
def WatchKept (p : Nat) (w : WatchState) (t : State) : Prop :=
  ∃ w', t.watch.lookup p = some w' ∧ w'.phase = w.phase ∧ w'.seq = w.seq ∧ w'.cb = w.cb

theorem watchKept_of_lookup {p : Nat} {w : WatchState} {t : State} (h : t.watch.lookup p = some w) : WatchKept p w t :=
  ⟨w, h, rfl, rfl, rfl⟩

theorem watchKept_signalStop {s : State} {p : Nat} {w : WatchState} (hw : s.watch.lookup p = some w) (q : Nat) :
    WatchKept p w (signalStop q s) := by
  by_cases hq : p = q
  · subst hq; exact ⟨{ w with stop := true }, by simp [signalStop, hw], rfl, rfl, rfl⟩
  · exact watchKept_of_lookup (by simp [signalStop, hq, hw])

theorem watchKept_removeWatch {s : State} {p : Nat} {w : WatchState} (hw : s.watch.lookup p = some w)
    (hs : w.phase ≠ .stopped) (q : Nat) : WatchKept p w (removeWatch q s) := by
  refine watchKept_of_lookup ?_
  rw [removeWatch_lookup, if_neg, hw]
  rintro ⟨rfl, hstop⟩
  simp [watchStopped, hw, hs] at hstop

/-- No command takes a watch from a phase that its watcher and the host alone end. -/
theorem CommandStep.watchKept {i : Instr} {s t : State} (ht : CommandStep i s t) (h : Lifecycle s) {p : Nat}
    {w : WatchState} (hw : s.watch.lookup p = some w) (h1 : w.phase ≠ .starting) (h2 : w.phase ≠ .stopped) :
    WatchKept p w t := by
  have hother : ∀ {k : EdgeKind} {q : Port} {cb : Word} {m : MicroStep} {loc : Locals},
      s.position (.beginWatch k q cb) = .running m loc → p ≠ q.toNat := by
    rintro k q cb m loc hp rfl
    obtain ⟨⟨v, hv, -, -, hph⟩, -⟩ := h.running hp
    rw [hw] at hv
    cases hv
    exact h1 hph
  cases ht with
  | answer _ ha => obtain ⟨u, hu, _, _⟩ := ha; exact watchKept_of_lookup (by simpa [hu.watch] using hw)
  | openProgram _ _ _ _ _ _ _ hu | disable _ _ _ _ _ _ _ _ _ hu | closeInput _ _ _ _ _ _ hu
  | watchArm _ _ _ _ _ _ _ _ _ _ _ _ hu => exact watchKept_of_lookup (by simpa [finish, hu.watch] using hw)
  | winclose | openRaise | openReserve | openUndo | closeBegin | held | stopped | closeRelease =>
    exact watchKept_of_lookup (by simpa [finish, raise] using hw)
  | closeStop q => simpa [WatchKept] using watchKept_signalStop (s := s.setBusy q.toNat true) hw q.toNat
  | endStop q => simpa [WatchKept] using watchKept_signalStop hw q.toNat
  | closeRemove q | endRemove q => simpa [WatchKept] using watchKept_removeWatch hw h2 q.toNat
  | watchCreate k q cb _ _ _ _ _ _ hh =>
    have hpq : p ≠ q.toNat := by rintro rfl; rw [hh] at hw; cases hw
    exact watchKept_of_lookup (by simpa [hpq] using hw)
  | watchUndo k q cb m loc e hi hp =>
    subst hi; exact watchKept_of_lookup (by simpa [raise, hother hp] using hw)
  | watchStart k q cb loc hi hp =>
    subst hi; exact watchKept_of_lookup (by simpa [finish, hother hp] using hw)

theorem WatcherStep.watch_other {p q : Nat} {s t : State} (ht : WatcherStep q s t) (hq : p ≠ q) :
    t.watch.lookup p = s.watch.lookup p := by
  cases ht with
  | idle | sample => rfl
  | stop | fail | dispatch => simp [watcherStop, failWatch, dispatchCallback, hq]
  | clear _ _ _ _ _ _ hu => simp [hu.watch, hq]

/-- What a step can do to a watch that runs: nothing, the return from its callback, or a step of its watcher. -/
theorem AgentStep.watchKept {a : Input} {s t : State} (ht : AgentStep a s t) (h : Lifecycle s) {p : Nat}
    {w : WatchState} (hw : s.watch.lookup p = some w) (h1 : w.phase ≠ .starting) (h2 : w.phase ≠ .stopped) :
    WatchKept p w t ∨ (a = .watcher p ∧ WatcherStep p s t) ∨
      (a = .ret p ∧ (∃ n, w.phase = .inCallback n) ∧ t.watch.lookup p = some { w with phase := .clearing }) := by
  cases ht with
  | none | pad | unmap => exact .inl (watchKept_of_lookup hw)
  | command c i t _ ht =>
    have hactive : Lifecycle (s.setActive c) := h.congr rfl rfl rfl rfl rfl rfl rfl
    exact .inl (ht.watchKept hactive hw h1 h2)
  | illegal => exact .inl (watchKept_of_lookup (by simpa [illegalCommand] using hw))
  | watcher q t ha ht =>
    by_cases hq : p = q
    · subst hq; exact .inr (.inl ⟨ha, ht⟩)
    · exact .inl (watchKept_of_lookup ((ht.watch_other hq).trans hw))
  | ret q n v ha hv hp =>
    by_cases hq : p = q
    · subst hq
      rw [hw] at hv
      cases hv
      exact .inr (.inr ⟨ha, ⟨n, hp⟩, by simp⟩)
    · exact .inl (watchKept_of_lookup (by simpa [hq] using hw))

/-- The callback that a step logs is the one its poll step dispatches. -/
theorem callback_dispatched {a : Input} {s t : State} (ht : AgentStep a s t) (hl : s.params.legal) {p n : Nat}
    {cb : Word} (hp : p < s.params.nports) (hlog : t.log = s.log ++ [.callback p cb n]) :
    ∃ w, s.watch.lookup p = some w ∧ w.phase = .poll ∧ w.stop = false ∧ w.cb = cb ∧ n = w.seq + 1 ∧
      s.win = .mapped ∧ edsBit s p = true ∧ t.watch.lookup p = some { w with seq := n, phase := .inCallback n } := by
  cases ht.logs with
  | nothing h | response _ _ _ _ h | failure _ h => rw [h] at hlog; simp at hlog
  | callback q w h _ hw hph hs hm hb ht =>
    rw [h] at hlog
    obtain ⟨rfl, rfl, rfl⟩ : q = p ∧ w.cb = cb ∧ w.seq + 1 = n := by simpa using hlog
    refine ⟨w, hw, hph, hs, rfl, rfl, hm, ?_, by simp [ht, dispatchCallback]⟩
    exact (memRead_bit hl hp (b := .eds) (by simp)).symm.trans hb

/-- A watcher takes no step while its watch is in a callback (43_edge_watch.md R230). -/
theorem WatcherStep.watchKept_inCallback {p n : Nat} {s t : State} {w : WatchState} (ht : WatcherStep p s t)
    (hw : s.watch.lookup p = some w) (hp : w.phase = .inCallback n) : WatchKept p w t := by
  cases ht with
  | idle => exact watchKept_of_lookup hw
  | stop v hv hph | sample v hv hph | dispatch v hv hph | clear v hv hph =>
    rw [hw] at hv; cases hv; rw [hp] at hph; cases hph
  | fail v hv hph => rw [hw] at hv; cases hv; simp [hp] at hph

/-- From Clearing a watcher clears the EDS bit and goes to Poll, or fails with the window (43_edge_watch.md R229,
R231). -/
theorem WatcherStep.from_clearing {p : Nat} {s t : State} {w : WatchState} (ht : WatcherStep p s t)
    (hl : s.params.legal) (hr : p < s.params.nports) (hw : s.watch.lookup p = some w) (hp : w.phase = .clearing) :
    (s.win = .mapped ∧ edsBit t p = false ∧ t.watch.lookup p = some { w with phase := .poll }) ∨
      (s.win ≠ .mapped ∧ t.watch.lookup p = none) := by
  cases ht with
  | idle h => exact absurd hp (h w hw).2
  | stop v hv hph | sample v hv hph | dispatch v hv hph => rw [hw] at hv; cases hv; rw [hp] at hph; cases hph
  | fail _ _ _ hm => exact .inr ⟨hm, by simp [failWatch]⟩
  | clear v hv _ hm u he hu =>
    rw [pulsePortBit_eq hl hr rfl] at he
    obtain rfl : bitPulsed .eds p s = u := Option.some.inj he
    exact .inl ⟨hm, bitPulsed_eds_bit hr .eds, by simp [hu.watch, hw]⟩

/-- Settles O55: a callback is logged by the dispatch alone, and while it is outstanding, and until its event is
cleared, no other agent moves the watch. -/
theorem callbackOnlyFromPoll : Obligations.CallbackOnlyFromPoll := by
  intro s t p hp hstep
  obtain ⟨hl, ht⟩ := step_cases hstep
  have hl' : s.takeInput.params.legal := by simpa using hl
  have hp' : p < s.takeInput.params.nports := by simpa using hp
  refine ⟨fun n cb hlog => ?_, fun h w n hw hph => ?_, fun h w hw hph => ?_⟩
  · simpa [edsBit] using callback_dispatched ht hl' hp' (by simpa using hlog)
  · have hw' : s.takeInput.watch.lookup p = some w := by simpa using hw
    obtain hk | ⟨-, hstep⟩ | ⟨ha, -, hret⟩ := ht.watchKept h.takeInput hw' (by simp [hph]) (by simp [hph])
    · exact .inl (by simpa [WatchKept, hph] using hk)
    · exact .inl (by simpa [WatchKept, hph] using hstep.watchKept_inCallback hw' hph)
    · exact .inr ⟨ha, hret⟩
  · have hw' : s.takeInput.watch.lookup p = some w := by simpa using hw
    obtain hk | ⟨ha, hstep⟩ | ⟨-, ⟨n, hn⟩, -⟩ := ht.watchKept h.takeInput hw' (by simp [hph]) (by simp [hph])
    · exact .inl (by simpa [WatchKept, hph] using hk)
    · obtain ⟨hm, hcleared⟩ | ⟨hm, hgone⟩ := hstep.from_clearing hl' hp' hw' hph
      · exact .inr (.inl ⟨ha, by simpa using hm, hcleared⟩)
      · exact .inr (.inr ⟨ha, by simpa using hm, hgone⟩)
    · rw [hph] at hn; cases hn

end Sys2Proof.Machine
end

section
/-! PROOF. O7 to O11: the step of an issued, a resumed and a placed command (log 9, log 10), and the reset state. -/

namespace Sys2Proof.Machine

/-! ### Which command a step runs -/

/-- An Idle caller that issues a legal command takes its first micro-step (10_state.md R40). -/
theorem issueCommand_of_idle {s : State} {c : CallerId} {cmd : Command} {i : Instr} (hc : s.caller c = some .idle)
    (hd : decode cmd = .ok i) : issueCommand c cmd s = exec i (s.setActive c) := by
  simp only [issueCommand, hc, if_true, hd]

theorem resumeCaller_of_busy {s : State} {c : CallerId} {i : Instr} {k : MicroStep} {loc : Locals}
    (hc : s.caller c = some (.busy i k loc)) : resumeCaller c s = exec i (s.setActive c) := by
  simp only [resumeCaller, hc]

/-- Settles O7: the choice is issued to a caller that is Idle once the choice is taken. -/
theorem stepRunsDecodedInstruction : Obligations.StepRunsDecodedInstruction := by
  intro s c cmd i hl hn hc hd
  rw [step_of_legal hl, hn]
  exact issueCommand_of_idle (by simpa using hc) hd

/-- Settles O8: the caller is busy with the command once the choice is taken. -/
theorem stepResumesCommand : Obligations.StepResumesCommand := by
  intro s c i k loc hl hn hc
  rw [step_of_legal hl, hn]
  exact resumeCaller_of_busy (k := k) (loc := loc) (by simpa using hc)

/-- The decoder of table words reads what the decoder of commands reads. -/
theorem decode_of_decodeTableWord {nbits w : Nat} {i : Instr} (h : decodeTableWord nbits w = some i) :
    decode (tableCommand nbits w) = .ok i := by
  unfold decodeTableWord decode? at h
  split at h
  · rename_i j hj; cases h; exact hj
  · cases h

/-- Settles O9: the placed command is O7's choice, of Main, and taking it leaves the list as it was. -/
theorem placedWordRunsNext : Obligations.PlacedWordRunsNext := by
  intro s nbits w i hl hd
  exact stepRunsDecodedInstruction (s.withFetchWord nbits w) .main (tableCommand nbits w) i hl rfl rfl
    (decode_of_decodeTableWord hd)

/-! ### Reset (10_state.md R43) -/

/-- Settles O10: each value is read off `State.resetWith`. -/
theorem resetValues : Obligations.ResetValues := by
  intro P init initExt
  exact ⟨rfl, fun _ => rfl, fun _ => rfl, fun _ => ⟨rfl, rfl⟩, rfl, fun _ => rfl, rfl, rfl, rfl⟩

/-- With legal parameters every reset state meets the lifecycle invariants: its tables are empty and Main, its one
caller, is Idle. -/
theorem lifecycle_resetWith {P : Params} (hl : P.legal) (init : RegisterState) (initExt : PortSet) :
    Lifecycle (State.resetWith P init initExt) := by
  have hidle : ∀ c x, (State.resetWith P init initExt).caller c = some x → x = .idle := by
    intro c x hx
    cases c with
    | main => cases hx; rfl
    | cb p => cases hx
  constructor
  case legal => exact hl
  case callers => intro c x hx; rw [hidle c x hx]; trivial
  case one_transition => intro c d x y p hx _ hp; rw [hidle c x hx] at hp; cases hp
  case one_beginning => intro c d x y p hx _ hp; rw [hidle c x hx] at hp; cases hp
  all_goals simp [State.resetWith, Table.has]

/-- Settles O11: the reset's data is empty, and its parameters are the RPi4's, which are legal. -/
theorem resetMeetsInvariants : Obligations.ResetMeetsInvariants :=
  ⟨by unfold Canonical; decide, lifecycle_resetWith (by decide) _ _⟩

end Sys2Proof.Machine
end

section
/-! PROOF. O14 and O15: the raw accesses that are not made, the write to an Unbanked offset and the access at a bad
offset (20_memory.md R62, R64, R65). -/

namespace Sys2Proof.Machine

/-! ### The access that is refused -/

/-- No bank word stands at the offset, so the write has no meaning (20_memory.md R62). -/
theorem memWrite_none {s : State} {off : Nat} (hd : decodeOffset s.params off = none) (v : Word) :
    memWrite s off v = none := by
  simp only [memWrite, hd]

/-- Settles O14: the window and the offset pass the checks, and the write they admit has no bank word. -/
theorem unbankedWriteRefused : Obligations.UnbankedWriteRefused := by
  intro off data s hi hw ha hr hd
  obtain ⟨-, hp⟩ := hi
  change execWr32 off data s = _
  unfold execWr32
  rw [oneStep_start hp, accessError_none hw ha hr, checked_none, memWrite_none hd, afterWrite_none]

/-! ### The access that raises -/

/-- The offset check fails at a misaligned offset (20_memory.md R64) and at one whose word is not all in the window
(R65). -/
theorem offsetOk_eq_false {P : Params} {off : Nat} (h : off % 4 ≠ 0 ∨ P.windowSize < off + 4) :
    offsetOk P off = false := by
  obtain h | h := h
  · simp [offsetOk, h]
  · simp [offsetOk, Nat.not_le.2 h]

theorem accessError_outOfRange {s : State} {off : BitVec 12} (hw : s.win = .mapped)
    (h : off.toNat % 4 ≠ 0 ∨ s.params.windowSize < off.toNat + 4) : accessError s off = some .outOfRange := by
  simp only [accessError, hw, windowError_mapped, firstError_none, offsetOk_eq_false h, check_false, firstError_some]

section
variable {off : BitVec 12} {s : State} {e : Status}

theorem exec_rd32_raise (hp : s.position (.rd32 off) = .start) (he : accessError s off = some e) :
    exec (.rd32 off) s = .next (raise (.rd32 off) e s) := by
  change execRd32 off s = _
  unfold execRd32
  rw [oneStep_start hp, he, checked_some]

theorem exec_wr32_raise {data : Word} (hp : s.position (.wr32 off data) = .start) (he : accessError s off = some e) :
    exec (.wr32 off data) s = .next (raise (.wr32 off data) e s) := by
  change execWr32 off data s = _
  unfold execWr32
  rw [oneStep_start hp, he, checked_some]
end

/-- Settles O15: both commands make the same check of the offset, and raise its error before any access. -/
theorem badOffsetsRaiseOutOfRange : Obligations.BadOffsetsRaiseOutOfRange := by
  intro off data s hw hoff
  have he : accessError s off = some .outOfRange := accessError_outOfRange hw hoff
  constructor
  · rintro ⟨-, hp⟩
    exact ⟨_, exec_rd32_raise hp he, raise_spec (.rd32 off) .outOfRange s⟩
  · rintro ⟨-, hp⟩
    exact ⟨_, exec_wr32_raise hp he, raise_spec (.wr32 off data) .outOfRange s⟩

end Sys2Proof.Machine
end

section
/-! PROOF. O1 to O6: the decoder and the encoder undo each other (30_encoding.md R93 to R105), the opcode map names no
word twice, and a word it rejects is answered at once (R103). -/

namespace Sys2Proof

/-! ### The rows of the opcode map (30_encoding.md R96) -/

theorem opField_and (v w : Word) : opField (v &&& w) = opField v &&& opField w :=
  BitVec.extractLsb'_and

theorem opField_mask : ∀ r ∈ opcodeMap, opField r.mask = BitVec.allOnes 6 := by decide

theorem row_eq_of_opField : ∀ r ∈ opcodeMap, ∀ r' ∈ opcodeMap, opField r.value = opField r'.value → r = r' := by
  decide

/-- Every mask tests the whole opcode, so a word that matches a row carries its opcode. -/
theorem opField_of_match {r : OpcodeRow} (hr : r ∈ opcodeMap) {w : Word} (h : w &&& r.mask = r.value) :
    opField r.value = opField w := by
  rw [← h, opField_and, opField_mask r hr, BitVec.and_allOnes]

/-- Settles O4: a word that matches two rows carries the opcode of both, and no two rows share one. -/
theorem opcodeRowsDisjoint : Obligations.OpcodeRowsDisjoint := by
  intro r hr r' hr' w h h'
  exact row_eq_of_opField r hr r' hr' ((opField_of_match hr h).trans (opField_of_match hr' h').symm)

/-! ### The decoder's two outcomes -/

theorem decode_of_row {c : Command} {r : OpcodeRow} (hr : rowOf c.word = some r) (hm : c.word &&& r.mask = r.value) :
    decode c = decodeOperands r.op c := by
  simp only [decode, hr, if_pos hm]

/-- What the decoder accepts has a row, passes its mask, and has legal operands (30_encoding.md R105). -/
theorem decode_ok {c : Command} {i : Instr} (h : decode c = .ok i) :
    ∃ r ∈ opcodeMap, c.word &&& r.mask = r.value ∧ decodeOperands r.op c = .ok i := by
  unfold decode at h
  split at h
  · cases h
  · rename_i r hr
    split at h
    · rename_i hm; exact ⟨r, List.mem_of_find?_eq_some hr, hm, h⟩
    · cases h

/-- A codec command's bank is the one its code names, and the command accepts it. -/
theorem decodeBank_ok {accepts : Bank → Bool} {a : BitVec 3} {mk : Bank → Instr} {i : Instr}
    (h : decodeBank accepts a mk = .ok i) : ∃ b, bankOfCode a = some b ∧ accepts b = true ∧ mk b = i := by
  unfold decodeBank at h
  split at h
  · cases h
  · rename_i b hb
    split at h
    · rename_i hacc; exact ⟨b, hb, hacc, Except.ok.inj h⟩
    · cases h

/-! ### Operand codes (30_encoding.md R97 to R99) -/

@[simp] theorem bankOfCode_code (b : Bank) : bankOfCode b.code = some b := by cases b <;> rfl
@[simp] theorem modeOfCode_argCode (m : Mode) : modeOfCode m.argCode = some m := by cases m <;> rfl
@[simp] theorem kindOfCode_argCode (k : EdgeKind) : kindOfCode k.argCode = some k := by cases k <;> rfl

theorem code_of_bankOfCode : ∀ a, ∀ b ∈ bankOfCode a, b.code = a := by decide
theorem argCode_of_modeOfCode : ∀ a, ∀ m ∈ modeOfCode a, m.argCode = a := by decide
theorem argCode_of_kindOfCode : ∀ a, ∀ k ∈ kindOfCode a, k.argCode = a := by decide

/-! ### Decoding what was encoded -/

/-- Every command has its row of the opcode map, and its word passes the row's mask. -/
theorem rowMatch (i : Instr) : Laws.RowMatch.Statement i :=
  match i with
  | .rd32 off => Laws.RowMatch.rd32 off
  | .wr32 off data => Laws.RowMatch.wr32 off data
  | .winclose => Laws.RowMatch.winclose
  | .locate b p => Laws.RowMatch.locate b p
  | .setbit b p => Laws.RowMatch.setbit b p
  | .clrbit b p => Laws.RowMatch.clrbit b p
  | .rdbit b p => Laws.RowMatch.rdbit b p
  | .pulse b p => Laws.RowMatch.pulse b p
  | .setfn fn p => Laws.RowMatch.setfn fn p
  | .getfn p => Laws.RowMatch.getfn p
  | .openPin m p => Laws.RowMatch.openPin m p
  | .setPin p => Laws.RowMatch.setPin p
  | .clrPin p => Laws.RowMatch.clrPin p
  | .readPin p => Laws.RowMatch.readPin p
  | .closePin p => Laws.RowMatch.closePin p
  | .beginWatch k p cb => Laws.RowMatch.beginWatch k p cb
  | .endWatch p => Laws.RowMatch.endWatch p

theorem decodeBank_code {accepts : Bank → Bool} {b : Bank} (h : accepts b = true) (mk : Bank → Instr) :
    decodeBank accepts b.code mk = .ok (mk b) := by
  simp [decodeBank, h]

/-- Under its own mnemonic, a command's fields and codes are read back as its operands (30_encoding.md R95). -/
theorem decodeOperands_encode {i : Instr} (h : i.wellFormed = true) :
    decodeOperands i.opcode (encode i) = .ok i := by
  cases i with
  | locate b p | setbit b p | clrbit b p | rdbit b p | pulse b p =>
    simp only [decodeOperands, Instr.opcode, encode, encodeWord, argField_commandWord, portField_commandWord]
    exact decodeBank_code h _
  | _ => simp [decodeOperands, Instr.opcode, encode, encodeWord, encodeData]

/-- Settles O2: the command's row is found, its mask passed, and its operands read back. -/
theorem decodeOfEncode : Obligations.DecodeOfEncode := by
  intro i h
  obtain ⟨r, hr, hop, hm⟩ := rowMatch i
  rw [decode_of_row (c := encode i) hr hm, hop]
  exact decodeOperands_encode h

/-! ### Encoding what was decoded -/

theorem rsvMask_getLsbD (j : Nat) (hj : j < 32) : rsvMask.getLsbD j = decide (20 ≤ j ∧ j < 23) := by
  have h : ∀ j : Fin 32, rsvMask.getLsbD j.1 = decide (20 ≤ j.1 ∧ j.1 < 23) := by decide
  exact h ⟨j, hj⟩

/-- A word whose reserved bits are 0 is put together from its fields (30_encoding.md R94). -/
theorem commandWord_fields {w : Word} (h : w &&& rsvMask = 0) :
    commandWord (opField w) (argField w) (offField w) (portField w) = w := by
  refine BitVec.eq_of_getLsbD_eq fun j hj => ?_
  rw [commandWord_getLsbD]
  have hrsv : (w.getLsbD j && decide (20 ≤ j ∧ j < 23)) = false := by
    rw [← rsvMask_getLsbD j hj, ← BitVec.getLsbD_and, h]; simp
  simp only [opField, argField, offField, portField, BitVec.getLsbD_extractLsb']
  split
  · simp [*]
  split
  · simp [*, show j - 8 < 12 by omega, show 8 + (j - 8) = j by omega]
  split
  · simpa [*, show 20 ≤ j by omega] using hrsv.symm
  split
  · simp [show j - 23 < 3 by omega, show 23 + (j - 23) = j by omega]
  · simp [show j - 26 < 6 by omega, show 26 + (j - 26) = j by omega]

theorem commandWord_and_rsvMask (op : BitVec 6) (a : BitVec 3) (off : BitVec 12) (port : Port) :
    commandWord op a off port &&& rsvMask = 0#32 := by
  simpa [show commandWord 0#6 0#3 0#12 0#8 = 0#32 from rfl] using commandWord_and_rsv op 0 a 0 off 0 port 0

/-- What a match with a row says of a word: its reserved bits are 0, its opcode is the row's, and a field is 0 where the
mask tests it. -/
theorem fields_of_match {w : Word} {op : BitVec 6} {ma : BitVec 3} {mo : BitVec 12} {mp : Port}
    (h : w &&& (commandWord 63 ma mo mp ||| rsvMask) = commandWord op 0 0 0) :
    commandWord op (argField w) (offField w) (portField w) = w ∧
      argField w &&& ma = 0 ∧ offField w &&& mo = 0 ∧ portField w &&& mp = 0 := by
  have hrsv : w &&& rsvMask = 0#32 := by
    calc w &&& rsvMask = w &&& (commandWord 63 ma mo mp ||| rsvMask) &&& rsvMask := by
          rw [BitVec.and_assoc, BitVec.and_or_distrib_right, BitVec.and_self, commandWord_and_rsvMask, BitVec.zero_or]
      _ = 0#32 := by rw [h, commandWord_and_rsvMask]
  have hw := commandWord_fields hrsv
  rw [← hw, commandWord_and_rsv, show opField w &&& 63 = opField w from BitVec.and_allOnes] at h
  have hop : opField w = op := by simpa using congrArg opField h
  exact ⟨hop ▸ hw, by simpa using congrArg argField h, by simpa using congrArg offField h,
    by simpa using congrArg portField h⟩

section
variable {w : Word} {op : BitVec 6} {r : OpcodeRow}

/-! The word of a row is given back by the operands the row leaves free: the converse of `rowMatch_of_arg`,
`rowMatch_of_port` and `rowMatch_of_off`. -/

theorem commandWord_of_argRow (h : w &&& r.mask = r.value) (hm : r.mask = commandWord 63 0 0xFFF 0 ||| rsvMask)
    (hv : r.value = commandWord op 0 0 0) : commandWord op (argField w) 0 (portField w) = w := by
  rw [hm, hv] at h
  obtain ⟨hw, -, hoff, -⟩ := fields_of_match h
  rwa [show offField w = 0 from BitVec.and_allOnes.symm.trans hoff] at hw

theorem commandWord_of_portRow (h : w &&& r.mask = r.value) (hm : r.mask = commandWord 63 7 0xFFF 0 ||| rsvMask)
    (hv : r.value = commandWord op 0 0 0) : commandWord op 0 0 (portField w) = w := by
  rw [hm, hv] at h
  obtain ⟨hw, harg, hoff, -⟩ := fields_of_match h
  rwa [show argField w = 0 from BitVec.and_allOnes.symm.trans harg,
    show offField w = 0 from BitVec.and_allOnes.symm.trans hoff] at hw

theorem commandWord_of_offRow (h : w &&& r.mask = r.value) (hm : r.mask = commandWord 63 7 0 0xFF ||| rsvMask)
    (hv : r.value = commandWord op 0 0 0) : commandWord op 0 (offField w) 0 = w := by
  rw [hm, hv] at h
  obtain ⟨hw, harg, -, hport⟩ := fields_of_match h
  rwa [show argField w = 0 from BitVec.and_allOnes.symm.trans harg,
    show portField w = 0 from BitVec.and_allOnes.symm.trans hport] at hw

end

theorem decodeOperands_wellFormed {op : Opcode} {c : Command} {i : Instr} (h : decodeOperands op c = .ok i) :
    i.wellFormed = true := by
  cases op with
  | locate | setbit | clrbit | rdbit | pulse => obtain ⟨b, -, hacc, rfl⟩ := decodeBank_ok h; exact hacc
  | openPin | beginWatch =>
    simp only [decodeOperands] at h
    split at h <;> cases h
    rfl
  | _ => cases h; rfl

/-- A mnemonic has one row. -/
theorem find_row_of_mem : ∀ r ∈ opcodeMap, opcodeMap.find? (fun r' => r'.op == r.op) = some r := by decide

/-- The operands of a word that passes its row's mask give the word back. -/
theorem encodeWord_of_decodeOperands {r : OpcodeRow} (hr : r ∈ opcodeMap) {c : Command} {i : Instr}
    (hm : c.word &&& r.mask = r.value) (h : decodeOperands r.op c = .ok i) : encodeWord i = c.word := by
  have hrow := find_row_of_mem r hr
  obtain ⟨op, v, m⟩ := r
  cases op with
  | rd32 | wr32 =>
    cases hrow; cases h
    exact commandWord_of_offRow hm (by decide) (by decide)
  | winclose =>
    cases hrow; cases h
    exact hm.symm.trans BitVec.and_allOnes
  | locate | setbit | clrbit | rdbit | pulse =>
    cases hrow
    obtain ⟨b, hb, -, rfl⟩ := decodeBank_ok h
    simp only [encodeWord, code_of_bankOfCode _ _ hb]
    exact commandWord_of_argRow hm (by decide) (by decide)
  | setfn =>
    cases hrow; cases h
    exact commandWord_of_argRow hm (by decide) (by decide)
  | openPin =>
    cases hrow
    simp only [decodeOperands] at h
    split at h <;> cases h
    rename_i mode hmode
    simp only [encodeWord, argCode_of_modeOfCode _ _ hmode]
    exact commandWord_of_argRow hm (by decide) (by decide)
  | beginWatch =>
    cases hrow
    simp only [decodeOperands] at h
    split at h <;> cases h
    rename_i k hk
    simp only [encodeWord, argCode_of_kindOfCode _ _ hk]
    exact commandWord_of_argRow hm (by decide) (by decide)
  | getfn | setPin | clrPin | readPin | closePin | endWatch =>
    cases hrow; cases h
    exact commandWord_of_portRow hm (by decide) (by decide)

/-- Settles O3: the accepted word passed its row's mask, so its operands are all it holds. -/
theorem encodeOfDecode : Obligations.EncodeOfDecode := by
  intro c i h
  obtain ⟨r, hr, hm, hops⟩ := decode_ok h
  exact ⟨encodeWord_of_decodeOperands hr hm hops, decodeOperands_wellFormed hops⟩

/-! ### What the decoder rejects (30_encoding.md R103, R104) -/

/-- Bits 31 to 26 as a number. -/
theorem opField_toNat (w : Word) : (opField w).toNat = w.toNat / 2 ^ 26 := by
  have hw := w.isLt
  rw [opField, BitVec.extractLsb'_toNat, Nat.shiftRight_eq_div_pow, Nat.mod_eq_of_lt (by omega)]

theorem decodeOperands_ne_unknownOpcode (op : Opcode) (c : Command) :
    decodeOperands op c ≠ .error .unknownOpcode := by
  have hbank : ∀ accepts a mk, decodeBank accepts a mk ≠ .error .unknownOpcode := by
    intro accepts a mk
    unfold decodeBank
    split
    · simp
    split <;> simp
  cases op with
  | locate | setbit | clrbit | rdbit | pulse => exact hbank _ _ _
  | openPin | beginWatch =>
    simp only [decodeOperands]
    split <;> simp
  | _ => simp [decodeOperands]

/-- The decoder answers unknown opcode exactly when no row has the opcode (30_encoding.md R105, step 1). -/
theorem decode_unknownOpcode {c : Command} : decode c = .error .unknownOpcode ↔ rowOf c.word = none := by
  unfold decode
  split
  next h => simp [h]
  next r h =>
    split
    · simp [h, decodeOperands_ne_unknownOpcode]
    · simp [h]

/-- The opcodes that no row of the map has (30_encoding.md R104). -/
theorem find_opcode_eq_none : ∀ op : BitVec 6, opcodeMap.find? (fun r => opField r.value == op) = none ↔
    (op.toNat = 0x00 ∨ (0x04 ≤ op.toNat ∧ op.toNat ≤ 0x07) ∨ op.toNat = 0x0F ∨
      (0x15 ≤ op.toNat ∧ op.toNat ≤ 0x17) ∨ (0x1A ≤ op.toNat ∧ op.toNat ≤ 0x3F)) := by
  decide

/-- Settles O5: the opcodes without a row are counted out, and the all-zero word carries one of them. -/
theorem reservedOpcodesRejected : Obligations.ReservedOpcodesRejected := by
  refine ⟨fun c => ?_, fun d => decode_unknownOpcode.2 (show rowOf 0 = none by decide)⟩
  rw [decode_unknownOpcode, rowOf, find_opcode_eq_none, opField_toNat]

/-- Settles O1: each word is read by the decoder. -/
theorem specWordsDecode : Obligations.SpecWordsDecode := by
  unfold Obligations.SpecWordsDecode
  decide

end Sys2Proof

namespace Sys2Proof.Machine

/-- An Idle caller that issues an illegal command is answered at once (30_encoding.md R103). -/
theorem issueCommand_of_illegal {s : State} {c : CallerId} {cmd : Command} {e : DecodeError}
    (hc : s.caller c = some .idle) (hd : decode cmd = .error e) :
    issueCommand c cmd s = .next (illegalCommand cmd (s.setActive c)) := by
  simp only [issueCommand, hc, if_true, hd]

/-- The answer to an illegal command leaves its caller, Idle before, and every other as they were. -/
theorem illegalCommand_caller {s : State} {cmd : Command} (hc : s.caller s.active = some .idle) (d : CallerId) :
    (illegalCommand cmd s).caller d = s.caller d := by
  rw [illegalCommand, caller_respond]
  split
  · next h => rw [h, hc]
  · rfl

/-- Settles O6: the issuing caller, Idle before the step, is Idle after it, and the response is all that is added. -/
theorem illegalCommandResponds : Obligations.IllegalCommandResponds := by
  intro s c cmd e hl hn hc hd
  rw [step_of_legal hl, hn]
  have hidle : (s.takeInput.setActive c).caller c = some .idle := by simpa using hc
  refine ⟨_, issueCommand_of_illegal (by simpa using hc) hd, ?_⟩
  refine ⟨by simp [illegalCommand], fun d => ?_, ?_⟩
  · simpa using illegalCommand_caller (cmd := cmd) (s := s.takeInput.setActive c) hidle d
  · simp [illegalCommand, SameTables]

end Sys2Proof.Machine
end

section
/-! PROOF. O12, O13, O16 to O18 and O50, the Memory Window (40_window.md): what a raw access finds and leaves, and what
opens and closes the window to the commands that use it. -/

namespace Sys2Proof.Machine

/-! ### What RD32 finds (40_window.md R131, R138) -/

section
variable {s : State} {off i j : Nat} {b : Bank}

/-- Of a word that is stored, a read gives every valid bit as it stands. -/
theorem memRead_storedBit (hd : decodeOffset s.params off = some (b, i)) (hb : b ∈ [.fsel, .eds, .ren, .fen])
    (hj : j < 32) (hm : (bankMask s.params b i).getLsbD j = true) :
    (memRead s off).getLsbD j = (regWord s b i).getLsbD j := by
  have hfill : memRead s off = fillReserved (bankMask s.params b i) (regWord s b i) (Config.freeWord s.draws) := by
    unfold memRead readWord
    rw [hd]
    cases b <;> simp at hb <;> rfl
  rw [hfill, fillReserved_getLsbD _ _ _ _ hj, if_pos hm]

/-- Of a Level word, a read gives the pad level of every port that exists (10_state.md R28). -/
theorem memRead_levelBit (hd : decodeOffset s.params off = some (.lev, i)) (hj : j < 32)
    (hp : 32 * i + j < s.params.nports) : (memRead s off).getLsbD j = pad s (32 * i + j) := by
  unfold memRead readWord
  rw [hd]
  simp only [BitVec.getLsbD_or, BitVec.getLsbD_and, BitVec.getLsbD_not, wordOf_getLsbD, validMask_getLsbD]
  simp [hj, hp]

end

/-- Settles O12: the word is the one MemRead finds, and its valid bits are those of the bank at the offset. -/
theorem rd32ReturnsWord : Obligations.Rd32ReturnsWord := by
  intro off s hi hw ha hr
  obtain ⟨-, hp⟩ := hi
  refine ⟨memRead s off.toNat, _, exec_rd32 hp hw ha hr, finish_responds _ _ rfl rfl rfl rfl, ?_, ?_, ?_, ?_⟩
  · simp [Unchanged, SameTables, SameOutside, finish]
  · intro i j hd hj hv
    exact memRead_storedBit hd (by simp) (by omega) (by simp [bankMask, hj, hv])
  · intro i j hd hj hv
    exact memRead_levelBit hd hj hv
  · intro b i j hb hd hj hv
    have hm : (bankMask s.params b i).getLsbD j = true := by
      cases b <;> simp at hb <;> simp [bankMask, hj, hv]
    exact memRead_storedBit hd (List.mem_cons_of_mem _ hb) hj hm

/-! ### What WR32 leaves (40_window.md R132, R139) -/

section
variable (s : State) (b : Bank) (i : Nat) (v : Word)

/-- Before the edge latch, a write changes the EDS words only where it writes 1 to a valid bit of one. -/
theorem regWord_storeWord_eds (k : Nat) :
    regWord (storeWord s b i v) .eds k =
      if b = .eds ∧ k = i then regWord s .eds k &&& ~~~(v &&& validMask s.params k) else regWord s .eds k := by
  rw [regWord_storeWord]
  by_cases h : b = .eds ∧ k = i
  · obtain ⟨rfl, rfl⟩ := h
    simp [sameStorage, writtenWord]
  · have hother : ¬ (sameStorage .eds b = true ∧ k = i) := by cases b <;> simp_all [sameStorage]
    rw [if_neg h, if_neg hother]

/-- The bank effect on the EDS bit of a port: cleared where the port's bit is written 1 (10_state.md R29). -/
theorem edsBit_storeWord_eq {q : Nat} (hq : q < s.params.nports) :
    edsBit (storeWord s b i v) q =
      (edsBit s q && !(decide (b = .eds ∧ q / 32 = i) && v.getLsbD (q % 32))) := by
  change (regWord (storeWord s b i v) .eds (q / 32)).getLsbD (q % 32) =
    ((regWord s .eds (q / 32)).getLsbD (q % 32) && _)
  rw [regWord_storeWord_eds]
  split
  · next h =>
    rw [BitVec.getLsbD_and, BitVec.getLsbD_not, BitVec.getLsbD_and, validMask_port _ _ hq]
    simp [h, Nat.mod_lt]
  · next h => simp [h]

/-- No write and no edge changes an EDS bit that stands for no port (10_state.md R35). -/
theorem eds_reserved_writeWord {k j : Nat} (h : s.params.nports ≤ 32 * k + j) :
    (regWord (writeWord s b i v) .eds k).getLsbD j = (regWord s .eds k).getLsbD j := by
  have hlatch : (regWord (writeWord s b i v) .eds k).getLsbD j = (regWord (storeWord s b i v) .eds k).getLsbD j := by
    change ((latchWords s (storeWord s b i v) _).word k).getLsbD j = _
    rw [latchWords_word]
    split
    · simp [edgeWord, Nat.not_lt.2 h, regWord]
    · rfl
  rw [hlatch, regWord_storeWord_eds]
  split
  · rw [BitVec.getLsbD_and, BitVec.getLsbD_not, BitVec.getLsbD_and, validMask_getLsbD]
    by_cases hj : j < 32
    · simp [hj, Nat.not_lt.2 h]
    · simp [BitVec.getLsbD_of_ge _ _ (Nat.not_lt.1 hj)]
  · rfl

theorem edgesLatched_writeWord :
    EdgesLatched (fun q => edsBit s q && !(decide (b = .eds ∧ q / 32 = i) && v.getLsbD (q % 32))) s
      (writeWord s b i v) := by
  refine ⟨fun q hq => ?_, fun _ _ h => eds_reserved_writeWord s b i v h⟩
  rw [edsBit_writeWord _ _ _ _ _ hq, edsBit_storeWord_eq s b i v hq]

/-- The words of the other banks, and the other words of the same storage, are as they were. -/
theorem regWord_writeWord_other {b' : Bank} {j : Nat} (he : b' ≠ .eds) (h : ¬ (sameStorage b' b = true ∧ j = i)) :
    regWord (writeWord s b i v) b' j = regWord s b' j := by
  rw [regWord_writeWord _ _ _ _ _ _ he, regWord_storeWord, if_neg h]

theorem regWord_writeWord_self (he : b ≠ .eds) :
    regWord (writeWord s b i v) b i = writtenWord s.params b i (regWord s b i) v := by
  rw [regWord_writeWord _ _ _ _ _ _ he, regWord_storeWord, if_pos ⟨by simp [sameStorage], rfl⟩]

end

/-- `regWord` reads the registers alone. -/
theorem regWord_congr {s t : State} (h : t.regs = s.regs) (b : Bank) (i : Nat) : regWord t b i = regWord s b i := by
  cases b <;> simp only [regWord, h]

/-- `EdgesLatched` reads, of the later state, the registers, the outside levels and the parameters alone. -/
theorem EdgesLatched.congr {e : Nat → Bool} {s t u : State} (h : EdgesLatched e s t) (h1 : u.regs = t.regs)
    (h2 : u.ext = t.ext) (h3 : u.params = t.params) : EdgesLatched e s u := by
  unfold EdgesLatched enabledEdge pad field latBit edsBit at h ⊢
  simp only [regWord_congr h1, h1, h2, h3]
  exact h

/-- Settles O13: the command is a bank write and its response. -/
theorem wr32WritesWord : Obligations.Wr32WritesWord := by
  intro off data s b i hi hw hd
  obtain ⟨hl, hp⟩ := hi
  have hregs : (finish (.wr32 off data) 0 (writeWord s b i data)).regs = (writeWord s b i data).regs :=
    State.respond_regs ..
  have hword := regWord_congr hregs
  have hself := fun he => (hword b i).trans (regWord_writeWord_self s b i data he)
  refine ⟨_, exec_wr32 hl hp hw hd, finish_responds _ _ (by simp) (by simp) (by simp) (by simp),
    by simp [SameTables, finish], by simp [SameOutside, finish], ?others, ?fsel, ?set, ?clr, ?ren, ?fen, ?edges⟩
  case others =>
    intro b' j he hne
    rw [hword, regWord_writeWord_other s b i data he hne]
  case fsel | set | clr | ren | fen => rintro rfl; exact hself nofun
  case edges => exact (edgesLatched_writeWord s b i data).congr hregs (State.respond_ext ..) (finish_params ..)

/-! ### The window gate (40_window.md R133) -/

/-- A command of one micro-step raises the error of its checks. -/
theorem oneStep_raise {i : Instr} {s : State} {x : Status} {e : State → Option Status} {k : State → Result}
    (hp : s.position i = .start) (he : e s = some x) :
    oneStep i s (fun s => checked i (e s) s k) = .next (raise i x s) := by
  rw [oneStep_start hp, he, checked_some]

section
variable {s : State} {e : Status}

/-- The error of the gate, as R133 lists it. -/
theorem windowError_gate
    (h : (s.win = .unmapped ∧ e = .invalidOperation) ∨
      (s.win = .failed .permissionDenied ∧ e = .permissionDenied) ∨
      (s.win = .failed .unsupportedPlatform ∧ e = .unsupportedPlatform)) : windowError s.win = some e := by
  obtain ⟨hw, rfl⟩ | ⟨hw, rfl⟩ | ⟨hw, rfl⟩ := h <;> rw [hw] <;> rfl

theorem accessError_gate (hw : windowError s.win = some e) (off : BitVec 12) : accessError s off = some e := by
  simp only [accessError, hw, firstError_some]

theorem codecError_gate (hw : windowError s.win = some e) {accepted : Bool} (ha : accepted = true) (p : Port) :
    codecError s accepted p = some e := by
  simp only [codecError, ha, check_true, firstError_none, hw, firstError_some]

theorem handleError_gate (hw : windowError s.win = some e) (p : Port) (m : Mode) : handleError s p m = some e := by
  simp only [handleError, hw, firstError_some]

theorem exec_winclose_raise (hp : s.position .winclose = .start)
    (he : firstError [windowError s.win, check s.handle.isEmpty .invalidOperation] = some e) :
    exec .winclose s = .next (raise .winclose e s) := by
  change execWinclose s = _
  exact oneStep_raise hp he

theorem exec_beginWatch_raise {k : EdgeKind} {p : Port} {cb : Word} (hp : s.position (.beginWatch k p cb) = .start)
    (he : beginWatchError s p = some e) : exec (.beginWatch k p cb) s = .next (raise (.beginWatch k p cb) e s) := by
  change execBeginWatch k p cb s = _
  simp only [execBeginWatch, hp, watchCreate, he]

end

/-- Settles O18: the gate is the first check that a well-formed command of each of these kinds makes, so its error is
the command's. -/
theorem windowGateRaises : Obligations.WindowGateRaises := by
  intro i s e hi hwf hgated hcase
  obtain ⟨-, hp⟩ := hi
  have hw : windowError s.win = some e := windowError_gate hcase
  suffices hraise : exec i s = .next (raise i e s) from ⟨_, hraise, raise_spec i e s⟩
  cases i with
  | rd32 off => exact exec_rd32_raise hp (accessError_gate hw off)
  | wr32 off data => exact exec_wr32_raise hp (accessError_gate hw off)
  | winclose => exact exec_winclose_raise hp (by rw [hw, firstError_some])
  | setbit b p => change execSetbit b p s = _; exact oneStep_raise hp (codecError_gate hw hwf p)
  | clrbit b p => change execClrbit b p s = _; exact oneStep_raise hp (codecError_gate hw hwf p)
  | rdbit b p => change execRdbit b p s = _; exact oneStep_raise hp (codecError_gate hw hwf p)
  | pulse b p => change execPulse b p s = _; exact oneStep_raise hp (codecError_gate hw hwf p)
  | setfn fn p => change execSetfn fn p s = _; exact oneStep_raise hp (codecError_gate hw rfl p)
  | getfn p => change execGetfn p s = _; exact oneStep_raise hp (codecError_gate hw rfl p)
  | setPin p => change execSet p s = _; exact oneStep_raise hp (handleError_gate hw p .output)
  | clrPin p => change execClr p s = _; exact oneStep_raise hp (handleError_gate hw p .output)
  | readPin p => change execRead p s = _; exact oneStep_raise hp (handleError_gate hw p .input)
  | beginWatch k p cb => exact exec_beginWatch_raise hp (by rw [beginWatchError, hw, firstError_some])
  | locate | openPin | closePin | endWatch => exact hgated.elim

/-! ### WINCLOSE and the unexpected unmap (40_window.md R140, R136) -/

theorem exec_winclose {s : State} (hp : s.position .winclose = .start) (hw : s.win = .mapped)
    (hh : ∀ p, s.handle.lookup p = none) :
    exec .winclose s = .next (finish .winclose 0 (s.setWin .unmapped)) := by
  change execWinclose s = _
  unfold execWinclose
  rw [oneStep_start hp, hw, (Table.isEmpty_iff s.handle).2 hh]
  rfl

/-- Settles O16: the handle table is empty, so WINCLOSE passes its check, and it moves the window alone. -/
theorem wincloseUnmaps : Obligations.WincloseUnmaps := by
  intro s hi hw hh
  obtain ⟨-, hp⟩ := hi
  refine ⟨_, exec_winclose hp hw hh, finish_responds _ _ rfl rfl rfl rfl, ?_⟩
  simp [SameOutside, finish]

/-- Settles O17: with a handle open it is WINCLOSE's own check that fails; the other cases are the gate's. -/
theorem wincloseRaises : Obligations.WincloseRaises := by
  intro s e hi hcase
  obtain ⟨hw, ⟨p, hopen⟩, rfl⟩ | hgate := hcase
  · have hempty : s.handle.isEmpty = false :=
      Bool.eq_false_iff.2 fun h => hopen ((Table.isEmpty_iff s.handle).1 h p)
    exact ⟨_, exec_winclose_raise hi.2 (by rw [hw, hempty]; rfl), raise_spec .winclose .invalidOperation s⟩
  · exact windowGateRaises .winclose s e hi rfl trivial hgate

/-- Settles O50: the choice taken leaves the window mapped, so the unmap is enabled, and it moves the window alone. -/
theorem unmapFailsWindow : Obligations.UnmapFailsWindow := by
  intro s hl hn hw
  have hunmap : unmapStep s.takeInput = s.takeInput.setWin (.failed .unsupportedPlatform) :=
    if_pos (by simpa using hw)
  have hstep : step s = .next (s.takeInput.setWin (.failed .unsupportedPlatform)) := by
    rw [step_of_legal hl, hn, ← hunmap]
    rfl
  exact ⟨_, hstep, rfl, takeInput_regs s, takeInput_handle s, takeInput_busy s, takeInput_watch s, takeInput_ext s,
    takeInput_log s, takeInput_caller s⟩

end Sys2Proof.Machine
end

section
/-! PROOF. O19 to O25 and O27, the Register Codec (41_codec.md): where LOCATE finds a port, what a read of a port's bit
or field answers, what a write of one leaves, and that the write leaves every other port alone. -/

namespace Sys2Proof.Machine

/-! ### LOCATE (41_codec.md R151) -/

/-- The value of LOCATE as a number: neither part runs into the other (30_encoding.md R102). -/
theorem locateValue_toNat {off bi : Nat} (ho : off < 2 ^ 12) (hb : bi < 2 ^ 11) :
    (locateValue off bi).toNat = bi * 2 ^ 16 + off := by
  unfold locateValue
  simp only [BitVec.toNat_setWidth, BitVec.toNat_append, BitVec.ofNat_eq_ofNat, BitVec.toNat_ofNat,
    Nat.zero_mod, Nat.or_zero, Nat.mod_eq_of_lt ho, Nat.mod_eq_of_lt hb]
  rw [← Nat.shiftLeft_add_eq_or_of_lt ho, Nat.shiftLeft_eq, Nat.shiftLeft_eq]
  omega

theorem legal_windowSize {P : Params} (h : P.legal) : P.windowSize ≤ 4096 := h.2.2.2.1

theorem bitIdx_lt (b : Bank) (p : Nat) : bitIdx b p < 32 := by
  cases b <;> simp only [bitIdx, fselShift] <;> omega

theorem exec_locate_raise {b : Bank} {p : Port} {s : State} (hp : s.position (.locate b p) = .start)
    (hr : s.params.nports ≤ p.toNat) : exec (.locate b p) s = .next (raise (.locate b p) .outOfRange s) := by
  have hrange : rangeCheck s p = some .outOfRange := by simp [rangeCheck, Nat.not_lt.2 hr]
  change execLocate b p s = _
  exact oneStep_raise hp (by rw [hrange, firstError_some])

/-- A response of OK to a command that has read a register, or none, changes nothing. -/
theorem unchanged_finish (i : Instr) (v : Word) {s u : State} (hu : u = s ∨ u = s.nextDraw) :
    Unchanged s (finish i v u) := by
  obtain rfl | rfl := hu <;> simp [Unchanged, SameTables, SameOutside, finish]

/-- Settles O19: the port's word lies in the window, so the range check is LOCATE's only one, and the offset and the
bit index fit their fields. -/
theorem locateReturnsPosition : Obligations.LocateReturnsPosition := by
  intro b p s hi
  obtain ⟨hl, hp⟩ := hi
  refine ⟨fun hr => ?_, fun hr => ⟨_, exec_locate_raise hp hr, raise_spec (.locate b p) .outOfRange s⟩⟩
  have hval : (locateValue (wordOff s.params b p.toNat) (bitIdx b p.toNat)).toNat =
      bitIdx b p.toNat * 2 ^ 16 + wordOff s.params b p.toNat := by
    have hwin := wordOff_in_window hl hr b
    have hsize := legal_windowSize hl
    have hbit := bitIdx_lt b p.toNat
    exact locateValue_toNat (by omega) (by omega)
  refine ⟨_, _, exec_locate hl hp hr, finish_responds _ _ rfl rfl rfl rfl, unchanged_finish _ _ (.inl rfl), ?_, ?_⟩
  · rintro rfl; exact hval
  · intro hb
    rw [hval]
    cases b with
    | fsel => exact absurd rfl hb
    | set | clr | lev | eds | ren | fen => rfl

/-! ### RDBIT and GETFN (41_codec.md R155, R158) -/

/-- Settles O22: the bit that the bank's word holds for the port is drawn from no reserved bit. -/
theorem rdbitReturnsBit : Obligations.RdbitReturnsBit := by
  intro b p s hi hw hb hr
  obtain ⟨hl, hp⟩ := hi
  have hread : b.acceptsBitRead = true := by cases b <;> simp at hb <;> rfl
  have hresp : ∀ x, (memRead s (wordOff s.params b p.toNat)).getLsbD (bitIdx b p.toNat) = x →
      Responds (.rdbit b p) .ok (bitValue x) s (finish (.rdbit b p)
        (bitValue ((memRead s (wordOff s.params b p.toNat)).getLsbD (bitIdx b p.toNat))) s.nextDraw) := by
    rintro _ rfl
    exact finish_responds _ _ rfl rfl rfl rfl
  refine ⟨_, exec_rdbit hp hread hw hr, unchanged_finish _ _ (.inr rfl), hresp _ ?_⟩
  cases b with
  | fsel | set | clr => cases hread
  | lev => exact memRead_level hl hr
  | eds | ren | fen => exact memRead_bit hl hr (by simp)

/-- Settles O25: the field read is exact, whatever is drawn for the reserved bits. -/
theorem getfnReturnsField : Obligations.GetfnReturnsField := by
  intro p s hi hw hr
  obtain ⟨hl, hp⟩ := hi
  exact ⟨_, exec_getfn hl hp hw hr, unchanged_finish _ _ (.inr rfl), finish_responds _ _ rfl rfl rfl rfl⟩

/-! ### What a codec write leaves -/

/-- A command that completes after a register access: the response, and the fields that no access touches. -/
theorem RegStep.finish_spec {s u : State} (h : RegStep s u) (i : Instr) (v : Word) :
    Responds i .ok v s (finish i v u) ∧ SameTables s (finish i v u) ∧ SameOutside s (finish i v u) := by
  refine ⟨finish_responds i v h.main h.callbacks h.log h.active, ?_, ?_⟩
  · simp [SameTables, finish, h.win, h.handle, h.busy, h.watch, h.mapAnswers]
  · simp [SameOutside, finish, h.params, h.ext, h.inputs, h.active]

theorem regWord_finish (i : Instr) (v : Word) (s : State) (b : Bank) (j : Nat) :
    regWord (finish i v s) b j = regWord s b j :=
  regWord_congr (State.respond_regs ..) b j

/-- A response touches no port. -/
theorem PortUntouched.respond {q : Nat} {s u : State} (h : PortUntouched q s u) (w : Word) (e : Status) (v : Word) :
    PortUntouched q s (u.respond w e v) :=
  h.congr rfl rfl rfl (State.respond_regs ..) (State.respond_ext ..) (State.respond_params ..)

theorem acceptsBitWrite_of_mem {b : Bank} (hb : b ∈ [Bank.ren, .fen]) : b.acceptsBitWrite = true := by
  cases b <;> simp at hb <;> rfl

section
variable {s : State} {p : Nat} (hp : p < s.params.nports) {b : Bank}
include hp

theorem regWord_bitSet (hb : b.acceptsBitWrite = true) (b' : Bank) (i : Nat) :
    regWord (bitSet b p s) b' i = if b' = b then bitSetAt p i (regWord s b i) else regWord s b' i := by
  unfold bitSet bitSetAt
  rw [regWord_setPortBit hp hb]
  by_cases h : b' = b
  · subst h; simp [portBit, BitVec.twoPow]
  · simp [h]

theorem regWord_bitCleared (hb : b.acceptsBitWrite = true) (b' : Bank) (i : Nat) :
    regWord (bitCleared b p s) b' i = if b' = b then bitClearedAt p i (regWord s b i) else regWord s b' i := by
  unfold bitCleared bitClearedAt
  rw [regWord_clearPortBit hp hb]
  by_cases h : b' = b
  · subst h; simp [portBit, BitVec.twoPow]
  · simp [h]

/-- The latch after PULSE: set, cleared, or left to a write of EDS (10_state.md R26, R27). -/
theorem regWord_bitPulsed_latch (hb : b.acceptsPulse = true) (i : Nat) :
    regWord (bitPulsed b p s) .set i =
      if b = .set then bitSetAt p i (regWord s .set i)
      else if b = .clr then bitClearedAt p i (regWord s .set i)
      else regWord s .set i := by
  unfold bitPulsed bitSetAt bitClearedAt
  cases b with
  | set | clr => rw [regWord_pulseLatch hp (by simp) (by simp)]; simp [portBit, BitVec.twoPow, regWord]
  | eds => rw [regWord_pulseEds hp]; simp
  | fsel | lev | ren | fen => cases hb

/-- PULSE reaches no word but those of the latch and of EDS (41_codec.md R156). -/
theorem regWord_bitPulsed_other (hb : b.acceptsPulse = true) {b' : Bank} (hb' : b' ∉ [Bank.set, .clr, .eds])
    (i : Nat) : regWord (bitPulsed b p s) b' i = regWord s b' i := by
  simp only [List.mem_cons, List.not_mem_nil, or_false, not_or] at hb'
  obtain ⟨hset, hclr, heds⟩ := hb'
  unfold bitPulsed
  cases b with
  | set | clr => rw [regWord_pulseLatch hp (by simp) heds, if_neg (by simp [hset, hclr])]
  | eds => rw [regWord_pulseEds hp, if_neg (by simp [heds])]
  | fsel | lev | ren | fen => cases hb

theorem regWord_fieldWritten (code : BitVec 3) {b' : Bank} (he : b' ≠ .eds) (i : Nat) :
    regWord (fieldWritten code p s) b' i =
      if b' = .fsel then fieldAt code p i (regWord s .fsel i) else regWord s b' i := by
  unfold fieldWritten
  rw [regWord_writeField hp code he]
  by_cases h : b' = .fsel
  · subst h; simp [fieldAt, insertField, fselMask, fselShift, regWord]
  · simp [h]

theorem portUntouched_bitPulsed (hb : b.acceptsPulse = true) {q : Nat} (hq : q < s.params.nports) (hne : q ≠ p) :
    PortUntouched q s (bitPulsed b p s) := by
  cases b with
  | set | clr => exact portUntouched_pulseLatch hp hq (by simp) hne
  | eds => exact portUntouched_pulseEds hp hne
  | fsel | lev | ren | fen => cases hb

end

/-- The one-hot write of PULSE reaches the EDS bit of its own port, and of that port alone (41_codec.md R160). -/
theorem edgesLatched_bitPulsed (s : State) (b : Bank) (p : Nat) :
    EdgesLatched (fun q => edsBit s q && !decide (b = .eds ∧ q = p)) s (bitPulsed b p s) := by
  have hport : ∀ q, (decide (b = .eds ∧ q / 32 = p / 32) && (portBit p).getLsbD (q % 32)) =
      decide (b = .eds ∧ q = p) := by
    intro q
    rw [portBit_getLsbD, ← Bool.decide_and, decide_eq_decide, and_assoc]
    exact and_congr_right fun _ => by omega
  have h := edgesLatched_writeWord s b (p / 32) (portBit p)
  simp only [hport] at h
  exact h

/-- The write of a function field clears no EDS bit. -/
theorem edgesLatched_fieldWritten (s : State) (code : BitVec 3) (p : Nat) :
    EdgesLatched (edsBit s) s (fieldWritten code p s) := by
  have h := edgesLatched_writeWord s.nextDraw .fsel (p / 10) (insertField p code (s.regs.fsel.word (p / 10)))
  simp only [reduceCtorEq, false_and, decide_false, Bool.false_and, Bool.not_false, Bool.and_true] at h
  exact h

/-- Settles O20: the draw of the reserved bits does not show, so the write leaves the word with the port's bit. -/
theorem setbitSetsEnable : Obligations.SetbitSetsEnable := by
  intro b p s hi hw hb hr
  obtain ⟨hl, hp⟩ := hi
  have hbank := acceptsBitWrite_of_mem hb
  obtain ⟨hresp, htables, houtside⟩ := (bitSet_regStep hr hbank).finish_spec (.setbit b p) 0
  refine ⟨_, exec_setbit hl hp hbank hw hr, hresp, htables, houtside, fun b' hb' i => ?_, fun i => ?_⟩
  · rw [regWord_finish, regWord_bitSet hr hbank, if_neg (by simpa using hb')]
  · rw [regWord_finish, regWord_bitSet hr hbank, if_pos rfl]

/-- Settles O21: the draw of the reserved bits does not show, so the write leaves the word without the port's bit. -/
theorem clrbitClearsEnable : Obligations.ClrbitClearsEnable := by
  intro b p s hi hw hb hr
  obtain ⟨hl, hp⟩ := hi
  have hbank := acceptsBitWrite_of_mem hb
  obtain ⟨hresp, htables, houtside⟩ := (bitCleared_regStep hr hbank).finish_spec (.clrbit b p) 0
  refine ⟨_, exec_clrbit hl hp hbank hw hr, hresp, htables, houtside, fun b' hb' i => ?_, fun i => ?_⟩
  · rw [regWord_finish, regWord_bitCleared hr hbank, if_neg (by simpa using hb')]
  · rw [regWord_finish, regWord_bitCleared hr hbank, if_pos rfl]

/-- Settles O23: the write is one-hot, so the bank's write-1 action and any edge it makes are the port's own. -/
theorem pulseActsOnPort : Obligations.PulseActsOnPort := by
  intro b p s hi hw hb hr
  obtain ⟨hl, hp⟩ := hi
  have hbank : b.acceptsPulse = true := by cases b <;> simp at hb <;> rfl
  obtain ⟨hresp, htables, houtside⟩ := (bitPulsed_regStep hr hbank).finish_spec (.pulse b p) 0
  refine ⟨_, exec_pulse hl hp hbank hw hr, hresp, htables, houtside, fun b' hb' i => ?words, fun i => ?latch, ?edges,
    fun q hq hne => (portUntouched_bitPulsed hr hbank hq hne).respond ..⟩
  case words => rw [regWord_finish, regWord_bitPulsed_other hr hbank hb']
  case latch => rw [regWord_finish, regWord_bitPulsed_latch hr hbank]
  case edges =>
    exact (edgesLatched_bitPulsed s b p.toNat).congr (State.respond_regs ..) (State.respond_ext ..) (finish_params ..)

/-- Settles O24: the read-modify-write replaces the port's field in its word, and any edge this makes is the port's
own. -/
theorem setfnWritesField : Obligations.SetfnWritesField := by
  intro fn p s hi hw hr
  obtain ⟨hl, hp⟩ := hi
  obtain ⟨hresp, htables, houtside⟩ := (fieldWritten_regStep hr fn).finish_spec (.setfn fn p) 0
  refine ⟨_, exec_setfn hl hp hw hr, hresp, htables, houtside, fun b' hb' i => ?words, fun i => ?field, ?own, ?edges,
    fun q hq hne => (portUntouched_writeField hr hq fn hne).respond ..⟩
  case words =>
    simp only [List.mem_cons, List.not_mem_nil, or_false, not_or] at hb'
    obtain ⟨hfsel, heds⟩ := hb'
    rw [regWord_finish, regWord_fieldWritten hr fn heds, if_neg hfsel]
  case field => rw [regWord_finish, regWord_fieldWritten hr fn (by simp), if_pos rfl]
  case own => exact (field_congr (regWord_finish _ _ _ .fsel _)).trans (field_writeField_self hr fn)
  case edges =>
    exact (edgesLatched_fieldWritten s fn p.toNat).congr (State.respond_regs ..) (State.respond_ext ..)
      (finish_params ..)

/-! ### Bit isolation (41_codec.md R159) -/

/-- What a codec command has passed when it goes on: its bank, the window gate and the port. -/
theorem codecError_eq_none {s : State} {accepted : Bool} {p : Port} :
    codecError s accepted p = none ↔ accepted = true ∧ s.win = .mapped ∧ p.toNat < s.params.nports := by
  simp [codecError, firstError_cons_eq_none, check_none, windowError_eq_none, rangeCheck_none]

/-- A codec command that writes leaves port `q` alone where its register access does: an error leaves every port
alone. -/
theorem portUntouched_of_codecWrite {i : Instr} {accepted : Bool} {p : Port} {access : State → Option State}
    {q : Nat} {s t : State}
    (h : oneStep i s (fun s => checked i (codecError s accepted p) s fun s =>
      afterWrite (access s) (finish i 0)) = .next t)
    (ha : accepted = true → p.toNat < s.params.nports → ∃ u, access s = some u ∧ PortUntouched q s u) :
    PortUntouched q s t := by
  obtain ⟨-, hbody⟩ := oneStep_next h
  obtain ⟨e, -, rfl⟩ | ⟨he, hwrite⟩ := checked_next hbody
  · exact (PortUntouched.refl q s).respond ..
  · obtain ⟨haccepted, -, hr⟩ := codecError_eq_none.1 he
    obtain ⟨u, hu, huntouched⟩ := ha haccepted hr
    rw [hu, afterWrite_some] at hwrite
    cases hwrite
    exact huntouched.respond ..

/-- Settles O27: each of the four makes one codec write, and the write of one port leaves the others alone. -/
theorem bitIsolation : Obligations.BitIsolation := by
  intro i p q s t hl hq hne hi h
  obtain ⟨b, rfl⟩ | ⟨b, rfl⟩ | ⟨b, rfl⟩ | ⟨fn, rfl⟩ := hi
  · exact portUntouched_of_codecWrite h fun hb hr =>
      ⟨_, setPortBit_eq hl hr hb, portUntouched_setPortBit hr hb hne⟩
  · exact portUntouched_of_codecWrite h fun hb hr =>
      ⟨_, clearPortBit_eq hl hr hb, portUntouched_clearPortBit hr hb hne⟩
  · exact portUntouched_of_codecWrite h fun hb hr =>
      ⟨_, pulsePortBit_eq hl hr hb, portUntouched_bitPulsed hr hb hq hne⟩
  · exact portUntouched_of_codecWrite h fun _ hr =>
      ⟨_, writeField_eq hl hr fn, portUntouched_writeField hr hq fn hne⟩

end Sys2Proof.Machine
end

section
/-! PROOF. O28 to O34, OPEN and the commands of an open port: SET, CLR and READ (42_pin_handle.md R182 to R185). -/

namespace Sys2Proof.Machine

/-! ### SET and CLR (42_pin_handle.md R183, R184) -/

section
variable {s : State} {p : Nat} {b : Bank}

/-- A write of SET or CLR reaches no function field. -/
theorem field_bitPulsed_latch (hp : p < s.params.nports) (hb : b = .set ∨ b = .clr) :
    field (bitPulsed b p s) p = field s p :=
  field_congr (regWord_bitPulsed_other hp (by obtain rfl | rfl := hb <;> rfl) (b' := .fsel) (by simp) _)

/-- A write of SET or CLR puts the port's latch bit at 1 or 0. -/
theorem latBit_bitPulsed_latch (hp : p < s.params.nports) (hb : b = .set ∨ b = .clr) :
    latBit (bitPulsed b p s) p = decide (b = .set) := by
  change (regWord (bitPulsed b p s) .set (p / 32)).getLsbD (p % 32) = _
  unfold bitPulsed
  obtain rfl | rfl := hb <;> rw [regWord_pulseLatch hp (by simp) (by simp), if_pos (by simp)]
  · exact or_portBit_self _ _
  · exact andNot_portBit_self _ _

/-- A write of SET or CLR clears no EDS bit. -/
theorem edgesLatched_bitPulsed_latch (hb : b = .set ∨ b = .clr) : EdgesLatched (edsBit s) s (bitPulsed b p s) := by
  have h := edgesLatched_bitPulsed s b p
  obtain rfl | rfl := hb <;> simpa using h

/-- A response moves no pad. -/
theorem pad_finish (i : Instr) (v : Word) (s : State) (p : Nat) : pad (finish i v s) p = pad s p :=
  pad_congr (finish_params ..) (field_congr (regWord_finish i v s .fsel _))
    (congrArg (·.getLsbD (p % 32)) (regWord_finish i v s .set _)) (by simp [finish])

/-- What SET and CLR have in common: the response, the port's level, and all that is left alone but the latch. -/
theorem finish_bitPulsed_latch {i : Instr} {t : State} (ht : t = finish i 0 (bitPulsed b p s))
    (hp : p < s.params.nports) (hb : b = .set ∨ b = .clr) :
    Responds i .ok 0 s t ∧ SameTables s t ∧ SameOutside s t ∧ SameWordsBut [.set, .clr, .eds] s t ∧
      (field s p = s.params.fselOutput → pad t p = decide (b = .set)) ∧ EdgesLatched (edsBit s) s t ∧
      ∀ q < s.params.nports, q ≠ p → PortUntouched q s t := by
  subst ht
  have hbank : b.acceptsPulse = true := by obtain rfl | rfl := hb <;> rfl
  have hstep : RegStep s (bitPulsed b p s) := bitPulsed_regStep hp hbank
  obtain ⟨hresp, htables, houtside⟩ := hstep.finish_spec i 0
  refine ⟨hresp, htables, houtside, fun b' hb' j => ?words, fun hout => ?level, ?edges,
    fun q hq hne => (portUntouched_bitPulsed hp hbank hq hne).respond ..⟩
  case words => rw [regWord_finish, regWord_bitPulsed_other hp hbank hb']
  case level =>
    rw [pad_finish, pad, field_bitPulsed_latch hp hb, hstep.params, if_pos hout, latBit_bitPulsed_latch hp hb]
  case edges =>
    exact (edgesLatched_bitPulsed_latch hb).congr (State.respond_regs ..) (State.respond_ext ..) (finish_params ..)

end

/-- Settles O31: the checks pass, and SET's write is the write-1 of the port's bit. -/
theorem setDrivesHigh : Obligations.SetDrivesHigh := by
  intro p s hi hw hr hh hb
  obtain ⟨hl, hp⟩ := hi
  obtain ⟨hresp, htables, houtside, hwords, hlevel, hrest⟩ :=
    finish_bitPulsed_latch (i := .setPin p) (b := .set) rfl hr (.inl rfl)
  refine ⟨_, exec_setPin hl hp (handleError_none hw hr hh hb) hr, hresp, htables, houtside, hwords, fun i => ?_,
    hlevel, hrest⟩
  rw [regWord_finish, regWord_bitPulsed_latch hr rfl, if_pos rfl]

/-- Settles O32: the checks pass, and CLR's write is the write-1 of the port's bit. -/
theorem clrDrivesLow : Obligations.ClrDrivesLow := by
  intro p s hi hw hr hh hb
  obtain ⟨hl, hp⟩ := hi
  obtain ⟨hresp, htables, houtside, hwords, hlevel, hrest⟩ :=
    finish_bitPulsed_latch (i := .clrPin p) (b := .clr) rfl hr (.inr rfl)
  refine ⟨_, exec_clrPin hl hp (handleError_none hw hr hh hb) hr, hresp, htables, houtside, hwords, fun i => ?_,
    hlevel, hrest⟩
  exact (regWord_finish _ _ _ .set i).trans (regWord_bitPulsed_latch hr rfl i)

/-! ### READ, and the errors of the three (42_pin_handle.md R185, 60_exceptions.md R255) -/

/-- Settles O33: the read of the Level bank gives the port's pad level, and writes nothing. -/
theorem readReturnsLevel : Obligations.ReadReturnsLevel := by
  intro p s hi hw hr hh hb
  obtain ⟨hl, hp⟩ := hi
  exact ⟨_, exec_readPin hl hp (handleError_none hw hr hh hb) hr, finish_responds _ _ rfl rfl rfl rfl,
    unchanged_finish _ _ (.inr rfl)⟩

theorem rangeCheck_outOfRange {s : State} {p : Port} (h : s.params.nports ≤ p.toNat) :
    rangeCheck s p = some .outOfRange := by
  simp [rangeCheck, Nat.not_lt.2 h]

/-- A port that has no handle, or is in transition, is not open (10_state.md R37). -/
theorem openCheck_invalid {s : State} {p : Port} (h : s.handle.lookup p.toNat = none ∨ s.busy.has p.toNat = true) :
    openCheck s p = some .invalidOperation := by
  obtain h | h := h <;> simp [openCheck, isOpen, h]

theorem handleError_outOfRange {s : State} {p : Port} {m : Mode} (hw : s.win = .mapped)
    (hr : s.params.nports ≤ p.toNat) : handleError s p m = some .outOfRange := by
  simp [handleError, hw, rangeCheck_outOfRange hr]

/-- A port that is not open fails the check of the handle, and one that is open in the other mode the next. -/
theorem handleError_invalid {s : State} {p : Port} {m : Mode} (hw : s.win = .mapped) (hr : p.toNat < s.params.nports)
    (h : s.handle.lookup p.toNat ≠ some m ∨ s.busy.has p.toNat = true) :
    handleError s p m = some .invalidOperation := by
  by_cases ho : isOpen s p.toNat = true
  · obtain ⟨-, hb⟩ := isOpen_iff.1 ho
    have hmode : s.handle.lookup p.toNat ≠ some m := h.resolve_right (by simp [hb])
    simp [handleError, hw, rangeCheck_none.2 hr, openCheck_none.2 ho, modeCheck, hmode]
  · simp [handleError, hw, rangeCheck_none.2 hr, openCheck, ho]

/-- SET, CLR and READ raise the error of their checks. -/
theorem exec_pin_raise {i : Instr} {p : Port} {m : Mode} {e : Status} {s : State} (hp : s.position i = .start)
    (hi : ((i = .setPin p ∨ i = .clrPin p) ∧ m = .output) ∨ (i = .readPin p ∧ m = .input))
    (he : handleError s p m = some e) : exec i s = .next (raise i e s) := by
  obtain ⟨rfl | rfl, rfl⟩ | ⟨rfl, rfl⟩ := hi
  · change execSet p s = _
    exact oneStep_raise hp he
  · change execClr p s = _
    exact oneStep_raise hp he
  · change execRead p s = _
    exact oneStep_raise hp he

/-- Settles O34: on a mapped window the three make the same checks, of the port, its handle and the mode. -/
theorem pinCommandsRaise : Obligations.PinCommandsRaise := by
  intro p s i m hi hw hcmd
  obtain ⟨-, hp⟩ := hi
  exact ⟨fun hr => ⟨_, exec_pin_raise hp hcmd (handleError_outOfRange hw hr), raise_spec i .outOfRange s⟩,
    fun hr h => ⟨_, exec_pin_raise hp hcmd (handleError_invalid hw hr h), raise_spec i .invalidOperation s⟩⟩

/-! ### The errors of OPEN (42_pin_handle.md R182) -/

section
variable {m : Mode} {p : Port} {e : Status} {s : State}

/-- The window after O1's mapping is what the host answers (40_window.md R134). -/
theorem mapIfUnmapped_win_of_answer (hw : s.win = .unmapped) {r : MapAnswer} (hr : s.mapAnswers.head? = some r) :
    (mapIfUnmapped s).win = match r with | .ok => .mapped | .failed e => .failed e := by
  obtain ⟨l, hl⟩ := List.head?_eq_some_iff.1 hr
  have hanswer : s.mapAnswer = r := by simp [State.mapAnswer, hl]
  rw [mapIfUnmapped, if_pos hw, mapStep, hanswer]
  cases r <;> rfl

theorem exec_open_raise (hp : s.position (.openPin m p) = .start) (he : openError (mapIfUnmapped s) p = some e) :
    exec (.openPin m p) s = .next (raise (.openPin m p) e (undoMapping s)) := by
  change execOpen m p s = _
  simp only [execOpen, hp, openReserve, he]

/-- With the window mapped or failed, an error of O1 changes nothing (60_exceptions.md R256). -/
theorem exec_open_raise_unchanged (hp : s.position (.openPin m p) = .start) (hw : s.win ≠ .unmapped)
    (he : openError s p = some e) :
    ∃ t, exec (.openPin m p) s = .next t ∧ Responds (.openPin m p) e 0 s t ∧ Unchanged s t := by
  have hexec := exec_open_raise (e := e) hp (by rwa [(mapIfUnmapped_win s).2 hw])
  rw [undoMapping_of_not_unmapped s hw] at hexec
  exact ⟨_, hexec, raise_spec (.openPin m p) e s⟩

/-- An error of O1 changes at most the window and the host's answers (60_exceptions.md R256). -/
theorem raise_undoMapping_spec {i : Instr} {t : State} (ht : t = raise i e (undoMapping s)) :
    Responds i e 0 s t ∧ t.win = (undoMapping s).win ∧ t.regs = s.regs ∧ t.handle = s.handle ∧ t.busy = s.busy ∧
      t.watch = s.watch ∧ SameOutside s t := by
  subst ht
  exact ⟨responds_respond i e 0 (by simp) (by simp) (by simp) (by simp), by simp [raise, SameOutside]⟩

theorem openError_outOfRange (hw : s.win = .mapped) (hr : s.params.nports ≤ p.toNat) :
    openError s p = some .outOfRange := by
  simp [openError, hw, rangeCheck_outOfRange hr]

theorem openError_alreadyOpen (hw : s.win = .mapped) (hr : p.toNat < s.params.nports)
    (hh : s.handle.lookup p.toNat ≠ none) : openError s p = some .alreadyOpen := by
  obtain ⟨m, hm⟩ := Option.ne_none_iff_exists'.1 hh
  simp [openError, hw, rangeCheck_none.2 hr, hm]

theorem openError_failed {x : WindowError} (hw : s.win = .failed x) : openError s p = some (windowStatus x) := by
  simp [openError, hw]

end

/-- Settles O29: O1 maps the window where it must, and then makes its checks; a mapping that was made is undone. -/
theorem openRaises : Obligations.OpenRaises := by
  intro m p s hi
  obtain ⟨-, hp⟩ := hi
  refine ⟨fun e hw => ?failed, fun e hw ha => ?mapFails, fun hw hr => ?range, fun hw ha hr => ?undone,
    fun hw hr hh => ?live⟩
  case failed => exact exec_open_raise_unchanged hp (by simp [hw]) (openError_failed hw)
  case range => exact exec_open_raise_unchanged hp (by simp [hw]) (openError_outOfRange hw hr)
  case live => exact exec_open_raise_unchanged hp (by simp [hw]) (openError_alreadyOpen hw hr hh)
  case mapFails =>
    have hmap : (mapIfUnmapped s).win = .failed e := mapIfUnmapped_win_of_answer hw ha
    have hundo : (undoMapping s).win = .failed e := by simp [undoMapping, hmap]
    obtain ⟨hresp, hwin, hrest⟩ := raise_undoMapping_spec (i := .openPin m p) (e := windowStatus e) (s := s) rfl
    exact ⟨_, exec_open_raise hp (openError_failed hmap), hresp, hwin.trans hundo, hrest⟩
  case undone =>
    have hmap : (mapIfUnmapped s).win = .mapped := mapIfUnmapped_win_of_answer hw ha
    have hundo : (undoMapping s).win = .unmapped := by simp [undoMapping, hmap, hw]
    obtain ⟨hresp, hwin, hrest⟩ := raise_undoMapping_spec (i := .openPin m p) (e := .outOfRange) (s := s) rfl
    exact ⟨_, exec_open_raise hp (openError_outOfRange hmap (by simpa using hr)), hresp, hwin.trans hundo, hrest⟩

/-- Settles O30: O2 meets the window's error before its access, and takes the reservation away. -/
theorem openUndone : Obligations.OpenUndone := by
  intro m p loc s hat hw
  obtain ⟨-, hp⟩ := hat
  obtain ⟨e, he⟩ := Option.ne_none_iff_exists'.1 (mt windowError_eq_none.1 hw)
  have hexec : exec (.openPin m p) s =
      .next (raise (.openPin m p) e ((s.setHandle p.toNat none).setBusy p.toNat false)) := by
    change execOpen m p s = _
    simp only [execOpen, hp, openProgram, he]
  refine ⟨e, _, he, hexec, responds_respond _ e 0 rfl rfl rfl rfl, ?_⟩
  simp +contextual [raise, SameOtherPorts, SameOutside]

/-! ### OPEN (42_pin_handle.md R182) -/

/-- What the write of port `p`'s function field leaves in the registers (41_codec.md R157, R159). -/
structure FieldSet (code : BitVec 3) (p : Nat) (s t : State) : Prop where
  field : field t p = code
  words : ∀ i, regWord t .fsel i = fieldAt code p i (regWord s .fsel i)
  others : SameWordsBut [.fsel, .eds] s t
  edges : EdgesLatched (edsBit s) s t
  ports : ∀ q < s.params.nports, q ≠ p → PortUntouched q s t

theorem fieldSet_fieldWritten {s : State} {p : Nat} (hp : p < s.params.nports) (code : BitVec 3) :
    FieldSet code p s (fieldWritten code p s) := by
  refine ⟨field_writeField_self hp code, fun i => ?_, fun b hb i => ?_, edgesLatched_fieldWritten s code p,
    fun q hq hne => portUntouched_writeField hp hq code hne⟩
  · rw [regWord_fieldWritten hp code (by simp), if_pos rfl]
  · simp only [List.mem_cons, List.not_mem_nil, or_false, not_or] at hb
    obtain ⟨hfsel, heds⟩ := hb
    rw [regWord_fieldWritten hp code heds, if_neg hfsel]

/-- `EdgesLatched` reads, of the earlier state, the registers, the outside levels and the parameters alone. -/
theorem EdgesLatched.congr_left {e : Nat → Bool} {s s' t : State} (h : EdgesLatched e s t) (h1 : s'.regs = s.regs)
    (h2 : s'.ext = s.ext) (h3 : s'.params = s.params) : EdgesLatched e s' t := by
  unfold EdgesLatched enabledEdge pad field latBit renBit fenBit at h ⊢
  simp only [regWord_congr h1, h1, h2, h3]
  exact h

/-- `FieldSet` reads the registers, the outside levels and the parameters alone. -/
theorem FieldSet.congr {code : BitVec 3} {p : Nat} {s t s' t' : State} (h : FieldSet code p s t)
    (hs1 : s'.regs = s.regs) (hs2 : s'.ext = s.ext) (hs3 : s'.params = s.params) (ht1 : t'.regs = t.regs)
    (ht2 : t'.ext = t.ext) (ht3 : t'.params = t.params) : FieldSet code p s' t' := by
  have hs := regWord_congr hs1
  have ht := regWord_congr ht1
  refine ⟨(field_congr (ht .fsel _)).trans h.field, fun i => ?_, fun b hb i => ?_, ?_, fun q hq hne => ?_⟩
  · rw [hs, ht, h.words]
  · rw [hs, ht, h.others b hb]
  · have heds : edsBit s' = edsBit s := by funext q; simp only [edsBit, hs1]
    rw [heds]
    exact (h.edges.congr ht1 ht2 ht3).congr_left hs1 hs2 hs3
  · exact (h.ports q (hs3 ▸ hq) hne).congr hs1 hs2 hs3 ht1 ht2 ht3

theorem SameOutside.trans {s u t : State} (h : SameOutside s u) (h' : SameOutside u t) : SameOutside s t := by
  obtain ⟨h1, h2, h3, h4⟩ := h
  obtain ⟨h1', h2', h3', h4'⟩ := h'
  exact ⟨h1'.trans h1, h2'.trans h2, h3'.trans h3, h4'.trans h4⟩

/-- A command that ends with a response has that response also from where it began. -/
theorem GoesOn.responds {i j : Instr} {k : MicroStep} {loc : Locals} {e : Status} {v : Word} {s u t : State}
    (h : GoesOn i k loc s u) (ha : u.active = s.active) (hr : Responds j e v u t) : Responds j e v s t := by
  obtain ⟨hlog, -, hothers⟩ := h
  obtain ⟨hlog', hidle, hothers'⟩ := hr
  rw [ha] at hlog' hidle hothers'
  exact ⟨by rw [hlog', hlog], hidle, fun c hc => (hothers' c hc).trans (hothers c hc)⟩

/-- A caller that has gone on stands at the micro-step it has gone on to. -/
theorem GoesOn.position {i : Instr} {k : MicroStep} {loc : Locals} {s u : State} (h : GoesOn i k loc s u)
    (ha : u.active = s.active) : u.position i = .running k loc := by
  obtain ⟨-, hcaller, -⟩ := h
  exact position_running.2 (ha ▸ hcaller)

section
variable {m : Mode} {p : Port} {s : State}

/-- O1 of OPEN on a window that is mapped once the host has answered: the port is reserved, and the rest is left. -/
theorem exec_open_reserves (hp : s.position (.openPin m p) = .start) (hw : (mapIfUnmapped s).win = .mapped)
    (hr : p.toNat < s.params.nports) (hh : s.handle.lookup p.toNat = none) :
    ∃ u, exec (.openPin m p) s = .next u ∧ GoesOn (.openPin m p) .o2 Locals.none s u ∧ SameOutside s u ∧
      u.win = .mapped ∧ u.regs = s.regs ∧ u.watch = s.watch ∧ u.handle = s.handle.put p.toNat (some m) ∧
      u.busy = s.busy.mark p.toNat true :=
  ⟨_, exec_open_o1 hp hw hr hh, goesOn_goto _ _ _ (by simp) (by simp) (by simp) (by simp), by simp [SameOutside, hw]⟩

/-- O2 of OPEN on a mapped window: the function field is written and the transition ends. -/
theorem exec_open_programs {loc : Locals} (hl : s.params.legal) (hp : s.position (.openPin m p) = .running .o2 loc)
    (hw : s.win = .mapped) (hr : p.toNat < s.params.nports) :
    ∃ t, exec (.openPin m p) s = .next t ∧ Responds (.openPin m p) .ok 0 s t ∧ SameOutside s t ∧ t.win = .mapped ∧
      t.watch = s.watch ∧ t.handle = s.handle ∧ t.busy = s.busy.mark p.toNat false ∧
      FieldSet (functionCode s.params m) p.toNat s t := by
  have hstep := fieldWritten_regStep hr (functionCode s.params m)
  have hset := fieldSet_fieldWritten hr (functionCode s.params m)
  refine ⟨_, exec_open_o2 hl hp hw hr, finish_responds _ _ hstep.main hstep.callbacks hstep.log hstep.active,
    ?outside, ?win, ?watch, ?handle, ?busy, hset.congr rfl rfl rfl ?_ ?_ ?_⟩
  case outside => simp [SameOutside, finish, hstep.params, hstep.ext, hstep.inputs, hstep.active]
  case win => simp [finish, hstep.win, hw]
  case watch => simp [finish, hstep.watch]
  case handle => simp [finish, hstep.handle]
  case busy => simp [finish, hstep.busy]
  all_goals simp [finish]

end

/-- Settles O28: O1 leaves the registers as they were, and O2's write is that of the port's function field. -/
theorem openCompletes : Obligations.OpenCompletes := by
  intro m p s hi hr hh hwin
  obtain ⟨hl, hp⟩ := hi
  have hmap : (mapIfUnmapped s).win = .mapped := by
    obtain hw | ⟨hw, ha⟩ := hwin
    · rw [(mapIfUnmapped_win s).2 (by simp [hw]), hw]
    · exact mapIfUnmapped_win_of_answer hw ha
  obtain ⟨u, hexec, hgoes, hout, hw, hregs, hwatch, hhandle, hbusy⟩ := exec_open_reserves hp hmap hr hh
  have ⟨hpar, hext, _, hact⟩ := hout
  obtain ⟨t, hexec', hresp, hout', hw', hwatch', hhandle', hbusy', hset⟩ :=
    exec_open_programs (hpar ▸ hl) (hgoes.position hact) hw (hpar ▸ hr)
  obtain ⟨hfield, hwords, hothers, hedges, hports⟩ := hset.congr hregs.symm hext.symm hpar.symm rfl rfl rfl
  refine ⟨u, t, hexec, hexec', hgoes.responds hact hresp, hw', by simp [hhandle', hhandle],
    by simp [hbusy', hbusy], hwatch'.trans hwatch, fun q hq => ?others, hout.trans hout', ?code, ?words, hothers,
    hedges, hports⟩
  case others => simp [hhandle', hhandle, hbusy', hbusy, hwatch', hwatch, hq]
  case code =>
    rw [hfield, hpar]
    cases m <;> rfl
  case words => rwa [hfield]

end Sys2Proof.Machine
end

section
/-! PROOF. What CLOSE and ENDWATCH share (43_edge_watch.md R224 to R229): what becomes of the port's registers, kept as
what becomes of each word, and the micro-steps from StopWatch to D3, run once on a mapped or a failed window. -/

namespace Sys2Proof.Machine

/-! ### What becomes of the registers -/

/-- The registers of `u` are those of `s` with port `p`'s bit cleared in each bank of `bs`. -/
def BitsCleared (bs : List Bank) (p : Nat) (s u : State) : Prop :=
  ∀ b i, regWord u b i = if b ∈ bs then bitClearedAt p i (regWord s b i) else regWord s b i

/-- The registers of `t` are those of `s` with port `p` an Input, with no detection and no event. -/
def PortReleased (p : Nat) (s t : State) : Prop :=
  ∀ b i, regWord t b i =
    if b = .fsel then fieldAt s.params.fselInput p i (regWord s .fsel i)
    else if b ∈ [Bank.eds, .ren, .fen] then bitClearedAt p i (regWord s b i) else regWord s b i

theorem fieldAt_eq (code : BitVec 3) (p i : Nat) (w : Word) :
    fieldAt code p i w = if i = p / 10 then insertField p code w else w := rfl

theorem bitClearedAt_idem (p i : Nat) (w : Word) : bitClearedAt p i (bitClearedAt p i w) = bitClearedAt p i w := by
  unfold bitClearedAt
  split
  · rw [BitVec.and_assoc, BitVec.and_self]
  · rfl

theorem bitClearedAt_self (p : Nat) (w : Word) : (bitClearedAt p (p / 32) w).getLsbD (p % 32) = false := by
  rw [bitClearedAt, if_pos rfl, ← BitVec.twoPow_eq]
  exact andNot_portBit_self w p

theorem bitClearedAt_other {p q : Nat} (h : q ≠ p) (w : Word) :
    (bitClearedAt p (q / 32) w).getLsbD (q % 32) = w.getLsbD (q % 32) := by
  unfold bitClearedAt
  split
  · next hw =>
    rw [← BitVec.twoPow_eq]
    exact andNot_portBit_other w (bit_ne_of_word_eq h hw)
  · rfl

section
variable {p : Nat} {s u t : State} {bs cs : List Bank}

/-- One clearing after another clears the bits of both. -/
theorem BitsCleared.append (h : BitsCleared bs p s u) (h' : BitsCleared cs p u t) : BitsCleared (bs ++ cs) p s t := by
  intro b i
  rw [h' b i, h b i]
  by_cases hb : b ∈ bs <;> by_cases hc : b ∈ cs <;> simp [hb, hc, bitClearedAt_idem]

theorem BitsCleared.of_mem_iff (h : BitsCleared bs p s u) (hmem : ∀ b, b ∈ cs ↔ b ∈ bs) : BitsCleared cs p s u := by
  intro b i
  simp only [hmem]
  exact h b i

/-- `BitsCleared` reads the registers alone. -/
theorem BitsCleared.congr {s' u' : State} (h : BitsCleared bs p s u) (hs : s'.regs = s.regs) (hu : u'.regs = u.regs) :
    BitsCleared bs p s' u' := by
  intro b i
  rw [regWord_congr hs, regWord_congr hu, h b i]

theorem BitsCleared.bit (h : BitsCleared bs p s u) {b : Bank} (hb : b ∈ bs) :
    (regWord u b (p / 32)).getLsbD (p % 32) = false := by
  rw [h b, if_pos hb]
  exact bitClearedAt_self p _

theorem bitsCleared_bitCleared (hp : p < s.params.nports) {b : Bank} (hb : b.acceptsBitWrite = true) :
    BitsCleared [b] p s (bitCleared b p s) := by
  intro b' i
  rw [regWord_bitCleared hp hb]
  by_cases h : b' = b
  · subst h; simp
  · simp [h]

theorem bitsCleared_bitPulsed_eds (hp : p < s.params.nports) : BitsCleared [.eds] p s (bitPulsed .eds p s) := by
  intro b i
  unfold bitPulsed bitClearedAt
  rw [regWord_pulseEds hp]
  by_cases h : b = .eds
  · subst h; simp [portBit, BitVec.twoPow]
  · simp [h]

/-- With its enables clear a port's function field is replaced and no EDS word changes (43_edge_watch.md R211). -/
theorem regWord_fieldWritten_quiet (hp : p < s.params.nports) (code : BitVec 3) (hr : renBit s p = false)
    (hf : fenBit s p = false) (b : Bank) (i : Nat) :
    regWord (fieldWritten code p s) b i =
      if b = .fsel then fieldAt code p i (regWord s .fsel i) else regWord s b i := by
  by_cases hb : b = .eds
  · subst hb
    obtain ⟨-, hreserved⟩ := edgesLatched_fieldWritten s code p
    refine word_ext fun j hj => ?_
    by_cases hq : 32 * i + j < s.params.nports
    · have hbit : edsBit (fieldWritten code p s) (32 * i + j) = edsBit s (32 * i + j) := by
        by_cases hpq : 32 * i + j = p
        · rw [hpq]
          exact fieldWritten_edsBit hp code hr hf
        · obtain ⟨-, -, heds, -⟩ := portUntouched_writeField hp hq code hpq
          exact heds
      unfold edsBit at hbit
      rwa [show (32 * i + j) / 32 = i by omega, show (32 * i + j) % 32 = j by omega] at hbit
    · exact hreserved i j (Nat.not_lt.1 hq)
  · exact regWord_fieldWritten hp code hb i

/-- What CLOSE says of the registers, of the port's own and of the others'. -/
theorem PortReleased.spec (h : PortReleased p s t) (hp : t.params = s.params) (he : t.ext = s.ext) :
    field t p = s.params.fselInput ∧ renBit t p = false ∧ fenBit t p = false ∧ edsBit t p = false ∧
      SameWordsBut [.fsel, .eds, .ren, .fen] s t ∧
      (∀ i, regWord t .fsel i = fieldAt s.params.fselInput p i (regWord s .fsel i)) ∧
      (∀ b ∈ [Bank.eds, .ren, .fen], ∀ i, regWord t b i = bitClearedAt p i (regWord s b i)) ∧
      ∀ q < s.params.nports, q ≠ p → PortUntouched q s t := by
  have hown : ∀ b ∈ [Bank.eds, .ren, .fen], (regWord t b (p / 32)).getLsbD (p % 32) = false := by
    intro b hb
    rw [h b, if_neg (by rintro rfl; simp at hb), if_pos hb]
    exact bitClearedAt_self p _
  have hother : ∀ q, q ≠ p → ∀ b, b ≠ .fsel →
      (regWord t b (q / 32)).getLsbD (q % 32) = (regWord s b (q / 32)).getLsbD (q % 32) := by
    intro q hq b hb
    rw [h b, if_neg hb]
    split
    · exact bitClearedAt_other hq _
    · rfl
  refine ⟨?field, hown .ren (by simp), hown .fen (by simp), hown .eds (by simp), fun b hb i => ?others,
    fun i => ?fsel, fun b hb i => ?cleared, fun q hq hne => ?ports⟩
  case field =>
    change extractField p (regWord t .fsel (p / 10)) = _
    rw [h .fsel, if_pos rfl, fieldAt_eq, if_pos rfl, extractField_insertField]
  case others =>
    simp only [List.mem_cons, List.not_mem_nil, or_false, not_or] at hb
    simp [h b, hb]
  case fsel => rw [h .fsel, if_pos rfl]
  case cleared => rw [h b, if_neg (by rintro rfl; simp at hb), if_pos hb]
  case ports =>
    refine portUntouched_of_words hp he ?_ (hother q hne .set (by simp)) (hother q hne .eds (by simp))
      (hother q hne .ren (by simp)) (hother q hne .fen (by simp))
    change extractField q (regWord t .fsel (q / 10)) = _
    rw [h .fsel, if_pos rfl, fieldAt_eq]
    split
    · next hword => exact extractField_insertField_of_ne p q _ _ (by omega)
    · rfl

end

/-! ### Micro-steps that go on -/

/-- From `s` to `u` the acting caller has gone on to micro-step `k` of `i`, with the window, the handles and the
transitions as they were. -/
structure Carries (i : Instr) (k : MicroStep) (loc : Locals) (s u : State) : Prop where
  goesOn : GoesOn i k loc s u
  outside : SameOutside s u
  win : u.win = s.win
  handle : u.handle = s.handle
  busy : u.busy = s.busy

theorem SameOutside.params {s u : State} (h : SameOutside s u) : u.params = s.params := by
  obtain ⟨hparams, -⟩ := h
  exact hparams

theorem SameOutside.ext {s u : State} (h : SameOutside s u) : u.ext = s.ext := by
  obtain ⟨-, hext, -⟩ := h
  exact hext

theorem SameOutside.active {s u : State} (h : SameOutside s u) : u.active = s.active := by
  obtain ⟨-, -, -, hactive⟩ := h
  exact hactive

theorem GoesOn.trans {i j : Instr} {k k' : MicroStep} {loc loc' : Locals} {s u v : State} (h : GoesOn i k loc s u)
    (ha : u.active = s.active) (h' : GoesOn j k' loc' u v) : GoesOn j k' loc' s v := by
  obtain ⟨hlog, -, hothers⟩ := h
  obtain ⟨hlog', hcaller, hothers'⟩ := h'
  rw [ha] at hcaller hothers'
  exact ⟨hlog'.trans hlog, hcaller, fun c hc => (hothers' c hc).trans (hothers c hc)⟩

section
variable {i : Instr} {p : Nat} {k k' : MicroStep} {loc loc' : Locals} {s u v : State}

theorem Carries.trans (h : Carries i k loc s u) (h' : Carries i k' loc' u v) : Carries i k' loc' s v :=
  ⟨h.goesOn.trans h.outside.active h'.goesOn, h.outside.trans h'.outside, h'.win.trans h.win,
    h'.handle.trans h.handle, h'.busy.trans h.busy⟩

theorem Carries.position (h : Carries i k loc s u) : u.position i = .running k loc :=
  h.goesOn.position h.outside.active

/-- A register access, or none, after which the command goes on. -/
theorem RegStep.carries (h : RegStep s v) (i : Instr) (k : MicroStep) (loc : Locals) :
    Carries i k loc s (v.goto i k loc) where
  goesOn := goesOn_goto i k loc h.main h.callbacks h.log h.active
  outside := by simp [SameOutside, h.params, h.ext, h.inputs, h.active]
  win := by simp [h.win]
  handle := by simp [h.handle]
  busy := by simp [h.busy]

/-- A step of a port's watcher leaves the caller at the micro-step at which it stands. -/
theorem RegStep.carries_modifyWatch (h : RegStep s v) (hp : s.position i = .running k loc) (p : Nat)
    (f : WatchState → WatchState) : Carries i k loc s (v.modifyWatch p f) where
  goesOn := ⟨h.log, (caller_congr h.main h.callbacks _).trans (position_running.1 hp),
    fun c _ => caller_congr h.main h.callbacks c⟩
  outside := ⟨h.params, h.ext, h.inputs, h.active⟩
  win := h.win
  handle := h.handle
  busy := h.busy

theorem Carries.refl (hp : s.position i = .running k loc) : Carries i k loc s s :=
  ⟨⟨rfl, position_running.1 hp, fun _ _ => rfl⟩, ⟨rfl, rfl, rfl, rfl⟩, rfl, rfl, rfl⟩

/-- The micro-step of RemoveWatch goes on. -/
theorem carries_removeWatch (s : State) (i : Instr) (p : Nat) (k : MicroStep) (loc : Locals) :
    Carries i k loc s ((removeWatch p s).goto i k loc) where
  goesOn := goesOn_goto i k loc (by simp) (by simp) (by simp) (by simp)
  outside := by simp [SameOutside]
  win := by simp
  handle := by simp
  busy := by simp

end

theorem runs_append {i : Instr} {m n : Nat} {s u t : State} (h : runs i m s u) (h' : runs i n u t) :
    runs i (m + n) s t := by
  induction m generalizing s with
  | zero => obtain rfl := h; rwa [Nat.zero_add]
  | succ m ih =>
    obtain ⟨v, hexec, hrest⟩ := h
    rw [Nat.succ_add]
    exact ⟨v, hexec, ih hrest⟩

/-! ### DisableDetect (43_edge_watch.md R225) -/

/-- The error that a CLOSE or ENDWATCH keeps after an access on a window `w`: the first (43_edge_watch.md R225). -/
def keptError (w : WindowState) (err : Status) : Status :=
  match windowError w with
  | none => err
  | some e => if err = .ok then e else err

@[simp] theorem keptError_mapped (err : Status) : keptError .mapped err = err := rfl
@[simp] theorem keptError_failed_ok (e : WindowError) : keptError (.failed e) .ok = windowStatus e := rfl

/-- A second access on the same window adds no error. -/
@[simp] theorem keptError_idem (w : WindowState) (err : Status) : keptError w (keptError w err) = keptError w err := by
  unfold keptError
  cases windowError w with
  | none => rfl
  | some e => by_cases h : err = .ok <;> simp [h]

/-- The micro-step that follows DisableDetect. -/
def afterDisable (i : Instr) (hadWatch : Bool) : MicroStep :=
  match i with
  | .closePin _ => if hadWatch then .remove else .k5
  | _ => .remove

section
variable {i : Instr} {p : Port} {k : MicroStep} {loc : Locals} {s a : State}

/-- A register access of CLOSE or ENDWATCH: made on a mapped window, and in any case gone on from. -/
theorem tryAccess_carries {access : State → Option State} (ha : access s = some a) (hs : RegStep s a) :
    ∃ u, tryAccess access loc.err s (fun err t => t.goto i k { loc with err := err }) = .next u ∧
      Carries i k { loc with err := keptError s.win loc.err } s u ∧ u.watch = s.watch ∧
      (s.win = .mapped → u.regs = a.regs) ∧ (s.win ≠ .mapped → u.regs = s.regs) := by
  by_cases hw : s.win = .mapped
  · refine ⟨_, tryAccess_mapped hw ha, ?_, by simp [hs.watch], by simp, absurd hw⟩
    rw [hw]
    exact hs.carries i k loc
  · obtain ⟨e, he⟩ := Option.ne_none_iff_exists'.1 (mt windowError_eq_none.1 hw)
    refine ⟨_, tryAccess_failed he, ?_, by simp, (absurd · hw), by simp⟩
    simp only [keptError, he]
    exact (RegStep.refl s).carries ..

section
variable (hi : i = .closePin p ∨ i = .endWatch p)
include hi

/-- The micro-steps from StopWatch to D3 are the same in both commands. -/
theorem exec_closeOrEnd_running : s.position i = .running k loc → exec i s =
    match k with
    | .stop => stopWatch p.toNat s fun t => t.goto i .d1 loc
    | .d1 => disableRising i p.toNat loc s
    | .d2 => disableFalling i p.toNat loc s
    | .d3 => discardEvent i p.toNat loc (afterDisable i loc.hadWatch) s
    | .o2 | .b2 | .b3 | .b4 | .b5 | .remove | .k5 | .k6 => exec i s := by
  intro hp
  obtain rfl | rfl := hi
  · cases k with
    | stop | d1 | d2 | d3 => exact exec_close_running hp
    | _ => rfl
  · cases k with
    | stop | d1 | d2 | d3 => exact exec_endWatch_running hp
    | _ => rfl

theorem exec_stopWatch (hp : s.position i = .running .stop loc) (hw : watchStopped s p.toNat = true) :
    exec i s = .next (s.goto i .d1 loc) :=
  (exec_closeOrEnd_running hi hp).trans (by rw [stopWatch, if_pos hw])

/-- D1, D2 and D3: on a mapped window both enables and the EDS bit are cleared, on another no register is written. -/
theorem runs_disableDetect (hl : s.params.legal) (hr : p.toNat < s.params.nports)
    (hp : s.position i = .running .d1 loc) :
    ∃ u, runs i 3 s u ∧
      Carries i (afterDisable i loc.hadWatch) { loc with err := keptError s.win loc.err } s u ∧ u.watch = s.watch ∧
      (s.win = .mapped → BitsCleared [.eds, .ren, .fen] p.toNat s u) ∧ (s.win ≠ .mapped → u.regs = s.regs) := by
  obtain ⟨u1, h1, hc1, hw1, hm1, hf1⟩ :=
    tryAccess_carries (i := i) (k := .d2) (loc := loc) (clearPortBit_eq hl hr (b := .ren) rfl)
      (bitCleared_regStep hr rfl)
  have hpar1 := hc1.outside.params
  obtain ⟨u2, h2, hc2, hw2, hm2, hf2⟩ :=
    tryAccess_carries (i := i) (k := .d3) (loc := { loc with err := keptError s.win loc.err })
      (clearPortBit_eq (hpar1 ▸ hl) (hpar1 ▸ hr) (b := .fen) rfl) (bitCleared_regStep (hpar1 ▸ hr) rfl)
  rw [hc1.win] at hc2 hm2 hf2
  simp only [keptError_idem] at hc2
  have hpar2 := hc2.outside.params.trans hpar1
  obtain ⟨u3, h3, hc3, hw3, hm3, hf3⟩ :=
    tryAccess_carries (i := i) (k := afterDisable i loc.hadWatch)
      (loc := { loc with err := keptError s.win loc.err })
      (pulsePortBit_eq (hpar2 ▸ hl) (hpar2 ▸ hr) (b := .eds) rfl) (bitPulsed_regStep (hpar2 ▸ hr) rfl)
  rw [hc2.win, hc1.win] at hc3 hm3 hf3
  simp only [keptError_idem] at hc3
  have hruns : runs i 3 s u3 :=
    ⟨u1, (exec_closeOrEnd_running hi hp).trans h1, u2, (exec_closeOrEnd_running hi hc1.position).trans h2, u3,
      (exec_closeOrEnd_running hi hc2.position).trans h3, rfl⟩
  refine ⟨u3, hruns, (hc1.trans hc2).trans hc3, hw3.trans (hw2.trans hw1), fun hw => ?_,
    fun hw => (hf3 hw).trans ((hf2 hw).trans (hf1 hw))⟩
  have hren := (bitsCleared_bitCleared hr (b := .ren) rfl).congr rfl (hm1 hw)
  have hfen := (bitsCleared_bitCleared (s := u1) (hpar1 ▸ hr) (b := .fen) rfl).congr rfl (hm2 hw)
  have heds := (bitsCleared_bitPulsed_eds (s := u2) (hpar2 ▸ hr)).congr rfl (hm3 hw)
  exact ((hren.append hfen).append heds).of_mem_iff fun b => by cases b <;> decide

end
end

/-! ### The watcher that is told to stop (43_edge_watch.md R227, R229) -/

section
variable {i : Instr} {p n : Nat} {k : MicroStep} {loc : Locals} {s : State} {w : WatchState}

theorem watcherStep_stop (hw : s.watch.lookup p = some w) (hph : w.phase = .poll) (hs : w.stop = true) :
    watcherStep p s = .next (watcherStop p s) := by
  simp only [watcherStep, hw, hph, hs, if_true]

theorem watcherStep_clear (hl : s.params.legal) (hr : p < s.params.nports) (hm : s.win = .mapped)
    (hw : s.watch.lookup p = some w) (hph : w.phase = .clearing) :
    watcherStep p s = .next ((bitPulsed .eds p s).modifyWatch p fun w => { w with phase := .poll }) := by
  simp only [watcherStep, hw, hph, watcherClear, hm, windowError_mapped]
  rw [pulsePortBit_eq hl hr rfl, afterWrite_some]
  rfl

/-- The watcher takes the steps it has left: its watch is stopped, and from Clearing the port's event is cleared. -/
theorem watcherRuns_stop (hp : s.position i = .running k loc) (hl : s.params.legal) (hr : p < s.params.nports)
    (hw : s.watch.lookup p = some w) (hs : w.stop = true) (hn : stepsToStop w.phase = some n)
    (hc : w.phase = .clearing → s.win = .mapped) :
    ∃ u, watcherRuns p n s u ∧ Carries i k loc s u ∧ watchStopped u p = true ∧
      (∀ q, q ≠ p → u.watch.lookup q = s.watch.lookup q) ∧
      (w.phase = .clearing → BitsCleared [.eds] p s u) ∧ (w.phase ≠ .clearing → u.regs = s.regs) := by
  cases hph : w.phase with
  | starting | inCallback => rw [hph] at hn; cases hn
  | stopped =>
    rw [hph] at hn
    cases hn
    exact ⟨s, rfl, .refl hp, by simp [watchStopped, hw, hph], fun _ _ => rfl, nofun, fun _ => rfl⟩
  | poll =>
    rw [hph] at hn
    cases hn
    exact ⟨_, ⟨_, watcherStep_stop hw hph hs, rfl⟩, (RegStep.refl s).carries_modifyWatch hp p _,
      by simp [watchStopped, watcherStop, hw], fun q hq => by simp [watcherStop, hq], nofun, fun _ => rfl⟩
  | clearing =>
    rw [hph] at hn
    cases hn
    have hstep : RegStep s (bitPulsed .eds p s) := bitPulsed_regStep hr rfl
    have hcarries := hstep.carries_modifyWatch hp p fun w => { w with phase := .poll }
    have hpoll : ((bitPulsed .eds p s).modifyWatch p fun w => { w with phase := .poll }).watch.lookup p =
        some { w with phase := .poll } := by simp [hstep.watch, hw]
    refine ⟨_, ⟨_, watcherStep_clear hl hr (hc hph) hw hph, _, watcherStep_stop hpoll rfl hs, rfl⟩,
      hcarries.trans ((RegStep.refl _).carries_modifyWatch hcarries.position p _), ?_, fun q hq => ?_, fun _ => ?_,
      nofun⟩
    · simp [watchStopped, watcherStop, hstep.watch, hw]
    · simp [watcherStop, hstep.watch, hq]
    · exact (bitsCleared_bitPulsed_eds hr).congr rfl rfl

end

/-- Once the stop is signalled: the watcher stops, and the command goes on to RemoveWatch. -/
theorem runs_stopWatch {i : Instr} {p : Port} {n : Nat} {loc : Locals} {s : State} {w : WatchState}
    (hi : i = .closePin p ∨ i = .endWatch p) (hp : s.position i = .running .stop loc) (hl : s.params.legal)
    (hr : p.toNat < s.params.nports) (hw : s.watch.lookup p.toNat = some w) (hs : w.stop = true)
    (hn : stepsToStop w.phase = some n) (hc : w.phase = .clearing → s.win = .mapped) :
    ∃ s2 u, watcherRuns p.toNat n s s2 ∧ runs i 4 s2 u ∧
      Carries i (afterDisable i loc.hadWatch) { loc with err := keptError s.win loc.err } s u ∧
      watchStopped u p.toNat = true ∧ (∀ q, q ≠ p.toNat → u.watch.lookup q = s.watch.lookup q) ∧
      (s.win = .mapped → BitsCleared [.eds, .ren, .fen] p.toNat s u) ∧ (s.win ≠ .mapped → u.regs = s.regs) := by
  obtain ⟨s2, hruns, hc2, hstopped, hothers, hcleared, hkept⟩ := watcherRuns_stop hp hl hr hw hs hn hc
  have hc3 := (RegStep.refl s2).carries i .d1 loc
  have hpar := (hc2.trans hc3).outside.params
  obtain ⟨u, hruns', hc4, hwatch, hm, hf⟩ :=
    runs_disableDetect hi (hpar ▸ hl) (hpar ▸ hr) hc3.position
  rw [hc3.win, hc2.win] at hc4 hm hf
  have hwatch' : u.watch = s2.watch := by simpa using hwatch
  refine ⟨s2, u, hruns, ⟨_, exec_stopWatch hi hc2.position hstopped, hruns'⟩, (hc2.trans hc3).trans hc4, ?_, ?_,
    fun hwin => ?_, fun hwin => ?_⟩
  · rwa [watchStopped_congr (s := s2) (by rw [hwatch'])]
  · intro q hq
    rw [hwatch', hothers q hq]
  · have hdisabled := (hm hwin).congr (s' := s2) (by simp) rfl
    by_cases hph : w.phase = .clearing
    · exact ((hcleared hph).append hdisabled).of_mem_iff fun b => by cases b <;> decide
    · exact hdisabled.congr (hkept hph).symm rfl
  · have hph : w.phase ≠ .clearing := fun h => hwin (hc h)
    rw [hf hwin, State.goto_regs, hkept hph]

end Sys2Proof.Machine
end

section
/-! PROOF. O35 to O37 and O42, CLOSE, and ENDWATCH where it raises or the window has failed (42_pin_handle.md R186,
43_edge_watch.md R223). -/

namespace Sys2Proof.Machine

/-! ### The errors of the first micro-step (60_exceptions.md R259) -/

section
variable {p : Port} {e : Status} {s : State}

theorem exec_close_raise (hp : s.position (.closePin p) = .start)
    (he : firstError [unmappedCheck s, rangeCheck s p, openCheck s p] = some e) :
    exec (.closePin p) s = .next (raise (.closePin p) e s) := by
  change execClose p s = _
  simp only [execClose, hp, closeBegin, he]

theorem exec_endWatch_raise (hp : s.position (.endWatch p) = .start) (he : endWatchError s p = some e) :
    exec (.endWatch p) s = .next (raise (.endWatch p) e s) := by
  change execEndWatch p s = _
  simp only [execEndWatch, hp, watchEnd, he]

/-- An error of the three checks that CLOSE makes is one of ENDWATCH too, which makes them first. -/
theorem exec_closeOrEnd_raise {i : Instr} (hp : s.position i = .start) (hi : i = .closePin p ∨ i = .endWatch p)
    (he : firstError [unmappedCheck s, rangeCheck s p, openCheck s p] = some e) :
    exec i s = .next (raise i e s) := by
  have hend : endWatchError s p = some e := by
    unfold endWatchError
    cases h1 : unmappedCheck s <;> cases h2 : rangeCheck s p <;> cases h3 : openCheck s p <;> simp_all
  obtain rfl | rfl := hi
  · exact exec_close_raise hp he
  · exact exec_endWatch_raise hp hend

end

/-- Settles O42: the checks come before any effect, in the order of the statement's clauses. -/
theorem closeAndEndWatchRaise : Obligations.CloseAndEndWatchRaise := by
  intro i p s hi hcmd
  obtain ⟨-, hp⟩ := hi
  refine ⟨fun hw => ?unmapped, fun hw hr => ?range, fun hw hr h => ?notOpen⟩
  case unmapped =>
    exact ⟨_, exec_closeOrEnd_raise hp hcmd (by simp [unmappedCheck, hw]), raise_spec i .invalidOperation s⟩
  case range =>
    have he : firstError [unmappedCheck s, rangeCheck s p, openCheck s p] = some .outOfRange := by
      simp [unmappedCheck_none.2 hw, rangeCheck_outOfRange hr]
    exact ⟨_, exec_closeOrEnd_raise hp hcmd he, raise_spec i .outOfRange s⟩
  case notOpen =>
    refine ⟨raise i .invalidOperation s, ?_, raise_spec i .invalidOperation s⟩
    by_cases hclosed : s.handle.lookup p.toNat = none ∨ s.busy.has p.toNat = true
    · exact exec_closeOrEnd_raise hp hcmd
        (by simp [unmappedCheck_none.2 hw, rangeCheck_none.2 hr, openCheck_invalid hclosed])
    · obtain ⟨rfl, hn⟩ : i = .endWatch p ∧ s.watch.lookup p.toNat = none := by tauto
      have ho : openCheck s p = none := openCheck_none.2 (isOpen_iff.2 (by simpa using hclosed))
      exact exec_endWatch_raise hp (by
        simp [endWatchError, unmappedCheck_none.2 hw, rangeCheck_none.2 hr, ho, hn])

/-! ### CLOSE (42_pin_handle.md R186) -/

/-- What CLOSE leaves of all but the log, the callers and the watches: the port has no handle and is not in transition,
and its registers are released where the window let them be written. -/
structure Closed (p : Nat) (s t : State) : Prop where
  outside : SameOutside s t
  win : t.win = s.win
  handle : t.handle.lookup p = none
  busy : t.busy.has p = false
  others : ∀ q, q ≠ p → t.handle.lookup q = s.handle.lookup q ∧ t.busy.has q = s.busy.has q
  released : s.win = .mapped → PortReleased p s t
  kept : s.win ≠ .mapped → t.regs = s.regs

section
variable {p : Port} {loc : Locals} {s u t : State}

/-- K5 and K6 of a CLOSE that has gone on from `s`. -/
theorem runs_closeEnd (hl : s.params.legal) (hr : p.toNat < s.params.nports)
    (hc : Carries (.closePin p) .k5 { loc with err := keptError s.win loc.err } s u)
    (hm : s.win = .mapped → BitsCleared [.eds, .ren, .fen] p.toNat s u) (hf : s.win ≠ .mapped → u.regs = s.regs) :
    ∃ t, runs (.closePin p) 2 u t ∧ Responds (.closePin p) (keptError s.win loc.err) 0 s t ∧
      Closed p.toNat s t ∧ t.watch = u.watch := by
  have hpar := hc.outside.params
  obtain ⟨v, hexec, hcv, hwv, hmv, hfv⟩ :=
    tryAccess_carries (i := .closePin p) (k := .k6) (loc := { loc with err := keptError s.win loc.err })
      (writeField_eq (hpar ▸ hl) (hpar ▸ hr) u.params.fselInput) (fieldWritten_regStep (hpar ▸ hr) _)
  rw [hc.win] at hcv hmv hfv
  simp only [keptError_idem] at hcv
  have hk5 : exec (.closePin p) u = .next v := (exec_close_running hc.position).trans hexec
  have hk6 : exec (.closePin p) v = .next (closeRelease p { loc with err := keptError s.win loc.err } v) :=
    exec_close_running hcv.position
  have hall := hc.trans hcv
  refine ⟨_, ⟨v, hk5, _, hk6, rfl⟩,
    hall.goesOn.responds hall.outside.active (responds_respond _ _ 0 rfl rfl rfl rfl), ?_, by simp [closeRelease, hwv]⟩
  have hregs : (closeRelease p { loc with err := keptError s.win loc.err } v).regs = v.regs := by simp [closeRelease]
  constructor
  case outside => exact hall.outside.trans (by simp [SameOutside, closeRelease])
  case win => simp [closeRelease, hall.win]
  case handle => simp [closeRelease]
  case busy => simp [closeRelease]
  case others => exact fun q hq => by simp [closeRelease, hall.handle, hall.busy, hq]
  case kept => exact fun hw => hregs.trans ((hfv hw).trans (hf hw))
  case released =>
    intro hw b i
    have hcleared := hm hw
    have hquiet := regWord_fieldWritten_quiet (s := u) (hpar ▸ hr) u.params.fselInput
      (hcleared.bit (b := .ren) (by simp)) (hcleared.bit (b := .fen) (by simp))
    have hfsel : regWord u .fsel i = regWord s .fsel i := by rw [hcleared .fsel, if_neg (by simp)]
    rw [regWord_congr (hregs.trans (hmv hw))]
    refine (hquiet b i).trans ?_
    rw [hpar, hfsel, hcleared b]

/-- The transition that K1 began is over at the end of CLOSE, so CLOSE is the same from before K1. -/
theorem Closed.of_begun {p : Nat} (h : Closed p u t) (hout : SameOutside s u) (hw : u.win = s.win)
    (hregs : u.regs = s.regs) (hh : u.handle = s.handle) (hb : u.busy = s.busy.mark p true) : Closed p s t := by
  constructor
  case outside => exact hout.trans h.outside
  case win => exact h.win.trans hw
  case handle => exact h.handle
  case busy => exact h.busy
  case others =>
    intro q hq
    obtain ⟨h1, h2⟩ := h.others q hq
    exact ⟨by rw [h1, hh], by simp [h2, hb, hq]⟩
  case released =>
    intro hm b i
    rw [h.released (hw.trans hm), hout.params, regWord_congr hregs, regWord_congr hregs]
  case kept => exact fun hm => (h.kept (hw ▸ hm)).trans hregs

/-- CLOSE, not interrupted, of an open port with no watch. -/
theorem runs_close_unwatched (hl : s.params.legal) (hp : s.position (.closePin p) = .start) (hw : s.win ≠ .unmapped)
    (hr : p.toNat < s.params.nports) (hh : s.handle.lookup p.toNat ≠ none) (hb : s.busy.has p.toNat = false)
    (hn : s.watch.lookup p.toNat = none) :
    ∃ s1 t, exec (.closePin p) s = .next s1 ∧ runs (.closePin p) 5 s1 t ∧
      Responds (.closePin p) (keptError s.win .ok) 0 s t ∧ Closed p.toNat s t ∧ t.watch = s.watch := by
  have hk1 := exec_close_k1 hp hw hr hh hb
  rw [hn, if_neg (by simp)] at hk1
  have hgoes : GoesOn (.closePin p) .d1 ⟨false, .ok⟩ s
      ((s.setBusy p.toNat true).goto (.closePin p) .d1 ⟨false, .ok⟩) := goesOn_goto _ _ _ rfl rfl rfl rfl
  generalize hs1 : (s.setBusy p.toNat true).goto (.closePin p) .d1 ⟨false, .ok⟩ = s1 at hk1 hgoes
  have hout : SameOutside s s1 := by simp [← hs1, SameOutside]
  have hwin : s1.win = s.win := by simp [← hs1]
  have hpar := hout.params
  obtain ⟨u, hruns, hc, hwatch, hm, hf⟩ :=
    runs_disableDetect (.inl rfl) (hpar ▸ hl) (hpar ▸ hr) (hgoes.position hout.active)
  obtain ⟨t, hruns', hresp, hclosed, hwatch'⟩ := runs_closeEnd (hpar ▸ hl) (hpar ▸ hr) hc hm hf
  rw [hwin] at hresp
  refine ⟨s1, t, hk1, runs_append hruns hruns', hgoes.responds hout.active hresp,
    hclosed.of_begun hout hwin (by simp [← hs1]) (by simp [← hs1]) (by simp [← hs1]), ?_⟩
  rw [hwatch', hwatch]
  simp [← hs1]

/-- CLOSE, not interrupted but by the steps its port's watcher has left, of an open port with a watch. -/
theorem runs_close_watched {w : WatchState} {n : Nat} (hl : s.params.legal) (hp : s.position (.closePin p) = .start)
    (hw : s.win ≠ .unmapped) (hr : p.toNat < s.params.nports) (hh : s.handle.lookup p.toNat ≠ none)
    (hb : s.busy.has p.toNat = false) (hwa : s.watch.lookup p.toNat = some w) (hn : stepsToStop w.phase = some n)
    (hc : w.phase = .clearing → s.win = .mapped) :
    ∃ s1 s2 t, exec (.closePin p) s = .next s1 ∧ watcherRuns p.toNat n s1 s2 ∧ runs (.closePin p) 7 s2 t ∧
      Responds (.closePin p) (keptError s.win .ok) 0 s t ∧ Closed p.toNat s t ∧
      t.watch.lookup p.toNat = none ∧ ∀ q, q ≠ p.toNat → t.watch.lookup q = s.watch.lookup q := by
  have hk1 := exec_close_k1 hp hw hr hh hb
  rw [hwa, if_pos (by simp)] at hk1
  have hgoes : GoesOn (.closePin p) .stop ⟨true, .ok⟩ s
      ((signalStop p.toNat (s.setBusy p.toNat true)).goto (.closePin p) .stop ⟨true, .ok⟩) :=
    goesOn_goto _ _ _ rfl rfl rfl rfl
  generalize hs1 : (signalStop p.toNat (s.setBusy p.toNat true)).goto (.closePin p) .stop ⟨true, .ok⟩ = s1
    at hk1 hgoes
  have hout : SameOutside s s1 := by simp [← hs1, SameOutside, signalStop]
  have hwin : s1.win = s.win := by simp [← hs1, signalStop]
  have hpar := hout.params
  have hsignal : s1.watch.lookup p.toNat = some { w with stop := true } := by simp [← hs1, signalStop, hwa]
  obtain ⟨s2, u, hwruns, hruns, hcu, hstopped, hothers, hm, hf⟩ :=
    runs_stopWatch (.inl rfl) (hgoes.position hout.active) (hpar ▸ hl) (hpar ▸ hr) hsignal rfl hn (hwin ▸ hc)
  have hremove := exec_close_running hcu.position
  have hcr := hcu.trans (carries_removeWatch u (.closePin p) p.toNat .k5 ⟨true, keptError s1.win .ok⟩)
  obtain ⟨t, hruns', hresp, hclosed, hwatch⟩ := runs_closeEnd (loc := ⟨true, .ok⟩) (hpar ▸ hl) (hpar ▸ hr) hcr
    (fun h => (hm h).congr rfl (by simp)) (fun h => by simpa using hf h)
  rw [hwin] at hresp
  refine ⟨s1, s2, t, hk1, hwruns, runs_append (n := 3) hruns ⟨_, hremove, hruns'⟩, hgoes.responds hout.active hresp,
    hclosed.of_begun hout hwin (by simp [← hs1, signalStop]) (by simp [← hs1, signalStop])
      (by simp [← hs1, signalStop]), ?_, fun q hq => ?_⟩
  · rw [hwatch]
    simp [removeWatch_lookup, hstopped]
  · rw [hwatch]
    simp only [State.goto_watch, removeWatch_lookup, hq, false_and, if_false, hothers q hq]
    simp [← hs1, signalStop, hq]

theorem Closed.sameOtherPorts {p : Nat} (h : Closed p s t)
    (hw : ∀ q, q ≠ p → t.watch.lookup q = s.watch.lookup q) : SameOtherPorts p s t := by
  intro q hq
  obtain ⟨hhandle, hbusy⟩ := h.others q hq
  exact ⟨hhandle, hbusy, hw q hq⟩

end

/-- Settles O35: no error is kept on a mapped window, and each of the accesses is made. -/
theorem closeCompletes : Obligations.CloseCompletes := by
  intro p s hi hw hr hh hb hn
  obtain ⟨hl, hp⟩ := hi
  obtain ⟨s1, t, hexec, hruns, hresp, hclosed, hwatch⟩ := runs_close_unwatched hl hp (by simp [hw]) hr hh hb hn
  rw [hw, keptError_mapped] at hresp
  exact ⟨s1, t, hexec, hruns, hresp, hclosed.handle, hclosed.busy, hwatch, hclosed.win,
    hclosed.sameOtherPorts fun _ _ => by rw [hwatch], hclosed.outside,
    (hclosed.released hw).spec hclosed.outside.params hclosed.outside.ext⟩

/-- Settles O36: the watcher's own clear, where it makes one, is of the bit that D3 clears again. -/
theorem closeStopsWatch : Obligations.CloseStopsWatch := by
  intro p s w n hi hw hr hh hb hwa hn
  obtain ⟨hl, hp⟩ := hi
  obtain ⟨s1, s2, t, hexec, hwruns, hruns, hresp, hclosed, hgone, hothers⟩ :=
    runs_close_watched hl hp (by simp [hw]) hr hh hb hwa hn fun _ => hw
  rw [hw, keptError_mapped] at hresp
  exact ⟨s1, s2, t, hexec, hwruns, hruns, hresp, hclosed.handle, hclosed.busy, hgone, hclosed.win,
    hclosed.sameOtherPorts hothers, hclosed.outside,
    (hclosed.released hw).spec hclosed.outside.params hclosed.outside.ext⟩

/-! ### ENDWATCH (43_edge_watch.md R223) -/

/-- ENDWATCH, not interrupted but by the steps its port's watcher has left, of an open port with a watch. -/
theorem runs_endWatch {p : Port} {s : State} {w : WatchState} {n : Nat} (hl : s.params.legal)
    (hp : s.position (.endWatch p) = .start) (hw : s.win ≠ .unmapped) (hr : p.toNat < s.params.nports)
    (hh : s.handle.lookup p.toNat ≠ none) (hb : s.busy.has p.toNat = false)
    (hwa : s.watch.lookup p.toNat = some w) (hn : stepsToStop w.phase = some n)
    (hc : w.phase = .clearing → s.win = .mapped) :
    ∃ s1 s2 t, exec (.endWatch p) s = .next s1 ∧ watcherRuns p.toNat n s1 s2 ∧ runs (.endWatch p) 5 s2 t ∧
      Responds (.endWatch p) (keptError s.win .ok) 0 s t ∧ t.watch.lookup p.toNat = none ∧ t.handle = s.handle ∧
      t.busy = s.busy ∧ t.win = s.win ∧ SameOtherPorts p.toNat s t ∧ SameOutside s t ∧
      (s.win = .mapped → BitsCleared [.eds, .ren, .fen] p.toNat s t) ∧ (s.win ≠ .mapped → t.regs = s.regs) := by
  have he1 := exec_endWatch_e1 hp hw hr hh hb (by simp [hwa])
  have hbegun : Carries (.endWatch p) .stop ⟨true, .ok⟩ s
      ((signalStop p.toNat s).goto (.endWatch p) .stop ⟨true, .ok⟩) :=
    ⟨goesOn_goto _ _ _ rfl rfl rfl rfl, by simp [SameOutside, signalStop], by simp [signalStop], by simp [signalStop],
      by simp [signalStop]⟩
  generalize hs1 : (signalStop p.toNat s).goto (.endWatch p) .stop ⟨true, .ok⟩ = s1 at he1 hbegun
  have hpar := hbegun.outside.params
  have hregs : s1.regs = s.regs := by simp [← hs1, signalStop]
  have hsignal : s1.watch.lookup p.toNat = some { w with stop := true } := by simp [← hs1, signalStop, hwa]
  obtain ⟨s2, u, hwruns, hruns, hcu, hstopped, hothers, hm, hf⟩ :=
    runs_stopWatch (.inr rfl) hbegun.position (hpar ▸ hl) (hpar ▸ hr) hsignal rfl hn (hbegun.win ▸ hc)
  have hremove := exec_endWatch_running hcu.position
  have hall := hbegun.trans hcu
  rw [hbegun.win] at hremove hm hf
  refine ⟨s1, s2, _, he1, hwruns, runs_append (n := 1) hruns ⟨_, hremove, rfl⟩,
    hall.goesOn.responds hall.outside.active (responds_respond _ _ _ (by simp) (by simp) (by simp) (by simp)),
    by simp [removeWatch_lookup, hstopped], by simp [hall.handle], by simp [hall.busy], by simp [hall.win],
    fun q hq => ?others, hall.outside.trans (by simp [SameOutside]), fun h => (hm h).congr hregs.symm (by simp),
    fun h => ?kept⟩
  case others =>
    refine ⟨by simp [hall.handle], by simp [hall.busy], ?_⟩
    simp only [State.respond_watch, removeWatch_lookup, hq, false_and, if_false, hothers q hq]
    simp [← hs1, signalStop, hq]
  case kept => simp [hf h, hregs]

/-- Settles O37: the accesses are left out, and the window's failure is the error that is kept. -/
theorem closeAndEndWatchWithFailedWindow : Obligations.CloseAndEndWatchWithFailedWindow := by
  intro p s e hw hr hh hb
  have hunmapped : s.win ≠ .unmapped := by simp [hw]
  have hmapped : s.win ≠ .mapped := by simp [hw]
  refine ⟨fun ⟨hl, hp⟩ hn => ?close, fun w n ⟨hl, hp⟩ hwa hph hn => ?watched, fun w n ⟨hl, hp⟩ hwa hph hn => ?ended⟩
  case close =>
    obtain ⟨s1, t, hexec, hruns, hresp, hclosed, hwatch⟩ := runs_close_unwatched hl hp hunmapped hr hh hb hn
    rw [hw, keptError_failed_ok] at hresp
    exact ⟨s1, t, hexec, hruns, hresp, hclosed.handle, hclosed.busy, hwatch, hclosed.kept hmapped, hclosed.win,
      hclosed.sameOtherPorts fun _ _ => by rw [hwatch], hclosed.outside⟩
  case watched =>
    obtain ⟨s1, s2, t, hexec, hwruns, hruns, hresp, hclosed, hgone, hothers⟩ :=
      runs_close_watched hl hp hunmapped hr hh hb hwa hn (absurd · hph)
    rw [hw, keptError_failed_ok] at hresp
    exact ⟨s1, s2, t, hexec, hwruns, hruns, hresp, hclosed.handle, hclosed.busy, hgone, hclosed.kept hmapped,
      hclosed.win, hclosed.sameOtherPorts hothers, hclosed.outside⟩
  case ended =>
    obtain ⟨s1, s2, t, hexec, hwruns, hruns, hresp, hgone, hhandle, hbusy, hwin, hothers, hout, -, hregs⟩ :=
      runs_endWatch hl hp hunmapped hr hh hb hwa hn (absurd · hph)
    rw [hw, keptError_failed_ok] at hresp
    exact ⟨s1, s2, t, hexec, hwruns, hruns, hresp, hgone, hhandle, hbusy, hregs hmapped, hwin, hothers, hout⟩

end Sys2Proof.Machine
end

section
/-! PROOF. O38 to O41 and O43, BEGINWATCH, and ENDWATCH where it completes (43_edge_watch.md R221 to R225). -/

namespace Sys2Proof.Machine

/-! ### What becomes of the registers -/

/-- The registers of `u` are those of `s` with port `p`'s bit set in each bank of `bs`. -/
def BitsSet (bs : List Bank) (p : Nat) (s u : State) : Prop :=
  ∀ b i, regWord u b i = if b ∈ bs then bitSetAt p i (regWord s b i) else regWord s b i

/-- The enable banks of the edges that a kind watches (30_encoding.md R99). -/
def enablesOf : EdgeKind → List Bank
  | .rising => [.ren]
  | .falling => [.fen]
  | .both => [.ren, .fen]

/-- The registers of `t` are those of `s` with no event of port `p` and with its enables of kind `k` set. -/
def DetectEnabled (k : EdgeKind) (p : Nat) (s t : State) : Prop :=
  ∀ b i, regWord t b i =
    if b = .eds then bitClearedAt p i (regWord s .eds i)
    else if b ∈ enablesOf k then bitSetAt p i (regWord s b i) else regWord s b i

theorem ren_mem_enablesOf {k : EdgeKind} : .ren ∈ enablesOf k ↔ k = .rising ∨ k = .both := by
  cases k <;> simp [enablesOf]

theorem fen_mem_enablesOf {k : EdgeKind} : .fen ∈ enablesOf k ↔ k = .falling ∨ k = .both := by
  cases k <;> simp [enablesOf]

/-- A kind enables detection in the enable banks alone. -/
theorem mem_enable_banks {k : EdgeKind} {b : Bank} (h : b ∈ enablesOf k) : b = .ren ∨ b = .fen := by
  revert h
  cases k <;> simp +contextual [enablesOf]

theorem bitSetAt_idem (p i : Nat) (w : Word) : bitSetAt p i (bitSetAt p i w) = bitSetAt p i w := by
  unfold bitSetAt
  split
  · rw [BitVec.or_assoc, BitVec.or_self]
  · rfl

theorem bitSetAt_self (p : Nat) (w : Word) : (bitSetAt p (p / 32) w).getLsbD (p % 32) = true := by
  rw [bitSetAt, if_pos rfl, ← BitVec.twoPow_eq]
  exact or_portBit_self w p

/-- The port's own bit where it may have been set. -/
theorem bitSetAt_if_self (c : Prop) [Decidable c] (p : Nat) (w : Word) :
    (if c then bitSetAt p (p / 32) w else w).getLsbD (p % 32) = (decide c || w.getLsbD (p % 32)) := by
  by_cases h : c <;> simp [h, bitSetAt_self]

theorem bitSetAt_other {p q : Nat} (h : q ≠ p) (w : Word) :
    (bitSetAt p (q / 32) w).getLsbD (q % 32) = w.getLsbD (q % 32) := by
  unfold bitSetAt
  split
  · next hw =>
    rw [← BitVec.twoPow_eq]
    exact or_portBit_other w (bit_ne_of_word_eq h hw)
  · rfl

/-- A port is untouched where its field's word and its bit of every bank are as they were. -/
theorem portUntouched_of_bits {q : Nat} {s t : State} (hp : t.params = s.params) (he : t.ext = s.ext)
    (hf : ∀ i, regWord t .fsel i = regWord s .fsel i)
    (hb : ∀ b, (regWord t b (q / 32)).getLsbD (q % 32) = (regWord s b (q / 32)).getLsbD (q % 32)) :
    PortUntouched q s t :=
  portUntouched_of_words hp he (field_congr (hf _)) (hb .set) (hb .eds) (hb .ren) (hb .fen)

section
variable {p : Nat} {s u t : State} {bs cs : List Bank} {k : EdgeKind}

/-- One setting after another sets the bits of both. -/
theorem BitsSet.append (h : BitsSet bs p s u) (h' : BitsSet cs p u t) : BitsSet (bs ++ cs) p s t := by
  intro b i
  rw [h' b i, h b i]
  by_cases hb : b ∈ bs <;> by_cases hc : b ∈ cs <;> simp [hb, hc, bitSetAt_idem]

theorem bitsSet_bitSet (hp : p < s.params.nports) {b : Bank} (hb : b.acceptsBitWrite = true) :
    BitsSet [b] p s (bitSet b p s) := by
  intro b' i
  rw [regWord_bitSet hp hb]
  by_cases h : b' = b
  · subst h; simp
  · simp [h]

/-- `BitsSet` reads the registers alone. -/
theorem BitsSet.congr {s' u' : State} (h : BitsSet bs p s u) (hs : s'.regs = s.regs) (hu : u'.regs = u.regs) :
    BitsSet bs p s' u' := by
  intro b i
  rw [regWord_congr hs, regWord_congr hu, h b i]

/-- The event is discarded first, and then the enables of the kind are set. -/
theorem detectEnabled_of_bits (h : BitsCleared [.eds] p s u) (h' : BitsSet (enablesOf k) p u t) :
    DetectEnabled k p s t := by
  intro b i
  rw [h' b i, h b i]
  by_cases hb : b = .eds
  · subst hb
    have hnot : Bank.eds ∉ enablesOf k := fun hm => by simpa using mem_enable_banks hm
    simp [hnot]
  · simp [hb]

/-- `DetectEnabled` reads the registers alone. -/
theorem DetectEnabled.congr {s' t' : State} (h : DetectEnabled k p s t) (hs : s'.regs = s.regs)
    (ht : t'.regs = t.regs) : DetectEnabled k p s' t' := by
  intro b i
  rw [regWord_congr hs, regWord_congr hs, regWord_congr ht, h b i]

/-- What BEGINWATCH says of the registers, of the port's own and of the others'. -/
theorem DetectEnabled.spec (h : DetectEnabled k p s t) (hp : t.params = s.params) (he : t.ext = s.ext) :
    edsBit t p = false ∧
      renBit t p = (decide (k = .rising ∨ k = .both) || renBit s p) ∧
      fenBit t p = (decide (k = .falling ∨ k = .both) || fenBit s p) ∧
      SameWordsBut [.eds, .ren, .fen] s t ∧
      (∀ i, regWord t .eds i = bitClearedAt p i (regWord s .eds i)) ∧
      (∀ i, regWord t .ren i = if k = .rising ∨ k = .both then bitSetAt p i (regWord s .ren i) else regWord s .ren i) ∧
      (∀ i, regWord t .fen i = if k = .falling ∨ k = .both then bitSetAt p i (regWord s .fen i) else regWord s .fen i) ∧
      ∀ q < s.params.nports, q ≠ p → PortUntouched q s t := by
  have heds : ∀ i, regWord t .eds i = bitClearedAt p i (regWord s .eds i) := fun i => by rw [h .eds, if_pos rfl]
  have hren : ∀ i, regWord t .ren i =
      if k = .rising ∨ k = .both then bitSetAt p i (regWord s .ren i) else regWord s .ren i := fun i => by
    simp only [h .ren, ren_mem_enablesOf, reduceCtorEq, if_false]
  have hfen : ∀ i, regWord t .fen i =
      if k = .falling ∨ k = .both then bitSetAt p i (regWord s .fen i) else regWord s .fen i := fun i => by
    simp only [h .fen, fen_mem_enablesOf, reduceCtorEq, if_false]
  have hsame : SameWordsBut [.eds, .ren, .fen] s t := by
    intro b hb i
    simp only [List.mem_cons, List.not_mem_nil, or_false, not_or] at hb
    obtain ⟨hne, hnr, hnf⟩ := hb
    rw [h b, if_neg hne, if_neg fun hm => (mem_enable_banks hm).elim hnr hnf]
  refine ⟨?own_eds, ?own_ren, ?own_fen, hsame, heds, hren, hfen, fun q _ hq => ?ports⟩
  case own_eds => exact (congrArg (·.getLsbD (p % 32)) (heds _)).trans (bitClearedAt_self p _)
  case own_ren => exact (congrArg (·.getLsbD (p % 32)) (hren _)).trans (bitSetAt_if_self _ p _)
  case own_fen => exact (congrArg (·.getLsbD (p % 32)) (hfen _)).trans (bitSetAt_if_self _ p _)
  case ports =>
    refine portUntouched_of_bits hp he (hsame .fsel (by simp)) fun b => ?_
    rw [h b]
    split
    · next hb => subst hb; exact bitClearedAt_other hq _
    · split
      · exact bitSetAt_other hq _
      · rfl

/-- What ENDWATCH says of the registers, of the port's own and of the others'. -/
theorem BitsCleared.spec (h : BitsCleared [.eds, .ren, .fen] p s t) (hp : t.params = s.params) (he : t.ext = s.ext) :
    renBit t p = false ∧ fenBit t p = false ∧ edsBit t p = false ∧ SameWordsBut [.eds, .ren, .fen] s t ∧
      (∀ b ∈ [Bank.eds, .ren, .fen], ∀ i, regWord t b i = bitClearedAt p i (regWord s b i)) ∧
      ∀ q < s.params.nports, q ≠ p → PortUntouched q s t := by
  have hsame : SameWordsBut [.eds, .ren, .fen] s t := fun b hb i => by rw [h b, if_neg hb]
  refine ⟨h.bit (b := .ren) (by simp), h.bit (b := .fen) (by simp), h.bit (b := .eds) (by simp), hsame,
    fun b hb i => by rw [h b, if_pos hb],
    fun q _ hq => portUntouched_of_bits hp he (hsame .fsel (by simp)) fun b => ?_⟩
  rw [h b]
  split
  · exact bitClearedAt_other hq _
  · rfl

end

/-! ### BEGINWATCH (43_edge_watch.md R221, R222) -/

section
variable {k : EdgeKind} {p : Port} {cb : Word} {loc : Locals} {s : State}

/-- B3 or B4 on a mapped window: the enable of one edge is set. -/
theorem exec_beginWatch_enables {m m' : MicroStep} {b : Bank} (hl : s.params.legal) (hw : s.win = .mapped)
    (hr : p.toNat < s.params.nports) (hp : s.position (.beginWatch k p cb) = .running m loc)
    (hm : (m = .b3 ∧ b = .ren ∧ m' = afterRising k) ∨ (m = .b4 ∧ b = .fen ∧ m' = .b5)) :
    ∃ u, exec (.beginWatch k p cb) s = .next u ∧ Carries (.beginWatch k p cb) m' loc s u ∧ u.watch = s.watch ∧
      BitsSet [b] p.toNat s u := by
  have hb : b.acceptsBitWrite = true := by obtain ⟨-, rfl, -⟩ | ⟨-, rfl, -⟩ := hm <;> rfl
  have hstep := bitSet_regStep hr hb
  have hexec := exec_beginWatch_running hl hw hr hp
  refine ⟨(bitSet b p.toNat s).goto (.beginWatch k p cb) m' loc, ?_, hstep.carries _ _ _, by simp [hstep.watch],
    (bitsSet_bitSet hr hb).congr rfl (by simp)⟩
  obtain ⟨rfl, rfl, rfl⟩ | ⟨rfl, rfl, rfl⟩ := hm <;> exact hexec

/-- From where B2 leaves it, BEGINWATCH sets each enable of its kind, and goes on to B5. -/
theorem runs_beginWatch_enables (hl : s.params.legal) (hw : s.win = .mapped) (hr : p.toNat < s.params.nports)
    (hp : s.position (.beginWatch k p cb) = .running (afterDiscard k) loc) :
    ∃ u, runs (.beginWatch k p cb) (enablesOf k).length s u ∧ Carries (.beginWatch k p cb) .b5 loc s u ∧
      u.watch = s.watch ∧ BitsSet (enablesOf k) p.toNat s u := by
  cases k with
  | rising =>
    obtain ⟨u, hexec, hc, hwatch, hset⟩ := exec_beginWatch_enables hl hw hr hp (.inl ⟨rfl, rfl, rfl⟩)
    exact ⟨u, ⟨u, hexec, rfl⟩, hc, hwatch, hset⟩
  | falling =>
    obtain ⟨u, hexec, hc, hwatch, hset⟩ := exec_beginWatch_enables hl hw hr hp (.inr ⟨rfl, rfl, rfl⟩)
    exact ⟨u, ⟨u, hexec, rfl⟩, hc, hwatch, hset⟩
  | both =>
    obtain ⟨u, hexec, hc, hwatch, hset⟩ := exec_beginWatch_enables hl hw hr hp (.inl ⟨rfl, rfl, rfl⟩)
    have hpar := hc.outside.params
    obtain ⟨v, hexec', hc', hwatch', hset'⟩ :=
      exec_beginWatch_enables (hpar ▸ hl) (hc.win.trans hw) (hpar ▸ hr) hc.position (.inr ⟨rfl, rfl, rfl⟩)
    exact ⟨v, ⟨u, hexec, v, hexec', rfl⟩, hc.trans hc', hwatch'.trans hwatch, hset.append hset'⟩

/-- B5 of BEGINWATCH: the watcher starts, and the response is delivered. -/
theorem watchStart_spec (k : EdgeKind) (p : Port) (cb : Word) (s : State) :
    Responds (.beginWatch k p cb) .ok 0 s (watchStart k p cb s) ∧ SameOutside s (watchStart k p cb s) ∧
      (watchStart k p cb s).win = s.win ∧ (watchStart k p cb s).handle = s.handle ∧
      (watchStart k p cb s).busy = s.busy ∧ (watchStart k p cb s).regs = s.regs ∧
      (watchStart k p cb s).watch = s.watch.modify p.toNat fun w => { w with phase := .poll } :=
  ⟨finish_responds _ _ rfl rfl rfl rfl, by simp [watchStart, finish, SameOutside]⟩

/-- B2, the enables of the kind, and B5: the micro-steps of BEGINWATCH on the watch that B1 has made. -/
theorem runs_beginWatch (hl : s.params.legal) (hw : s.win = .mapped) (hr : p.toNat < s.params.nports)
    (hp : s.position (.beginWatch k p cb) = .running .b2 loc) :
    ∃ t, runs (.beginWatch k p cb) (1 + (enablesOf k).length + 1) s t ∧ Responds (.beginWatch k p cb) .ok 0 s t ∧
      SameOutside s t ∧ t.win = s.win ∧ t.handle = s.handle ∧ t.busy = s.busy ∧
      t.watch = (s.watch.modify p.toNat fun w => { w with phase := .poll }) ∧ DetectEnabled k p.toNat s t := by
  have hstep := bitPulsed_regStep (b := .eds) hr rfl
  have hcarries := hstep.carries (.beginWatch k p cb) (afterDiscard k) loc
  have hb2 : runs (.beginWatch k p cb) 1 s _ := ⟨_, exec_beginWatch_running hl hw hr hp, rfl⟩
  have hcleared := (bitsCleared_bitPulsed_eds hr).congr rfl
    (State.goto_regs (bitPulsed .eds p.toNat s) (.beginWatch k p cb) (afterDiscard k) loc)
  have hpar := hcarries.outside.params
  obtain ⟨u, hruns, hc, hwatch, hset⟩ :=
    runs_beginWatch_enables (hpar ▸ hl) (hcarries.win.trans hw) (hpar ▸ hr) hcarries.position
  have hall := hcarries.trans hc
  have hpar' := hall.outside.params
  have hb5 : runs (.beginWatch k p cb) 1 u _ :=
    ⟨_, exec_beginWatch_running (hpar' ▸ hl) (hall.win.trans hw) (hpar' ▸ hr) hall.position, rfl⟩
  obtain ⟨hresp, hout, hwin, hhandle, hbusy, hregs, hstart⟩ := watchStart_spec k p cb u
  exact ⟨_, runs_append (runs_append hb2 hruns) hb5, hall.goesOn.responds hall.outside.active hresp,
    hall.outside.trans hout, hwin.trans hall.win, hhandle.trans hall.handle, hbusy.trans hall.busy,
    by rw [hstart, hwatch, State.goto_watch, hstep.watch],
    (detectEnabled_of_bits hcleared hset).congr rfl hregs⟩

end

/-- Settles O38: B1 makes the watch, B2 to B4 access the registers of the port alone, and B5 starts the watcher. -/
theorem beginWatchCompletes : Obligations.BeginWatchCompletes := by
  intro k p cb s hi hw hr hh hb hn
  obtain ⟨hl, hp⟩ := hi
  have hb1 := exec_beginWatch_b1 hp hw hr hh hb hn
  have hbegun : Carries (.beginWatch k p cb) .b2 Locals.none s
      ((s.setWatch p.toNat (some ⟨k, cb, .starting, false, 0⟩)).goto (.beginWatch k p cb) .b2 Locals.none) :=
    ⟨goesOn_goto _ _ _ rfl rfl rfl rfl, by simp [SameOutside], by simp, by simp, by simp⟩
  have hpar := hbegun.outside.params
  obtain ⟨t, hruns, hresp, hout, hwin, hhandle, hbusy, hwatch, hdetect⟩ :=
    runs_beginWatch (hpar ▸ hl) (hbegun.win.trans hw) (hpar ▸ hr) hbegun.position
  have houtside := hbegun.outside.trans hout
  have hlookup : ∀ q, t.watch.lookup q =
      if q = p.toNat then some ⟨k, cb, .poll, false, 0⟩ else s.watch.lookup q := by
    intro q
    rw [hwatch]
    by_cases hq : q = p.toNat <;> simp [hq]
  refine ⟨_, t, hb1, ?steps, hbegun.goesOn.responds hbegun.outside.active hresp, by simp [hlookup],
    by simp [hasWatcher, hlookup], hhandle.trans hbegun.handle, hbusy.trans hbegun.busy, hwin.trans hbegun.win,
    fun q hq => ?others, houtside, ?registers⟩
  case steps => cases k <;> exact hruns
  case others => simp [hhandle, hbusy, hlookup, hq]
  case registers =>
    have hregs : DetectEnabled k p.toNat s t := hdetect.congr (by simp) rfl
    exact hregs.spec houtside.params houtside.ext

/-- An error of the first checks is the error of all. -/
theorem firstError_append {l : List (Option Status)} {e : Status} (h : firstError l = some e)
    (l' : List (Option Status)) : firstError (l ++ l') = some e := by
  induction l with
  | nil => cases h
  | cons o l ih =>
    cases o with
    | none => exact ih h
    | some _ => exact h

/-- BEGINWATCH makes the checks of a command on an Input handle, and then its own of the watch. -/
theorem beginWatchError_of_handleError {s : State} {p : Port} {e : Status}
    (h : handleError s p .input = some e) : beginWatchError s p = some e :=
  firstError_append h [check (s.watch.lookup p.toNat).isNone .alreadyWatching]

/-- Settles O39: the checks of the port and its handle are those of READ, and the check of the watch is the last. -/
theorem beginWatchRaises : Obligations.BeginWatchRaises := by
  intro k p cb s hi hw
  obtain ⟨-, hp⟩ := hi
  have hraise : ∀ {e}, beginWatchError s p = some e →
      ∃ t, exec (.beginWatch k p cb) s = .next t ∧ Responds (.beginWatch k p cb) e 0 s t ∧ Unchanged s t :=
    fun he => ⟨_, exec_beginWatch_raise hp he, raise_spec _ _ s⟩
  refine ⟨fun hr => hraise (beginWatchError_of_handleError (handleError_outOfRange hw hr)),
    fun hr h => hraise (beginWatchError_of_handleError (handleError_invalid hw hr h)), fun hr hh hb hn => hraise ?_⟩
  have ho : openCheck s p = none := openCheck_none.2 (by simp [isOpen, hh, hb])
  obtain ⟨w, hw'⟩ := Option.ne_none_iff_exists'.1 hn
  simp [beginWatchError, hw, rangeCheck_none.2 hr, ho, modeCheck, hh, hw']

/-- B2, B3 and B4 of BEGINWATCH with the window gone: the watch is removed and the error raised. -/
theorem exec_beginWatch_undo {k : EdgeKind} {p : Port} {cb : Word} {m : MicroStep} {loc : Locals} {s : State}
    {e : Status} (hp : s.position (.beginWatch k p cb) = .running m loc) (hm : m = .b2 ∨ m = .b3 ∨ m = .b4)
    (he : windowError s.win = some e) :
    exec (.beginWatch k p cb) s = .next (raise (.beginWatch k p cb) e (s.setWatch p.toNat none)) := by
  change execBeginWatch k p cb s = _
  obtain rfl | rfl | rfl := hm <;> simp only [execBeginWatch, hp, watchAccess, he]

/-- Settles O40: the micro-step meets the window's error before its access, and takes the watch away. -/
theorem beginWatchUndone : Obligations.BeginWatchUndone := by
  intro k p cb m loc s hat hm hw
  obtain ⟨-, hp⟩ := hat
  obtain ⟨e, he⟩ := Option.ne_none_iff_exists'.1 (mt windowError_eq_none.1 hw)
  refine ⟨e, _, he, exec_beginWatch_undo hp hm he, responds_respond _ e 0 rfl rfl rfl rfl, ?_⟩
  simp +contextual [raise, SameOtherPorts, SameOutside]

/-! ### ENDWATCH (43_edge_watch.md R223 to R225) -/

/-- Settles O41: no error is kept on a mapped window, and the watcher's own clear is of the bit that D3 clears again. -/
theorem endWatchCompletes : Obligations.EndWatchCompletes := by
  intro p s w n hi hw hr hh hb hwa hn
  obtain ⟨hl, hp⟩ := hi
  obtain ⟨s1, s2, t, hexec, hwruns, hruns, hresp, hgone, hhandle, hbusy, hwin, hothers, hout, hcleared, -⟩ :=
    runs_endWatch hl hp (by simp [hw]) hr hh hb hwa hn fun _ => hw
  rw [hw, keptError_mapped] at hresp
  exact ⟨s1, s2, t, hexec, hwruns, hruns, hresp, hgone, hhandle, hbusy, hwin, hothers, hout,
    (hcleared hw).spec hout.params hout.ext⟩

theorem watchStopped_iff {s : State} {p : Nat} :
    watchStopped s p = true ↔
      s.watch.lookup p = none ∨ ∃ w, s.watch.lookup p = some w ∧ w.phase = .stopped := by
  unfold watchStopped
  cases s.watch.lookup p <;> simp

/-- Settles O43: the guard of StopWatch is that there is no watch or a Stopped one. -/
theorem stopWatchHoldsCaller : Obligations.StopWatchHoldsCaller := by
  intro i p loc s hi hat
  obtain ⟨-, hp⟩ := hat
  refine ⟨fun h => ⟨_, exec_stopWatch hi hp (watchStopped_iff.2 h), goesOn_goto _ _ _ rfl rfl rfl rfl,
    by simp [Unchanged, SameTables, SameOutside]⟩, ?held⟩
  rintro ⟨w, hw, hph⟩
  have hguard : watchStopped s p.toNat = false := by simp [watchStopped, hw, hph]
  exact (exec_closeOrEnd_running hi hp).trans (by simp [stopWatch, hguard])

end Sys2Proof.Machine
end

section
/-! PROOF. O45 to O49 and O56, the agents that issue no commands: the watcher, the host's return from a callback, the
pads (43_edge_watch.md R210, R226 to R232), and the watch that has stopped. -/

namespace Sys2Proof.Machine

/-! ### The callers after an update of another field (10_state.md R40) -/

section
variable (s : State) (p : Nat) (c : CallerId)
@[simp] theorem setWatch_caller (o : Option WatchState) : (s.setWatch p o).caller c = s.caller c :=
  caller_congr rfl rfl c
@[simp] theorem modifyWatch_caller (f : WatchState → WatchState) : (s.modifyWatch p f).caller c = s.caller c :=
  caller_congr rfl rfl c
@[simp] theorem emit_caller (e : Event) : (s.emit e).caller c = s.caller c := caller_congr rfl rfl c
@[simp] theorem nextDraw_caller : s.nextDraw.caller c = s.caller c := caller_congr rfl rfl c

/-- A callback caller is created or removed alone. -/
@[simp] theorem setCallback_caller (x : Option CallerState) :
    (s.setCallback p x).caller c = if c = .cb p then x else s.caller c := by
  cases c <;> simp [State.caller]
end

/-! ### The watcher (43_edge_watch.md R226 to R231) -/

/-- The watcher's step is taken on the state in which its choice has been taken. -/
theorem step_watcher {s : State} {p : Nat} (hl : s.params.legal) (hn : s.nextInput = .watcher p) :
    step s = watcherStep p s.takeInput := by
  rw [step_of_legal hl, hn]
  rfl

/-- Settles O45: with the stop signal set a watcher in Poll has the stop step alone. -/
theorem watcherStopStep : Obligations.WatcherStopStep := by
  intro s p w hl hn hw hph hs
  refine ⟨watcherStop p s.takeInput, ?_, ?_⟩
  · rw [step_watcher hl hn, watcherStep_stop (by simpa using hw) hph hs]
  · simp +contextual [watcherStop, hasWatcher, hw]

section
variable {p : Nat} {s : State} {w : WatchState}

theorem watcherStep_poll (hw : s.watch.lookup p = some w) (hph : w.phase = .poll) (hs : w.stop = false) :
    watcherStep p s = .next (watcherPoll p w s) := by
  simp [watcherStep, hw, hph, hs]

/-- What a step leaves that is the failure of a watch: all but the watch and the log (43_edge_watch.md R231). -/
theorem failWatch_takeInput (p : Nat) (s : State) :
    (failWatch p s.takeInput).regs = s.regs ∧ (failWatch p s.takeInput).ext = s.ext ∧
      (failWatch p s.takeInput).win = s.win ∧ (failWatch p s.takeInput).handle = s.handle ∧
      (failWatch p s.takeInput).busy = s.busy ∧ (∀ c, (failWatch p s.takeInput).caller c = s.caller c) ∧
      (∀ q, q ≠ p → (failWatch p s.takeInput).watch.lookup q = s.watch.lookup q) ∧
      (failWatch p s.takeInput).watch.lookup p = none ∧
      (failWatch p s.takeInput).log = s.log ++ [.watchFailed p] := by
  simp +contextual [failWatch]

/-- With the window gone the poll step is the failure (43_edge_watch.md R228, R231). -/
theorem watcherPoll_not_mapped (hm : s.win ≠ .mapped) : watcherPoll p w s = failWatch p s := by
  obtain ⟨e, he⟩ := Option.ne_none_iff_exists'.1 (mt windowError_eq_none.1 hm)
  simp only [watcherPoll, he]

/-- On a mapped window the poll step samples the port's EDS bit (43_edge_watch.md R228). -/
theorem watcherPoll_mapped (hl : s.params.legal) (hr : p < s.params.nports) (hm : s.win = .mapped) :
    watcherPoll p w s = if edsBit s p then dispatchCallback p w s.nextDraw else s.nextDraw := by
  have hbit : (memRead s (wordOff s.params .eds p)).getLsbD (bitIdx .eds p) = edsBit s p :=
    memRead_bit hl hr (by simp)
  simp only [watcherPoll, hm, windowError_mapped, hbit]

/-- With the window gone the clear step is the failure (43_edge_watch.md R229, R231). -/
theorem watcherStep_clear_not_mapped (hm : s.win ≠ .mapped) (hw : s.watch.lookup p = some w)
    (hph : w.phase = .clearing) : watcherStep p s = .next (failWatch p s) := by
  obtain ⟨e, he⟩ := Option.ne_none_iff_exists'.1 (mt windowError_eq_none.1 hm)
  simp only [watcherStep, hw, hph, watcherClear, he]

end

/-- Settles O46: the poll step fails, dispatches or does nothing, by the window and the EDS bit. -/
theorem watcherPollStep : Obligations.WatcherPollStep := by
  intro s p w hl hr hn hw hph hs
  refine ⟨watcherPoll p w s.takeInput, ?step, ?_⟩
  case step => rw [step_watcher hl hn, watcherStep_poll (by simpa using hw) hph hs]
  by_cases hm : s.win = .mapped
  · have hbit : edsBit s.takeInput p = edsBit s p := by simp [edsBit]
    rw [watcherPoll_mapped (by simpa using hl) (by simpa using hr) (by simpa using hm), hbit]
    cases hb : edsBit s p
    · simp [hm, hw]
    · simp +contextual [hm, dispatchCallback]
  · obtain ⟨hregs, hext, hwin, hhandle, hbusy, hcaller, hothers, hgone, hlog⟩ := failWatch_takeInput p s
    rw [watcherPoll_not_mapped (by simpa using hm)]
    exact ⟨hregs, hext, hwin, hhandle, hbusy, hothers, fun c _ => hcaller c, fun _ => ⟨hlog, hgone, hcaller _⟩,
      (absurd · hm), (absurd · hm)⟩

/-- Settles O47: the clear step writes the port's EDS bit alone, or fails with the window and writes none. -/
theorem watcherClearStep : Obligations.WatcherClearStep := by
  intro s p w hl hr hn hw hph
  have hl' : s.takeInput.params.legal := by simpa using hl
  have hr' : p < s.takeInput.params.nports := by simpa using hr
  have hw' : s.takeInput.watch.lookup p = some w := by simpa using hw
  by_cases hm : s.win = .mapped
  · have hstep : RegStep s.takeInput (bitPulsed .eds p s.takeInput) := bitPulsed_regStep hr' rfl
    have hcaller := fun c => (caller_congr hstep.main hstep.callbacks c).trans (takeInput_caller s c)
    have hcleared : BitsCleared [.eds] p s ((bitPulsed .eds p s.takeInput).modifyWatch p fun w =>
        { w with phase := .poll }) := (bitsCleared_bitPulsed_eds hr').congr (takeInput_regs s).symm rfl
    refine ⟨_, (step_watcher hl hn).trans (watcherStep_clear hl' hr' (by simpa using hm) hw' hph),
      by simp [hstep.ext], by simp [hstep.win], by simp [hstep.handle], by simp [hstep.busy], by simpa using hcaller,
      fun q hq => by simp [hstep.watch, hq], fun b hb i => by rw [hcleared b, if_neg hb],
      fun _ => ⟨hcleared.bit (b := .eds) (by simp), fun i => by rw [hcleared .eds, if_pos (by simp)], ?watch, ?log⟩,
      absurd hm⟩
    case watch => simp [hstep.watch, hw]
    case log => simp [hstep.log]
  · obtain ⟨hregs, hext, hwin, hhandle, hbusy, hcaller, hothers, hgone, hlog⟩ := failWatch_takeInput p s
    refine ⟨_, (step_watcher hl hn).trans (watcherStep_clear_not_mapped (by simpa using hm) hw' hph), hext, hwin,
      hhandle, hbusy, hcaller, hothers, fun b _ i => regWord_congr hregs b i, (absurd · hm),
      fun _ => ⟨hregs, hgone, hlog⟩⟩

/-! ### The host and the pads (43_edge_watch.md R232, R210) -/

/-- Settles O48: with the phase InCallback and the caller Idle the return is enabled. -/
theorem callbackReturnStep : Obligations.CallbackReturnStep := by
  intro s p n w hl hn hw hph hc
  have hidle : s.callbacks.lookup p = some .idle := hc
  have hstep : step s = .next ((s.takeInput.setCallback p none).setWatch p (some { w with phase := .clearing })) := by
    rw [step_of_legal hl, hn]
    simp [runInput, callbackReturn, hw, hph, hidle]
  refine ⟨_, hstep, ?_⟩
  simp +contextual

section
variable (s0 s : State)

/-- The edge latch leaves the words of the other banks. -/
theorem regWord_edgeLatch {b : Bank} (hb : b ≠ .eds) (i : Nat) : regWord (edgeLatch s0 s) b i = regWord s b i := by
  cases b with
  | eds => exact absurd rfl hb
  | _ => rfl

/-- The edge latch sets no EDS bit that stands for no port (10_state.md R35). -/
theorem eds_reserved_edgeLatch {i j : Nat} (h : s.params.nports ≤ 32 * i + j) :
    (regWord (edgeLatch s0 s) .eds i).getLsbD j = (regWord s .eds i).getLsbD j := by
  change ((latchWords s0 s s.params.nw).word i).getLsbD j = (s.regs.eds.word i).getLsbD j
  rw [latchWords_word]
  split
  · simp [edgeWord, Nat.not_lt.2 h]
  · rfl

end

/-- The pads' step latches the edges it makes (43_edge_watch.md R210, R211). -/
theorem edgesLatched_pad (s : State) (e : PortSet) : EdgesLatched (edsBit s) s (edgeLatch s (s.setExt e)) :=
  ⟨fun q hq => edsBit_edgeLatch s (s.setExt e) q hq, fun _ _ h => eds_reserved_edgeLatch s (s.setExt e) h⟩

theorem step_pad {s : State} {p : Nat} {v : Bool} (hl : s.params.legal) (hr : p < s.params.nports)
    (hn : s.nextInput = .pad p v) :
    step s = .next (edgeLatch s.takeInput (s.takeInput.setExt (s.ext.mark p v))) := by
  rw [step_of_legal hl, hn]
  simp [runInput, padStep, hr]

/-- Settles O49: the outside level is set, and the edge latch does the rest. -/
theorem padStepLatchesEdges : Obligations.PadStepLatchesEdges := by
  intro s p v hl hr hn
  refine ⟨_, step_pad hl hr hn, ?_⟩
  generalize ht : edgeLatch s.takeInput (s.takeInput.setExt (s.ext.mark p v)) = t
  have hext : t.ext = s.ext.mark p v := by rw [← ht]; rfl
  have hwords : SameWordsBut [.eds] s t := by
    intro b hb i
    rw [← ht, regWord_edgeLatch _ _ (by simpa using hb)]
    exact regWord_congr (takeInput_regs s) b i
  have hpar : t.params = s.params := by simp [← ht]
  have hfield : ∀ q, field t q = field s q := fun q => field_congr (hwords .fsel (by simp) _)
  have hlat : ∀ q, latBit t q = latBit s q := fun q =>
    congrArg (·.getLsbD (q % 32)) (hwords .set (by simp) (q / 32))
  have hpad : ∀ q, pad t q = if field s q = s.params.fselOutput then latBit s q else (s.ext.mark p v).has q := by
    intro q
    rw [pad, hfield, hlat, hpar, hext]
  have hlatched : EdgesLatched (edsBit s) s t := by
    have h := edgesLatched_pad s.takeInput (s.ext.mark p v)
    rw [ht] at h
    have heds : edsBit s.takeInput = edsBit s := by funext q; simp [edsBit]
    rw [heds] at h
    exact h.congr_left (takeInput_regs s).symm (takeInput_ext s).symm (takeInput_params s).symm
  obtain ⟨hedges, hreserved⟩ := hlatched
  have hother : ∀ q, q ≠ p → pad t q = pad s q := fun q hq => by rw [hpad, Table.has_mark, if_neg hq, pad]
  refine ⟨by simp [hext], fun q hq => by simp [hext, hq], fun hout => ?output, fun hin => ?input, fun q hq => ?edge,
    hreserved, fun q hq hne => ?port, hwords, by simp [← ht, SameTables], by simp [← ht], fun c => ?caller⟩
  case output => rw [hpad, if_pos hout, pad, if_pos hout]
  case input => simp [hpad, hin]
  case edge => rw [hedges q hq, enabledEdge, Bool.or_assoc]
  case port =>
    have heds : edsBit t q = edsBit s q := by
      rw [hedges q hq, enabledEdge_of_pad_eq (hother q hne), Bool.or_false]
    exact ⟨hfield q, hlat q, heds, congrArg (·.getLsbD (q % 32)) (hwords .ren (by simp) (q / 32)),
      congrArg (·.getLsbD (q % 32)) (hwords .fen (by simp) (q / 32)), hother q hne⟩
  case caller => rw [← ht]; exact takeInput_caller s c

/-! ### A watch that has stopped (43_edge_watch.md R224, R230) -/

section
variable {s t : State} {p q : Nat} {w : WatchState}

theorem watchStopped_signalStop : watchStopped (signalStop q s) p = watchStopped s p := by
  by_cases hp : p = q
  · subst hp
    cases hw : s.watch.lookup p <;> simp [watchStopped, signalStop, hw]
  · exact watchStopped_congr (by simp [signalStop, hp])

theorem watchStopped_removeWatch (h : watchStopped s p = true) : watchStopped (removeWatch q s) p = true := by
  by_cases hp : p = q ∧ watchStopped s q = true
  · have hgone : (removeWatch q s).watch.lookup p = none := by rw [removeWatch_lookup, if_pos hp]
    simp [watchStopped, hgone]
  · exact (watchStopped_congr (by rw [removeWatch_lookup, if_neg hp])).trans h

/-- No command moves a stopped watch but to remove it. -/
theorem CommandStep.keeps_stopped {i : Instr} (ht : CommandStep i s t) (h : Lifecycle s)
    (hw : s.watch.lookup p = some w) (hs : w.phase = .stopped) : watchStopped t p = true := by
  have hstopped : watchStopped s p = true := by simp [watchStopped, hw, hs]
  have hsame : ∀ {u : State}, u.watch = s.watch → watchStopped u p = true := fun hu =>
    (watchStopped_congr (by rw [hu])).trans hstopped
  have hbegin : ∀ {k : EdgeKind} {q : Port} {cb : Word} {m : MicroStep} {loc : Locals},
      s.position (.beginWatch k q cb) = .running m loc → p ≠ q.toNat := by
    rintro k q cb m loc hp rfl
    exact h.not_beginning (by simp [hw, hs]) (position_running.1 hp) rfl
  cases ht with
  | answer _ ha => obtain ⟨u, hu, _, _⟩ := ha; exact hsame (by simp [hu.watch])
  | openProgram _ _ _ _ _ _ _ hu | disable _ _ _ _ _ _ _ _ _ hu | closeInput _ _ _ _ _ _ hu
  | watchArm _ _ _ _ _ _ _ _ _ _ _ _ hu => exact hsame (by simp [finish, hu.watch])
  | winclose | openRaise | openReserve | openUndo | closeBegin | held | stopped | closeRelease =>
    exact hsame (by simp [finish, raise])
  | closeStop q | endStop q =>
    refine (watchStopped_congr (s := signalStop q.toNat s) (by simp [signalStop])).trans ?_
    rwa [watchStopped_signalStop]
  | closeRemove q | endRemove q =>
    refine (watchStopped_congr (s := removeWatch q.toNat s) (by simp)).trans ?_
    exact watchStopped_removeWatch hstopped
  | watchCreate k q cb _ _ _ _ _ _ hh =>
    have hpq : p ≠ q.toNat := by rintro rfl; rw [hh] at hw; cases hw
    exact (watchStopped_congr (by simp [hpq])).trans hstopped
  | watchUndo k q cb m loc e hi hp =>
    subst hi
    exact (watchStopped_congr (by simp [raise, hbegin hp])).trans hstopped
  | watchStart k q cb loc hi hp =>
    subst hi
    exact (watchStopped_congr (by simp [finish, hbegin hp])).trans hstopped

/-- A watcher takes no step once its watch is stopped (43_edge_watch.md R230). -/
theorem WatcherStep.eq_of_stopped (ht : WatcherStep p s t) (hw : s.watch.lookup p = some w)
    (hs : w.phase = .stopped) : t = s := by
  cases ht with
  | idle => rfl
  | stop v hv hp | sample v hv hp | dispatch v hv hp | clear v hv hp =>
    rw [hw] at hv; cases hv; rw [hs] at hp; cases hp
  | fail v hv hp => rw [hw] at hv; cases hv; simp [hs] at hp

/-- No step of any agent moves a stopped watch but to remove it. -/
theorem AgentStep.keeps_stopped {a : Input} (ht : AgentStep a s t) (h : Lifecycle s) (hw : s.watch.lookup p = some w)
    (hs : w.phase = .stopped) : watchStopped t p = true := by
  have hstopped : watchStopped s p = true := by simp [watchStopped, hw, hs]
  have hsame : ∀ {u : State}, u.watch.lookup p = s.watch.lookup p → watchStopped u p = true := fun hu =>
    (watchStopped_congr hu).trans hstopped
  cases ht with
  | none | pad | unmap => exact hsame rfl
  | command c i t _ ht =>
    have hactive : Lifecycle (s.setActive c) := h.congr rfl rfl rfl rfl rfl rfl rfl
    exact ht.keeps_stopped hactive hw hs
  | illegal => exact hsame (by simp [illegalCommand])
  | watcher q t _ ht =>
    by_cases hq : p = q
    · subst hq
      rwa [ht.eq_of_stopped hw hs]
    · exact hsame (ht.watch_other hq)
  | ret q n v _ hv hp =>
    have hq : p ≠ q := by rintro rfl; rw [hw] at hv; cases hv; rw [hs] at hp; cases hp
    exact hsame (by simp [hq])

/-- The callback that a step logs is of a watch in Poll, and not of a stopped one. -/
theorem AgentStep.no_callback_of_stopped {a : Input} (ht : AgentStep a s t) (hw : s.watch.lookup p = some w)
    (hs : w.phase = .stopped) (cb : Word) (n : Nat) : t.log ≠ s.log ++ [.callback p cb n] := by
  intro hlog
  cases ht.logs with
  | nothing h | response _ _ _ _ h | failure _ h => rw [h] at hlog; simp at hlog
  | callback q v h _ hv hp =>
    rw [h] at hlog
    obtain ⟨rfl, -⟩ : q = p ∧ v.cb = cb ∧ v.seq + 1 = n := by simpa using hlog
    rw [hw] at hv
    cases hv
    rw [hs] at hp
    cases hp

end

/-- Settles O56: a stopped watch has no step of its own, and no other agent does more than signal or remove it. -/
theorem stoppedWatchStaysStopped : Obligations.StoppedWatchStaysStopped := by
  intro s t p w h hw hs hstep
  obtain ⟨-, ht⟩ := step_cases hstep
  have hw' : s.takeInput.watch.lookup p = some w := by simpa using hw
  refine ⟨watchStopped_iff.1 (ht.keeps_stopped h.takeInput hw' hs), fun cb n => ?_⟩
  simpa using ht.no_callback_of_stopped hw' hs cb n

end Sys2Proof.Machine
end

section
/-! PROOF. O26 and O60, the exceptions (60_exceptions.md): a codec command on a port that does not exist, and where a
step stops. -/

namespace Sys2Proof.Machine

/-! ### The port check of a codec command (60_exceptions.md R259) -/

theorem codecError_outOfRange {s : State} {accepted : Bool} {p : Port} (ha : accepted = true) (hw : s.win = .mapped)
    (hr : s.params.nports ≤ p.toNat) : codecError s accepted p = some .outOfRange := by
  simp [codecError, ha, hw, rangeCheck_outOfRange hr]

/-- Settles O26: the bank is accepted and the window mapped, so the port's is the first check of the command that
fails. -/
theorem codecPortOutOfRange : Obligations.CodecPortOutOfRange := by
  intro i p s hi hwf hw hr hcmd
  obtain ⟨-, hp⟩ := hi
  suffices hraise : exec i s = .next (raise i .outOfRange s) from ⟨_, hraise, raise_spec i .outOfRange s⟩
  obtain ⟨b, rfl⟩ | ⟨b, rfl⟩ | ⟨b, rfl⟩ | ⟨b, rfl⟩ | ⟨fn, rfl⟩ | rfl := hcmd
  · change execSetbit b p s = _; exact oneStep_raise hp (codecError_outOfRange hwf hw hr)
  · change execClrbit b p s = _; exact oneStep_raise hp (codecError_outOfRange hwf hw hr)
  · change execRdbit b p s = _; exact oneStep_raise hp (codecError_outOfRange hwf hw hr)
  · change execPulse b p s = _; exact oneStep_raise hp (codecError_outOfRange hwf hw hr)
  · change execSetfn fn p s = _; exact oneStep_raise hp (codecError_outOfRange rfl hw hr)
  · change execGetfn p s = _; exact oneStep_raise hp (codecError_outOfRange rfl hw hr)

/-! ### Results that are a next state -/

/-- The result is neither a fault nor a refusal. -/
def Advances (r : Result) : Prop := ∃ t, r = .next t

theorem advances_next (t : State) : Advances (.next t) := ⟨t, rfl⟩

section
variable {i : Instr} {s u : State} {k : State → State} {access : State → Option State}

theorem advances_afterWrite {o : Option State} (ho : o = some u) : Advances (afterWrite o k) :=
  ⟨k u, by rw [ho, afterWrite_some]⟩

/-- An access of CLOSE or ENDWATCH is left out where the window is not mapped. -/
theorem advances_tryAccess {err : Status} {k : Status → State → State} (ha : access s = some u) :
    Advances (tryAccess access err s k) := by
  unfold tryAccess
  split
  · exact advances_afterWrite ha
  · exact advances_next _

theorem advances_watchAccess {p : Nat} (ha : access s = some u) : Advances (watchAccess i p access s k) := by
  unfold watchAccess
  split
  · exact advances_afterWrite ha
  · exact advances_next _

/-- A command of one micro-step raises the error of its checks, or has its effect once they pass. -/
theorem advances_oneStep {e : State → Option Status} {k : State → State → Result} (hp : s.position i = .start)
    (hk : e s = none → Advances (k s s)) : Advances (oneStep i s fun s => checked i (e s) s (k s)) := by
  rw [oneStep_start hp]
  cases he : e s with
  | none => exact hk he
  | some x => exact advances_next _

end

/-! ### The first micro-step of a command -/

/-- What SET, CLR and READ have passed when they go on includes the check of the port. -/
theorem port_of_handleError {s : State} {p : Port} {m : Mode} (he : handleError s p m = none) :
    p.toNat < s.params.nports := by
  simp only [handleError, firstError_cons_eq_none, rangeCheck_none] at he
  obtain ⟨-, hr, -⟩ := he
  exact hr

/-- A write at an offset that decodes to a bank word is made. -/
theorem memWrite_of_banked {s : State} {off : Nat} (hd : decodeOffset s.params off ≠ none) (v : Word) :
    ∃ u, memWrite s off v = some u := by
  obtain ⟨⟨b, j⟩, hd⟩ := Option.ne_none_iff_exists'.1 hd
  exact ⟨writeWord s b j v, by simp only [memWrite, hd]⟩

/-- An Idle caller's command takes its first micro-step, or is a WR32 to an Unbanked offset: every other register write
is of a port that the checks have found to exist. -/
theorem advances_exec_start {i : Instr} {s : State} (hl : s.params.legal) (hp : s.position i = .start)
    (hbanked : ∀ off data, i = .wr32 off data → decodeOffset s.params off.toNat ≠ none) : Advances (exec i s) := by
  cases i with
  | rd32 off => change Advances (execRd32 off s); exact advances_oneStep hp fun _ => advances_next _
  | wr32 off data =>
    change Advances (execWr32 off data s)
    obtain ⟨u, hu⟩ := memWrite_of_banked (hbanked off data rfl) data
    exact advances_oneStep hp fun _ => advances_afterWrite hu
  | winclose => change Advances (execWinclose s); exact advances_oneStep hp fun _ => advances_next _
  | locate b p =>
    change Advances (execLocate b p s)
    exact advances_oneStep (k := fun s _ => .next (finish (.locate b p) _ s)) hp fun _ => advances_next _
  | setbit b p =>
    change Advances (execSetbit b p s)
    refine advances_oneStep hp fun he => ?_
    obtain ⟨hb, -, hr⟩ := codecError_eq_none.1 he
    exact advances_afterWrite (setPortBit_eq hl hr hb)
  | clrbit b p =>
    change Advances (execClrbit b p s)
    refine advances_oneStep hp fun he => ?_
    obtain ⟨hb, -, hr⟩ := codecError_eq_none.1 he
    exact advances_afterWrite (clearPortBit_eq hl hr hb)
  | rdbit b p => change Advances (execRdbit b p s); exact advances_oneStep hp fun _ => advances_next _
  | pulse b p =>
    change Advances (execPulse b p s)
    refine advances_oneStep hp fun he => ?_
    obtain ⟨hb, -, hr⟩ := codecError_eq_none.1 he
    exact advances_afterWrite (pulsePortBit_eq hl hr hb)
  | setfn fn p =>
    change Advances (execSetfn fn p s)
    refine advances_oneStep hp fun he => ?_
    obtain ⟨-, -, hr⟩ := codecError_eq_none.1 he
    exact advances_afterWrite (writeField_eq hl hr fn)
  | getfn p => change Advances (execGetfn p s); exact advances_oneStep hp fun _ => advances_next _
  | setPin p =>
    change Advances (execSet p s)
    exact advances_oneStep hp fun he =>
      advances_afterWrite (pulsePortBit_eq hl (port_of_handleError he) rfl)
  | clrPin p =>
    change Advances (execClr p s)
    exact advances_oneStep hp fun he =>
      advances_afterWrite (pulsePortBit_eq hl (port_of_handleError he) rfl)
  | readPin p => change Advances (execRead p s); exact advances_oneStep hp fun _ => advances_next _
  | openPin m p => exact ⟨openReserve m p s, by simp only [exec, execOpen, hp]⟩
  | closePin p => exact ⟨closeBegin p s, by simp only [exec, execClose, hp]⟩
  | beginWatch k p cb => exact ⟨watchCreate k p cb s, by simp only [exec, execBeginWatch, hp]⟩
  | endWatch p => exact ⟨watchEnd p s, by simp only [exec, execEndWatch, hp]⟩

/-- A WR32 to an Unbanked offset raises the error of its checks, or is refused (log 12). -/
theorem exec_wr32_unbanked {off : BitVec 12} {data : Word} {s : State} (hp : s.position (.wr32 off data) = .start)
    (hd : decodeOffset s.params off.toNat = none) :
    Advances (exec (.wr32 off data) s) ∨ exec (.wr32 off data) s = .refused .unbankedWrite := by
  cases he : accessError s off with
  | some e => exact .inl ⟨_, exec_wr32_raise hp he⟩
  | none =>
    right
    change execWr32 off data s = _
    unfold execWr32
    rw [oneStep_start hp, he, checked_none, memWrite_none hd, afterWrite_none]

/-! ### The next micro-step of a command (10_state.md R44) -/

section
variable {s : State}

/-- A port with a handle exists. -/
theorem Lifecycle.port_of_handle (h : Lifecycle s) {p : Nat} (hh : s.handle.lookup p ≠ none) : p < s.params.nports :=
  Nat.lt_of_not_le fun hr => hh (h.handle_range p hr)

/-- A port with a watch exists, since it has a handle. -/
theorem Lifecycle.port_of_watch (h : Lifecycle s) {p : Nat} (hw : s.watch.lookup p ≠ none) : p < s.params.nports :=
  h.port_of_handle (by simp [h.watch_handle p hw])

/-- StopWatch, D1, D2 and D3 of CLOSE and ENDWATCH. -/
theorem advances_closeOrEnd {i : Instr} {p : Port} {k : MicroStep} {loc : Locals}
    (hi : i = .closePin p ∨ i = .endWatch p) (hl : s.params.legal) (hr : p.toNat < s.params.nports)
    (hp : s.position i = .running k loc) (hk : k = .stop ∨ k = .d1 ∨ k = .d2 ∨ k = .d3) : Advances (exec i s) := by
  rw [exec_closeOrEnd_running hi hp]
  obtain rfl | rfl | rfl | rfl := hk
  · exact advances_next _
  · exact advances_tryAccess (clearPortBit_eq hl hr (b := .ren) rfl)
  · exact advances_tryAccess (clearPortBit_eq hl hr (b := .fen) rfl)
  · exact advances_tryAccess (pulsePortBit_eq hl hr (b := .eds) rfl)

theorem advances_open_running {m : Mode} {p : Port} {loc : Locals} (hl : s.params.legal)
    (hr : p.toNat < s.params.nports) (hp : s.position (.openPin m p) = .running .o2 loc) :
    Advances (exec (.openPin m p) s) := by
  change Advances (execOpen m p s)
  simp only [execOpen, hp, openProgram]
  split
  · exact advances_afterWrite (writeField_eq hl hr _)
  · exact advances_next _

theorem advances_close_running {p : Port} {k : MicroStep} {loc : Locals} (hl : s.params.legal)
    (hr : p.toNat < s.params.nports) (hp : s.position (.closePin p) = .running k loc) (hk : closeOk s p.toNat loc k) :
    Advances (exec (.closePin p) s) := by
  cases k with
  | stop | d1 | d2 | d3 => exact advances_closeOrEnd (.inl rfl) hl hr hp (by simp)
  | remove | k6 => rw [exec_close_running hp]; exact advances_next _
  | k5 => rw [exec_close_running hp]; exact advances_tryAccess (writeField_eq hl hr _)
  | o2 | b2 | b3 | b4 | b5 => exact hk.elim

theorem advances_beginWatch_running {kind : EdgeKind} {p : Port} {cb : Word} {k : MicroStep} {loc : Locals}
    (hl : s.params.legal) (hr : p.toNat < s.params.nports)
    (hp : s.position (.beginWatch kind p cb) = .running k loc) (hk : k = .b2 ∨ k = .b3 ∨ k = .b4 ∨ k = .b5) :
    Advances (exec (.beginWatch kind p cb) s) := by
  change Advances (execBeginWatch kind p cb s)
  obtain rfl | rfl | rfl | rfl := hk <;> simp only [execBeginWatch, hp]
  · exact advances_watchAccess (pulsePortBit_eq hl hr (b := .eds) rfl)
  · exact advances_watchAccess (setPortBit_eq hl hr (b := .ren) rfl)
  · exact advances_watchAccess (setPortBit_eq hl hr (b := .fen) rfl)
  · exact advances_next _

theorem advances_endWatch_running {p : Port} {k : MicroStep} {loc : Locals} (hl : s.params.legal)
    (hr : p.toNat < s.params.nports) (hp : s.position (.endWatch p) = .running k loc)
    (hk : k = .stop ∨ k = .d1 ∨ k = .d2 ∨ k = .d3 ∨ k = .remove) : Advances (exec (.endWatch p) s) := by
  cases k with
  | stop | d1 | d2 | d3 => exact advances_closeOrEnd (.inr rfl) hl hr hp (by simp)
  | remove => rw [exec_endWatch_running hp]; exact advances_next _
  | o2 | b2 | b3 | b4 | b5 | k5 | k6 => simp at hk

/-- A busy caller stands at a micro-step that its command has, and the port whose registers it accesses exists. -/
theorem Lifecycle.advances_exec_running (h : Lifecycle s) {i : Instr} {k : MicroStep} {loc : Locals}
    (hc : s.caller s.active = some (.busy i k loc)) : Advances (exec i s) := by
  have hp : s.position i = .running k loc := position_running.2 hc
  have hok : callerOk s (.busy i k loc) := h.callers _ _ hc
  cases i with
  | openPin m p =>
    cases k with
    | o2 =>
      obtain ⟨hh, -, -⟩ := hok
      exact advances_open_running h.legal (h.port_of_handle (by simp [hh])) hp
    | _ => exact hok.elim
  | closePin p =>
    obtain ⟨hb, hk⟩ := hok
    exact advances_close_running h.legal (h.port_of_handle (h.busy_handle _ hb)) hp hk
  | beginWatch kind p cb =>
    obtain ⟨⟨w, hw, -⟩, hk⟩ := hok
    exact advances_beginWatch_running h.legal (h.port_of_watch (by simp [hw])) hp hk
  | endWatch p =>
    obtain ⟨hr, hk⟩ := hok
    exact advances_endWatch_running h.legal hr hp hk
  | _ => exact hok.elim

/-! ### The step of every agent -/

/-- The one register access of a watcher is of its own port, which exists. -/
theorem Lifecycle.advances_watcherStep (h : Lifecycle s) (p : Nat) : Advances (watcherStep p s) := by
  cases hw : s.watch.lookup p with
  | none => simp only [watcherStep, hw]; exact advances_next _
  | some w =>
    cases hph : w.phase with
    | clearing =>
      have hr : p < s.params.nports := h.port_of_watch (by simp [hw])
      simp only [watcherStep, hw, hph, watcherClear]
      split
      · exact advances_next _
      · exact advances_afterWrite (pulsePortBit_eq h.legal hr rfl)
    | starting | poll | inCallback | stopped => simp only [watcherStep, hw, hph]; exact advances_next _

theorem Lifecycle.advances_resumeCaller (h : Lifecycle s) (c : CallerId) : Advances (resumeCaller c s) := by
  have hactive : Lifecycle (s.setActive c) := h.congr rfl rfl rfl rfl rfl rfl rfl
  unfold resumeCaller
  split
  · rename_i i k loc hc
    exact hactive.advances_exec_running ((setActive_caller s c c).trans hc)
  · exact advances_next _
  · exact advances_next _

/-- The choice is of a WR32 to an offset at which no bank word stands. -/
def IssuesUnbankedWrite (P : Params) (a : Input) : Prop :=
  ∃ c cmd off data, a = .issue c cmd ∧ decode cmd = .ok (.wr32 off data) ∧ decodeOffset P off.toNat = none

theorem issueCommand_outcome (hl : s.params.legal) (c : CallerId) (cmd : Command) :
    Advances (issueCommand c cmd s) ∨
      issueCommand c cmd s = .refused .unbankedWrite ∧ IssuesUnbankedWrite s.params (.issue c cmd) := by
  by_cases hc : s.caller c = some .idle
  · cases hd : decode cmd with
    | error e => exact .inl ⟨_, by simp only [issueCommand, hc, if_true, hd]; rfl⟩
    | ok i =>
      have hp : (s.setActive c).position i = .start := position_start.2 ((setActive_caller s c c).trans hc)
      rw [issueCommand_of_idle hc hd]
      by_cases hu : ∃ off data, i = .wr32 off data ∧ decodeOffset s.params off.toNat = none
      · obtain ⟨off, data, rfl, hoff⟩ := hu
        exact (exec_wr32_unbanked hp hoff).imp id fun hr => ⟨hr, c, cmd, off, data, rfl, hd, hoff⟩
      · exact .inl (advances_exec_start hl hp fun off data hi hoff => hu ⟨off, data, hi, hoff⟩)
  · exact .inl ⟨s, if_neg hc⟩

/-- The micro-step that a choice asks for is taken, or it is a refused WR32 to an Unbanked offset. -/
theorem Lifecycle.runInput_outcome (h : Lifecycle s) (a : Input) :
    Advances (runInput a s) ∨ runInput a s = .refused .unbankedWrite ∧ IssuesUnbankedWrite s.params a := by
  cases a with
  | issue c cmd => exact issueCommand_outcome h.legal c cmd
  | resume c => exact .inl (h.advances_resumeCaller c)
  | watcher p => exact .inl (h.advances_watcherStep p)
  | pad | ret | unmap => exact .inl (advances_next _)

end

/-- Settles O60: the choice taken leaves the invariants, under which no agent's micro-step stops but a WR32 to an
Unbanked offset, and that one with the refusal of log 12. -/
theorem stepStopsOnlyOnUnbankedWrite : Obligations.StepStopsOnlyOnUnbankedWrite := by
  intro s h
  rw [step_of_legal h.legal]
  obtain ⟨t, ht⟩ | ⟨hrefused, hissue⟩ := h.takeInput.runInput_outcome s.nextInput
  · simp [ht]
  · rw [takeInput_params] at hissue
    rw [hrefused]
    exact ⟨nofun, fun r hr => ⟨by cases hr; rfl, hissue⟩⟩

end Sys2Proof.Machine
end

section
/-! PROOF. O44 and O57, where nothing moves: a command that waits for the callback it was issued from
(70_reset_and_hazards.md R296), and the block at the end of a run (R304). -/

namespace Sys2Proof.Machine

/-! ### What a command leaves of the other callers (10_state.md R40, R41) -/

section
variable {s t : State} {i : Instr}

/-- A micro-step of a command delivers its response, moves the acting caller on in it, or is held. -/
theorem CommandStep.responds_or_goesOn (ht : CommandStep i s t) :
    (∃ e v, Responds i e v s t) ∨ (∃ k loc, GoesOn i k loc s t) ∨ t = s := by
  cases ht with
  | answer _ ha =>
    obtain ⟨u, hu, e, v⟩ := ha
    exact .inl ⟨e, v, responds_respond i e v hu.main hu.callbacks hu.log hu.active⟩
  | openProgram _ _ _ _ _ _ _ hu => exact .inl ⟨_, _, finish_responds i 0 hu.main hu.callbacks hu.log hu.active⟩
  | disable _ _ _ _ _ _ _ _ _ hu | closeInput _ _ _ _ _ _ hu | watchArm _ _ _ _ _ _ _ _ _ _ _ _ hu =>
    exact .inr (.inl ⟨_, _, goesOn_goto i _ _ hu.main hu.callbacks hu.log hu.active⟩)
  | winclose | openRaise | openUndo | endRemove | closeRelease | watchUndo | watchStart =>
    exact .inl ⟨_, _, responds_respond i _ _ (by simp) (by simp) (by simp) (by simp)⟩
  | openReserve | closeStop | closeBegin | endStop | stopped | closeRemove | watchCreate =>
    exact .inr (.inl ⟨_, _, goesOn_goto i _ _ (by simp [signalStop]) (by simp [signalStop]) (by simp [signalStop])
      (by simp [signalStop])⟩)
  | held => exact .inr (.inr rfl)

/-- The step from `s` to `t` leaves caller `c` where it stands and logs no response to it. -/
def CallerWaits (c : CallerId) (s t : State) : Prop :=
  t.caller c = s.caller c ∧ ∀ cmd status value, t.log ≠ s.log ++ [.resp c cmd status value]

theorem callerWaits_of_log_eq {c : CallerId} (hc : t.caller c = s.caller c) (hlog : t.log = s.log) :
    CallerWaits c s t :=
  ⟨hc, by simp [hlog]⟩

/-- What a response leaves of a caller that is not the acting one. -/
theorem callerWaits_respond {c : CallerId} (hc : c ≠ s.active) (w : Word) (e : Status) (v : Word) :
    CallerWaits c s (s.respond w e v) :=
  ⟨by rw [caller_respond, if_neg hc], by simp [Ne.symm hc]⟩

/-- A command moves and answers the acting caller alone. -/
theorem CommandStep.callerWaits (ht : CommandStep i s t) {c : CallerId} (hc : c ≠ s.active) : CallerWaits c s t := by
  obtain ⟨e, v, hlog, -, hothers⟩ | ⟨k, loc, hlog, -, hothers⟩ | rfl := ht.responds_or_goesOn
  · exact ⟨hothers c hc, by simp [hlog, Ne.symm hc]⟩
  · exact callerWaits_of_log_eq (hothers c hc) hlog
  · exact callerWaits_of_log_eq rfl rfl

end

/-! ### A caller in a command, when another agent moves -/

section
variable {s t : State}

/-- A port in phase Poll has no callback caller, so a dispatch creates a new one (10_state.md R39). -/
theorem Lifecycle.no_callback_in_poll (h : Lifecycle s) {p : Nat} {w : WatchState} (hw : s.watch.lookup p = some w)
    (hp : w.phase = .poll) : s.caller (.cb p) = none := by
  by_contra hc
  obtain ⟨v, hv, hph⟩ := (h.callback_watch p).1 hc
  rw [hw] at hv
  cases hv
  rw [hp] at hph
  cases hph

/-- A watcher moves no caller that exists: it creates one at most. -/
theorem WatcherStep.callerWaits {p : Nat} (ht : WatcherStep p s t) (h : Lifecycle s) {c : CallerId}
    (hc : s.caller c ≠ none) : CallerWaits c s t := by
  cases ht with
  | idle | sample => exact callerWaits_of_log_eq rfl rfl
  | stop => exact callerWaits_of_log_eq (by simp [watcherStop]) rfl
  | fail => exact ⟨by simp [failWatch], by simp [failWatch]⟩
  | clear _ _ _ _ _ _ hu =>
    exact callerWaits_of_log_eq ((modifyWatch_caller ..).trans (caller_congr hu.main hu.callbacks c)) hu.log
  | dispatch w hw hp =>
    have hne : c ≠ .cb p := by rintro rfl; exact hc (h.no_callback_in_poll hw hp)
    exact ⟨by simp [dispatchCallback, hne], by simp [dispatchCallback]⟩

/-- A caller in a command is moved and answered by its own resumption alone. -/
theorem AgentStep.callerWaits {a : Input} (ht : AgentStep a s t) (h : Lifecycle s) {c : CallerId} {i : Instr}
    {k : MicroStep} {loc : Locals} (hc : s.caller c = some (.busy i k loc)) (ha : a ≠ .resume c) :
    CallerWaits c s t := by
  cases ht with
  | none | pad | unmap => exact callerWaits_of_log_eq (caller_congr rfl rfl c) rfl
  | command d j t hd ht =>
    have hne : c ≠ d := by
      rintro rfl
      obtain ⟨cmd, -, hidle, -⟩ | ⟨hresume, -⟩ := hd
      · rw [hc] at hidle; cases hidle
      · exact ha hresume
    exact ht.callerWaits (s := s.setActive d) hne
  | illegal d cmd _ hd =>
    have hne : c ≠ d := by rintro rfl; rw [hc] at hd; cases hd
    exact callerWaits_respond (s := s.setActive d) hne _ _ _
  | watcher p t _ ht => exact ht.callerWaits h (by simp [hc])
  | ret p n w _ _ _ hidle =>
    have hne : c ≠ .cb p := by rintro rfl; rw [State.caller, hidle] at hc; cases hc
    exact callerWaits_of_log_eq (by simp [hne]) rfl

end

/-! ### The command from the port's own callback (70_reset_and_hazards.md R296) -/

section
variable {i : Instr} {p : Port} {loc : Locals} {n : Nat} {w : WatchState} {s t : State}

/-- The resumption of a StopWatch whose watch has not stopped is held (43_edge_watch.md R224, R275). -/
theorem step_resume_held {c : CallerId} (hl : s.params.legal) (hi : i = .closePin p ∨ i = .endWatch p)
    (hc : s.caller c = some (.busy i .stop loc)) (hw : s.watch.lookup p.toNat = some w) (hph : w.phase ≠ .stopped)
    (hn : s.nextInput = .resume c) : step s = .next (s.takeInput.setActive c) := by
  rw [stepResumesCommand s c i .stop loc hl hn hc]
  have hat : IsAt i .stop loc (s.takeInput.setActive c) :=
    ⟨by simpa using hl, position_running.2 (by simpa using hc)⟩
  exact (stopWatchHoldsCaller i p loc _ hi hat).2 ⟨w, by simpa using hw, hph⟩

/-- While the watch is in the callback no step moves the command or answers it. -/
theorem callerWaits_ownCallback (h : Lifecycle s) (hi : i = .closePin p ∨ i = .endWatch p)
    (hc : s.caller (.cb p.toNat) = some (.busy i .stop loc)) (hw : s.watch.lookup p.toNat = some w)
    (hph : w.phase = .inCallback n) (hstep : step s = .next t) : CallerWaits (.cb p.toNat) s t := by
  by_cases hn : s.nextInput = .resume (.cb p.toNat)
  · rw [step_resume_held h.legal hi hc hw (by simp [hph]) hn] at hstep
    cases hstep
    exact callerWaits_of_log_eq (by simp) (by simp)
  · simpa [CallerWaits] using (step_cases hstep).2.callerWaits h.takeInput (by simpa using hc) hn

/-- A callback goes on as long as its caller does (10_state.md R39). -/
theorem inCallback_of_caller (h : Lifecycle s) {p : Nat} (hw : s.watch.lookup p = some w)
    (hph : w.phase = .inCallback n) (hstep : step s = .next t) (hc : t.caller (.cb p) ≠ none) :
    ∃ w', t.watch.lookup p = some w' ∧ w'.phase = .inCallback n := by
  have hr : p < s.params.nports := h.port_of_watch (by simp [hw])
  obtain ⟨-, hcallback, -⟩ := callbackOnlyFromPoll s t p hr hstep
  obtain ⟨w', hw', hph', -⟩ | ⟨-, hret⟩ := hcallback h w n hw hph
  · exact ⟨w', hw', hph'⟩
  · obtain ⟨v, hv, hv'⟩ := ((everyStepKeepsLifecycle s t h hstep).callback_watch p).1 hc
    rw [hret] at hv
    cases hv
    cases hv'

end

/-- Settles O44: only the command's own resumption could move it, and StopWatch holds that; the callback goes on as
long as its caller does. -/
theorem ownCallbackStuck : Obligations.OwnCallbackStuck := by
  intro i p loc n w s t h hi hc hw hph hstep
  obtain ⟨hcaller, hlog⟩ := callerWaits_ownCallback h hi hc hw hph hstep
  exact ⟨hcaller.trans hc, inCallback_of_caller h hw hph hstep (by simp [hcaller, hc]), hlog⟩

/-! ### The end of a run (70_reset_and_hazards.md R304) -/

section
variable {prog : List Command} {s : State}

theorem stutters_takeInput (s : State) : Stutters s s.takeInput := by
  simp [Stutters, SameTables]

/-- Main has no command left once every response has been delivered (10_state.md R22). -/
theorem MainDone.nextCommand_eq_none (h : MainDone prog s) : nextCommand prog s = none := by
  obtain ⟨-, hanswered⟩ := h
  simp [nextCommand, hanswered]

/-- With no CB(p) the one caller is Main, which is Idle and at the end of its list; with no watch no watcher steps. -/
theorem Quiescent.stepOf_eq_none (h : Quiescent prog s) (a : FairAgent) : stepOf prog s a = none := by
  obtain ⟨hdone, hcallbacks, hwatch⟩ := h
  have hmain : s.main = .idle := hdone.1
  cases a with
  | watcher p => simp [stepOf, hwatch p]
  | caller c =>
    cases c with
    | main => simp [stepOf, State.caller, hmain, hdone.nextCommand_eq_none]
    | cb p => simp [stepOf, State.caller, hcallbacks p]

/-- No choice that the program allows, but those of the pads and the unmap, is enabled. -/
theorem Quiescent.runInput_takeInput (h : Quiescent prog s) {a : Input} (ha : Admits prog s a)
    (hpad : ∀ p v, a ≠ .pad p v) (hunmap : a ≠ .unmap) : runInput a s.takeInput = .next s.takeInput := by
  obtain ⟨hdone, hcallbacks, hwatch⟩ := h
  have hmain : s.main = .idle := hdone.1
  cases a with
  | issue c cmd =>
    cases c with
    | main =>
      obtain ⟨-, hnext⟩ := ha
      rw [hdone.nextCommand_eq_none] at hnext
      cases hnext
    | cb p => simp [runInput, issueCommand, State.caller, hcallbacks p]
  | resume c =>
    cases c with
    | main => simp [runInput, resumeCaller, State.caller, hmain]
    | cb p => simp [runInput, resumeCaller, State.caller, hcallbacks p]
  | watcher p => simp [runInput, watcherStep, hwatch p]
  | pad p v => exact absurd rfl (hpad p v)
  | ret p => simp [runInput, callbackReturn, hwatch p]
  | unmap => exact absurd rfl hunmap

end

/-- Settles O57: no caller, watcher or callback return is enabled, so the choice taken is all that moves on. -/
theorem quiescentStepsChangeNothing : Obligations.QuiescentStepsChangeNothing := by
  intro prog s hl h hadmits hpad hunmap
  have hstep : step s = .next s.takeInput := (step_of_legal hl).trans (h.runInput_takeInput hadmits hpad hunmap)
  exact ⟨h.stepOf_eq_none, s.takeInput, hstep, stutters_takeInput s⟩

end Sys2Proof.Machine
end
